-- ==== Sys2Proof/Word.lean ====
section
/-! DEFINITION. The widths the spec names, and nothing else. -/

namespace Sys2Proof

/-- A byte of memory (R40). -/
abbrev Byte := BitVec 8

/-- A 16-bit word of the SL header (R6, R48), and a segment selector (R16). -/
abbrev Half := BitVec 16

/-- A 32-bit general register, offset or segment base (R11, R13, R16). -/
abbrev Word := BitVec 32

/-- A 64-bit register: an MSR, and the registers of R12 on an implementation that has them. -/
abbrev Quad := BitVec 64

end Sys2Proof
end

