-- ==== Sys2Proof/Syntax.lean ====
section
/-! DEFINITION. The instructions of spec/opcode_table.json, one constructor per row (R65).

Both rows have implicit operands only (R66, R68), so no constructor has a field. Software's other moves are no instructions but
abstract actions (R10d, R65): they are moves of the machine, in Machine/Parts.lean. -/

namespace Sys2Proof

inductive Instr where
  /-- `SKINIT EAX` (R66, R67). -/
  | skinit
  /-- `CPUID`, function number in `EAX` (R68). -/
  | cpuid
  deriving DecidableEq, Repr, Inhabited

/-- Whether breakpoint and trace traps are taken around the instruction: `SKINIT` honours none of them (R86). -/
def Instr.honoursDebugTraps : Instr → Bool
  | .skinit => false
  | .cpuid => true

end Sys2Proof
end

