-- ==== Sys2Proof/Machine/Parts.lean ====
section
/-! DEFINITION. The kinds of plain data the state is made of: registers, flags, segments, events, one processor, and the moves
of the agents around it. Every type here is data without functions. -/

namespace Sys2Proof.Machine

/-! ### Who acts -/

/-- A processor: the Bootstrap Processor or one of the Application Processors (R10). The source gives no other identifiers
(R139), so the choice of which processor is the BSP is the choice of this name. -/
inductive ProcId where
  | bsp
  | ap (i : Nat)
  deriving DecidableEq, Repr, Inhabited

/-! ### General registers (R11) -/

inductive Gpr where
  | eax | ecx | edx | ebx | esp | ebp | esi | edi
  deriving DecidableEq, Repr, Inhabited

/-- The general register file `x`: eight 32-bit registers, none hardwired, no banks (R11). -/
structure Regs where
  eax : Word
  ecx : Word
  edx : Word
  ebx : Word
  esp : Word
  ebp : Word
  esi : Word
  edi : Word
  deriving DecidableEq, Repr, Inhabited

/-- The four registers in which `CPUID` returns its values (R68). -/
inductive CpuidReg where
  | eax | ebx | ecx | edx
  deriving DecidableEq, Repr, Inhabited

/-! ### Flags, segments (R14, R16) -/

/-- `EFLAGS` (R14): the two bits the source names; the other bits, whose places and meanings it does not give. -/
structure Eflags where
  intr : Bool
  trap : Bool
  other : Word
  deriving DecidableEq, Repr, Inhabited

/-- The segment attributes the source uses (R16). `wide` is the default size: 32-bit when true, 16-bit when false. -/
structure SegAttr where
  code : Bool
  readable : Bool
  writable : Bool
  expandUp : Bool
  wide : Bool
  deriving DecidableEq, Repr, Inhabited

/-- The four parts of a segment register (R16). -/
structure Seg where
  sel : Half
  base : Word
  limit : Word
  attr : SegAttr
  deriving DecidableEq, Repr, Inhabited

inductive SegReg where
  | cs | ss | ds | es | fs | gs
  deriving DecidableEq, Repr, Inhabited

/-- The six segment registers (R16). -/
structure Segs where
  cs : Seg
  ss : Seg
  ds : Seg
  es : Seg
  fs : Seg
  gs : Seg
  deriving DecidableEq, Repr, Inhabited

/-! ### Model-specific registers (R22 to R27) -/

/-- `VM_CR` (R24): three named flags and the remaining bits as one opaque field. -/
structure VmCr where
  dpd : Bool
  rInit : Bool
  disA20m : Bool
  other : Quad
  deriving DecidableEq, Repr, Inhabited

/-- `EFER` (R23): a bit vector whose width is a parameter (`Params.eferWidth`), no field of which has a meaning. -/
structure Efer where
  width : Nat
  bits : BitVec width
  deriving DecidableEq, Repr, Inhabited

/-- The MSR file (R22): the two MSRs the source names and the rest, by number. -/
structure Msrs where
  efer : Efer
  vmcr : VmCr
  other : List (Nat × Quad)
  deriving DecidableEq, Repr, Inhabited

/-! ### Events (R110) and the set of held ones (R30) -/

/-- Where an INIT came from: the signal or an interprocessor interrupt (R110, R115). -/
inductive InitSource where
  | signal | ipi
  deriving DecidableEq, Repr, Inhabited

/-- The events `GIF` gates (R110, R118). `StartupIPI` and `RESET` are never held and are moves of their own. -/
inductive Event where
  | device (v : Nat)
  | nmi
  | smi
  | init (src : InitSource)
  deriving DecidableEq, Repr, Inhabited

/-- Where the one held INIT came from: one of the two ways, or asserted in both ways while it was held (log 11). -/
inductive InitOrigin where
  | signal | ipi | both
  deriving DecidableEq, Repr, Inhabited

/-- The set of held events (R30): device interrupts as a strictly rising list of their numbers, and at most one of each other
kind. The held INIT remembers where it came from, since R132 halts for the IPI form alone (DESIGN CHOICE, log 11). -/
structure Pending where
  device : List Nat
  nmi : Bool
  smi : Bool
  init : Option InitOrigin
  deriving DecidableEq, Repr, Inhabited

/-! ### One processor -/

/-- Running, halted by an INIT IPI, or shut down (R31). -/
inductive RunState where
  | running | initHalted | shutdown
  deriving DecidableEq, Repr, Inhabited

/-- Outside any guest, or running a guest with or without nested paging (R131c, R131d; read by R82, R115, R130, R73, R78). -/
inductive Context where
  | host
  | guest (nested : Bool)
  deriving DecidableEq, Repr, Inhabited

inductive BreakpointKind where
  | instruction | data
  deriving DecidableEq, Repr, Inhabited

/-- A breakpoint setting (R37c, R144). -/
structure Breakpoint where
  kind : BreakpointKind
  addr : Nat
  deriving DecidableEq, Repr, Inhabited

/-- What taking an exception records: vector, error code where one is pushed, saved program counter (R112, R113). -/
structure ExcRecord where
  vector : Nat
  code : Option Nat
  savedPc : Word
  deriving DecidableEq, Repr, Inhabited

/-- Everything a processor has a copy of (R10, R139). -/
structure Proc where
  /-- The eight general registers (R11). -/
  x : Regs
  /-- Bits 63:32 of them where the implementation has such bits (R12). -/
  upper : Regs
  /-- The eight further registers of such an implementation (R12). -/
  further : Vector Quad 8
  /-- The program counter: the offset within the code segment (R13). -/
  pc : Word
  eflags : Eflags
  /-- The Global Interrupt Flag (R15). -/
  gif : Bool
  /-- Protected mode on, paging on (R20). -/
  pe : Bool
  pg : Bool
  segs : Segs
  /-- The base register of the GDT, an opaque value (R17). -/
  gdtr : Quad
  /-- `CR3`, an opaque value (R21). -/
  cr3 : Quad
  /-- The in-processor copy of the PDPEs, where there is one (R21, R37a, R75). -/
  pdpeCopy : Option (List Quad)
  /-- The top level of the paging mode is a set of PDPEs: the mode R73 speaks of. -/
  pdpePaging : Bool
  ctx : Context
  /-- Software here runs with the privilege `SKINIT` needs (D7; the one bit of privilege the model has: log 29). -/
  privileged : Bool
  msrs : Msrs
  /-- The x87 and SSE control registers as one opaque value (R28). -/
  fpctl : Quad
  /-- The held events (R30). -/
  pending : Pending
  run : RunState
  /-- The local APIC busy indication (R36, R132). -/
  apicBusy : Bool
  /-- The model's own: cycles waited since the busy indication last cleared (R166); `none`: it never did, so there is nothing to
  wait for (log 13). -/
  sinceClear : Option Nat
  /-- Breakpoint settings (R37c). -/
  breakpoints : List Breakpoint
  /-- What the exceptions taken here and not returned from saved, the latest first (R112, R113; log 10). -/
  excs : List ExcRecord
  /-- The platform input `A20M` of this processor (R5, R27). -/
  a20m : Bool
  deriving DecidableEq, Repr, Inhabited

/-! ### Shared parts -/

/-- Physical memory: the bytes that differ from what an unlisted address reads as, by strictly rising address (R32, R40). -/
abbrev Memory := List Host.Cell

/-- The device-protection state of a memory controller (R33). -/
structure MemCtl where
  en : Bool
  base : Word
  deriving DecidableEq, Repr, Inhabited

/-- The trusted platform module as far as the processor affects it (R35). -/
structure Tpm where
  rx : List Byte
  done : Bool
  okSoFar : Bool
  validSl : Bool
  deriving DecidableEq, Repr, Inhabited

/-- An INIT IPI issued and not yet accepted (R42d, R132): on its way, or held at its target (`held`), which has not taken it yet
(R118, R121; log 30). -/
structure Ipi where
  sender : ProcId
  target : ProcId
  held : Bool
  deriving DecidableEq, Repr, Inhabited

/-- The model's own record of the last device access (R52): the bytes a read returned, and whether the access was refused. DESIGN
CHOICE (log 31): what a device sees of a refusal, of a read beyond its free bytes (D22) or of a write, an error or nothing, is not
in the source; `refused` says only what the hardware did, and no step reads the record. -/
structure DeviceView where
  bytes : List Byte
  refused : Bool
  deriving DecidableEq, Repr, Inhabited

/-- The step of `SKINIT` still to come, with what the earlier steps computed (R84, R87); `kept`: whether the driver had kept the
delay of R166 when the instruction began. -/
inductive SkinitPhase where
  | step2 (kept : Bool)
  | step3 (slb : Word) (kept : Bool)
  | step4 (slb : Word) (hsOk : Bool)
  | step5 (slb : Word) (hsOk : Bool)
  | step6 (slb : Word)
  | step7 (slb : Word)
  | step8 (slb : Word)
  deriving DecidableEq, Repr, Inhabited

/-- How a data access names memory: by physical address (R8; what a guest under nested paging treats as one, R41), or by an
offset through a segment, `DS` unless a segment override prefix names another (R16, R43, R69). -/
inductive DataRef where
  | phys (a : Nat)
  | seg (override : Option SegReg) (off : Word)
  deriving DecidableEq, Repr, Inhabited

/-- One move of an agent. The agenda of a state is a list of them: which agent moves when is open (R58, R122, R124, D14, D16),
and every order is some agenda (log 2). -/
inductive Move where
  /-- Processor `q` takes one transition of its own: its next instruction, or its next step of `SKINIT` (R87). -/
  | proc (q : ProcId)
  /-- An event asserts at `q` (R110). -/
  | assertEvent (q : ProcId) (e : Event)
  /-- A held event of `q` is delivered, if it may be (R115, R118, R119, R122). -/
  | deliver (q : ProcId) (e : Event)
  /-- `RESET` at `q` (R126, R151). -/
  | reset (q : ProcId)
  /-- `q` enters the shutdown state (R125). -/
  | shutdown (q : ProcId)
  /-- Software on `q` sets `GIF` (R123). -/
  | setGif (q : ProcId)
  /-- Software on `q` writes `VM_CR` (R142). -/
  | writeVmcr (q : ProcId) (v : Quad)
  /-- Software on `q` clears `SL_DEV_EN` of memory controller `m` (R141). -/
  | clearSlDevEn (q : ProcId) (m : Nat)
  /-- Software on `q` stores the `n`-byte value `v`: `MemWrite` (R8, R43, R45). -/
  | memWrite (q : ProcId) (r : DataRef) (n v : Nat)
  /-- Software on `q` reads `n` bytes: `MemRead` (R8, R43, R45, R69). -/
  | memRead (q : ProcId) (r : DataRef) (n : Nat)
  /-- Software on `q` loads a segment register (R17, R159). -/
  | loadSeg (q : ProcId) (r : SegReg) (sel : Half)
  /-- Software on `q` points the processor at a GDT (R159). -/
  | loadGdtr (q : ProcId) (v : Quad)
  /-- Software on `q` changes `PE`, `PG` and whether the paging mode's top level is a set of PDPEs (R131b). -/
  | setMode (q : ProcId) (pe pg pdpePaging : Bool)
  /-- Software on `q` comes to run with or without the privilege `SKINIT` needs (D7; log 29). -/
  | setPrivilege (q : ProcId) (privileged : Bool)
  /-- Software on `q` writes a general register, as step 3 of R172 does EAX (log 25). -/
  | writeGpr (q : ProcId) (r : Gpr) (v : Word)
  /-- Software on `q` writes `EFLAGS.IF` and `EFLAGS.TF` (R14, R173; log 25). -/
  | writeFlags (q : ProcId) (intr trap : Bool)
  /-- Software on `q` writes `EFER` (R131b). -/
  | writeEfer (q : ProcId) (v : Nat)
  /-- Software on `q` writes `CR3` (R73, R74). -/
  | writeCr3 (q : ProcId) (v : Quad)
  /-- An access of `q` whose table walk goes through PDPE `i` (R73 to R75). -/
  | walkPdpe (q : ProcId) (i : Fin 4)
  /-- Software on `q` sets its breakpoints (R144, R173); single-step is re-armed by `writeFlags`. -/
  | setBreakpoints (q : ProcId) (bps : List Breakpoint)
  /-- Software on `q` returns from the handler of its last exception (R127). -/
  | returnExc (q : ProcId)
  /-- The driver on `q` waits `n` processor cycles (R166). -/
  | wait (q : ProcId) (n : Nat)
  /-- Software on `q` issues an INIT IPI (R132). -/
  | sendInitIpi (q : ProcId) (targets : List ProcId)
  /-- The `k`-th INIT IPI in flight is accepted at its target (R132). -/
  | acceptInitIpi (k : Nat)
  /-- A Startup IPI reaches `q` (R134 to R137); who sent it is not kept (log 30). -/
  | startupIpi (q : ProcId) (v : Byte)
  /-- The platform drives `q`'s input `A20M` (R5; at any moment: log 18). -/
  | driveA20m (q : ProcId) (level : Bool)
  /-- A device reads `n` bytes at `a` through memory controller `m` (R52). -/
  | devRead (m : Nat) (a : Nat) (n : Nat)
  /-- A device writes the `n`-byte value `v` at `a` through memory controller `m` (R52). -/
  | devWrite (m : Nat) (a n v : Nat)
  deriving DecidableEq, Repr, Inhabited

/-! ### The parameters of R5 that are plain data -/

/-- The implementation parameters of R5 that are plain data (those that are functions are opaque constants of Config.lean).
A state carries them unchanged, so a statement over all states is one for all their values (log 1). -/
structure Params where
  /-- `NP_SUPPORTED`. -/
  npSupported : Bool
  /-- `CPU_SIGNATURE`. -/
  cpuSignature : Word
  /-- `DEBUG_FEATURES`, an opaque set, its members by number. -/
  debugFeatures : List Nat
  /-- `SKINIT_SENSE_DELAY`, at most 1000 processor cycles. -/
  senseDelay : Fin 1001
  /-- `PA_WIDTH - 32`: the width is at least 32. -/
  paExtra : Nat
  /-- The width of `EFER` (R23). -/
  eferWidth : Nat
  /-- `VM_CR_ADDR`, and the bit positions of the three flags. -/
  vmCrAddr : Nat
  dpdBit : Fin 64
  rInitBit : Fin 64
  disA20mBit : Fin 64
  /-- `NP_FN`, `NP_REG`, `NP_BIT`. -/
  npFn : Word
  npReg : CpuidReg
  npBit : Fin 32
  /-- `MEMCTL` at the BSP, and at each AP in order. -/
  bspCtl : Nat
  apCtls : List Nat
  /-- `RESET_STATE`. -/
  resetProc : Proc
  deriving DecidableEq, Repr, Inhabited

/-- The width of a physical address (R5, R40). -/
def Params.paWidth (c : Params) : Nat := 32 + c.paExtra

/-- The number of physical addresses. -/
def Params.paSpace (c : Params) : Nat := 2 ^ c.paWidth

/-- `MEMCTL`: the memory controller of a processor (R33); one that no list entry gives has the BSP's. -/
def Params.memCtl (c : Params) : ProcId → Nat
  | .bsp => c.bspCtl
  | .ap i => c.apCtls.getD i c.bspCtl

end Sys2Proof.Machine
end

