-- ==== Sys2Proof/Config.lean ====
section
/-! DEFINITION. What an implementation fixes and what the spec leaves free: opaque constants without a body, so no proof can
see a value and every statement holds for every value.

The functions among the parameters of R5 stand here; a free value (`draw`) is one of the `free…` constants applied to the
state's draw counter (log 7). -/

namespace Sys2Proof

open Machine (Regs Eflags Seg SegAttr Msrs MemCtl Proc ExcRecord Event Breakpoint Context)

/-! ### `INIT_STATE` (R5, R88, R152) -/

/-- The parts of a processor that INIT re-initialises, with the values it gives them. What INIT leaves alone (R152 and D6:
`GIF`, `VM_CR`, `pending`, the x87 and SSE control registers) is no part of it, nor are the breakpoints and `TF`, of which R173
says that those set before are gone. Of the data segments only the selectors are open: R152a says they are 16-bit real-mode
segments. Of the other MSRs only those of `Config.initMsrs` are changed (R152c). -/
structure InitImage where
  x : Regs
  upper : Regs
  further : Vector Quad 8
  pc : Word
  eflags : Eflags
  pe : Bool
  pg : Bool
  cs : Seg
  ss : Seg
  dsSel : Half
  esSel : Half
  fsSel : Half
  gsSel : Half
  gdtr : Quad
  cr3 : Quad
  pdpeCopy : Option (List Quad)
  pdpePaging : Bool
  ctx : Context
  privileged : Bool
  efer : Nat
  otherMsrs : List (Nat × Quad)
  apicBusy : Bool
  deriving DecidableEq, Repr, Inhabited

/-- `INIT_STATE`. -/
opaque Config.initImage : Proc → InitImage

/-- The numbers of the MSRs that INIT changes: finitely many, so that most MSRs are left as they were (R152c, D6). -/
opaque Config.initMsrs : List Nat

/-! ### `SKINIT_MSR_EFFECT`, `TPM_VERDICT` (R5, R93, R101) -/

/-- `SKINIT_MSR_EFFECT`: the MSRs other than `EFER` and `VM_CR` after `SKINIT`, from the whole file before it (R93). -/
opaque Config.skinitMsrEffect : Msrs → List (Nat × Quad)

/-- Whether the TPM, with no failure along the way, finds the received image valid. -/
opaque Config.tpmAccepts : List Byte → Bool

/-- `TPM_VERDICT`: false after any failure, the one property the source fixes (R101). -/
def Config.tpmVerdict (ok : Bool) (rx : List Byte) : Bool := ok && Config.tpmAccepts rx

/-! ### `EXC_DELIVER`, `EVENT_DELIVER` (R5, R113, R119) -/

/-- What delivery of an exception or event makes of a processor, and the bytes it pushes. `GIF`, `VM_CR`, the x87 and SSE
control registers and `pending` are no part of it: R15, R24, R28 and R30 list all that writes them (log 10). `shutdown` is
the triple fault of R125. -/
structure DeliverImage where
  x : Regs
  upper : Regs
  further : Vector Quad 8
  pc : Word
  eflags : Eflags
  pe : Bool
  pg : Bool
  segs : Machine.Segs
  gdtr : Quad
  cr3 : Quad
  pdpeCopy : Option (List Quad)
  pdpePaging : Bool
  ctx : Context
  privileged : Bool
  efer : Nat
  otherMsrs : List (Nat × Quad)
  apicBusy : Bool
  breakpoints : List Breakpoint
  shutdown : Bool
  pushed : List Host.Cell
  deriving DecidableEq, Repr, Inhabited

/-- `EXC_DELIVER`. -/
opaque Config.excDeliver : Proc → Machine.Memory → ExcRecord → DeliverImage

/-- `EVENT_DELIVER`. -/
opaque Config.eventDeliver : Proc → Machine.Memory → Event → DeliverImage

/-- What a return from a handler restores besides the program counter: not in the source (R127). -/
opaque Config.excReturn : Proc → Machine.Memory → ExcRecord → DeliverImage

/-! ### Debug traps (R14, R86, R144): that there are such traps is in the source, what they record is not (log 15). Whatever these
constants record is raised as `ExcRecord.notSx` of it: no exception but a redirected INIT has the vector of `#SX` (R111). -/

opaque Config.instructionTrap : Proc → ExcRecord
opaque Config.dataTrap : Proc → ExcRecord
opaque Config.traceTrap : Proc → ExcRecord

/-! ### Formats and tables that are not in the source (R4, R17, R21, R41, N22; log 14, log 16, log 18) -/

/-- The base, limit and attributes that loading a selector in protected mode takes from its entry of the GDT at this base
register (R17); `none` where the entry is not an appropriate one (R159). DESIGN CHOICE (log 14): the same for every segment register
loaded, for what makes an entry appropriate is not in the source. -/
opaque Config.gdtEntry : Quad → Machine.Memory → Half → Option (Word × Word × SegAttr)

/-- A processor's own translation with paging on: the address it gives a linear address, from the PDPE its walk went through where
the paging mode has PDPEs (R4, R57). DESIGN CHOICE (log 18): it is total, no page fault is modelled, and it gives an address
only: no translation marks its tables in memory. -/
opaque Config.pageMap : Proc → Machine.Memory → Option Quad → Word → Nat

/-- The nested page mappings: the physical address of a guest physical address (R41, R76). DESIGN CHOICE (log 18): total, no nested
fault is modelled, and it writes no memory. -/
opaque Config.nestedMap : Proc → Machine.Memory → Nat → Nat

/-- Which of the four PDPEs the walk of a linear address goes through (R73). DESIGN CHOICE (log 16): the address alone decides it, for
R4 and N22 give no walk. -/
opaque Config.pdpeIndex : Word → Fin 4

/-- Where the `i`-th PDPE of a `CR3` value lies. DESIGN CHOICE (log 16): the value and the index alone decide it (R4, N22). -/
opaque Config.pdpeAddr : Quad → Fin 4 → Nat

/-- Whether a PDPE holds an illegal bit combination (R74, N22). -/
opaque Config.pdpeIllegal : Quad → Bool

/-- What signals an illegal PDPE (R74, N22). -/
opaque Config.pdpeSignal : Proc → Quad → ExcRecord

/-! ### Free values (`draw`), each indexed by the state's draw counter -/

/-- Eight words: bits 63:32 of the general registers (R12). -/
opaque Config.freeRegs : Nat → Regs

/-- The further registers (R12). -/
opaque Config.freeFurther : Nat → Vector Quad 8

/-- The four words `CPUID` returns (R79), lane 0 to 3. -/
opaque Config.freeWord : Nat → Fin 4 → Word

/-- A free Boolean: `hs_ok` without the delay (R97). -/
opaque Config.freeBool : Nat → Bool

/-- Whether a walk through PDPE `i` uses the entry in memory, not the copy, where there is one (R75, D26). -/
opaque Config.freePdpe : Nat → Fin 4 → Bool

/-- The bytes a refused device read returns (R52). -/
opaque Config.freeByte : Nat → Nat → Byte

/-- `SL_DEV_EN` and the protected 64-Kbyte block after `RESET`, from what the controller held before (R151). -/
opaque Config.resetSlDev : Nat → MemCtl → Bool × Half

/-! ### The parameter values that `State.reset` carries: all opaque (R5; log 3) -/

opaque Config.npSupported : Bool
opaque Config.cpuSignature : Word
opaque Config.debugFeatures : List Nat
opaque Config.senseDelay : Fin 1001
opaque Config.paExtra : Nat
opaque Config.eferWidth : Nat
opaque Config.vmCrAddr : Nat
opaque Config.dpdBit : Fin 64
opaque Config.rInitBit : Fin 64
opaque Config.disA20mBit : Fin 64
opaque Config.npFn : Word
opaque Config.npReg : Machine.CpuidReg
opaque Config.npBit : Fin 32
opaque Config.bspCtl : Nat
opaque Config.apCtls : List Nat

end Sys2Proof
end

