-- ==== Sys2Proof/WellFormed.lean ====
section
/-! DEFINITION. What a term must satisfy to denote something of the hardware.

The two instructions have implicit operands (R66, R68), so every instruction is well formed; the checks that can fail are those of
the parameters, of a held set and of a `SKINIT` in progress. Each is a Bool; Tests/Slice0.lean shows a term each refuses. -/

namespace Sys2Proof

/-- Both rows of the opcode table have implicit operands only (R66, R68): nothing to check. -/
def Instr.wf : Instr → Bool
  | .skinit => true
  | .cpuid => true

namespace Machine

/-- Strictly rising: a set of numbers in its one canonical form. -/
def ascending : List Nat → Bool
  | [] => true
  | a :: l => (match l with
      | [] => true
      | b :: _ => decide (a < b)) && ascending l

/-- A held set is in its canonical form (R30). -/
def Pending.wf (h : Pending) : Bool := ascending h.device

/-- The three `VM_CR` flags stand at three different bits (R24). -/
def Params.bitsDistinct (c : Params) : Bool :=
  decide (c.dpdBit ≠ c.rInitBit) && decide (c.dpdBit ≠ c.disA20mBit) && decide (c.rInitBit ≠ c.disA20mBit)

/-- `MEMCTL` names, for the BSP and for each of the `nAps` Application Processors, one of the `nCtls` controllers (R5, R33). -/
def Params.memCtlOk (c : Params) (nAps nCtls : Nat) : Bool :=
  decide (c.apCtls.length = nAps) && decide (c.bspCtl < nCtls) && c.apCtls.all fun m => decide (m < nCtls)

/-- A 64-Kbyte aligned address (R46). -/
def alignedSlb (a : Word) : Bool := decide (a &&& 0xFFFF#32 = 0#32)

/-- A controller protects a 64-Kbyte aligned block (R33). -/
def MemCtl.wf (m : MemCtl) : Bool := alignedSlb m.base

/-- A `SKINIT` in progress works on a 64-Kbyte aligned block (R46, R95). -/
def SkinitPhase.wf : SkinitPhase → Bool
  | .step2 _ => true
  | .step3 b _ | .step4 b _ | .step5 b _ | .step6 b | .step7 b | .step8 b => alignedSlb b

end Machine

end Sys2Proof
end

