-- ==== Sys2Proof/Decode.lean ====
section
/-! DEFINITION. From bytes to instructions and back.

The source gives no encoding (R65); the byte patterns are those of R67 and R68 (item GK7), as spec/opcode_table.json lists
them. UNVERIFIED: they are general knowledge of the AMD64 family (log 9). -/

namespace Sys2Proof

/-- Why bytes are no instruction of the excerpt (R65): each by its own name. -/
inductive DecodeError where
  /-- The bytes end inside an instruction. -/
  | truncated
  /-- A second SS segment-override prefix 36h: R69 speaks of one byte placed before an instruction (log 9). -/
  | segmentOverride
  /-- A first byte that opens no row of the table. -/
  | firstByte (b : Byte)
  /-- `0F` and a byte that opens no row of the table. -/
  | secondByte (b : Byte)
  /-- `0F 01` and a byte other than `SKINIT`'s. -/
  | thirdByte (b : Byte)
  deriving DecidableEq, Repr, Inhabited

/-- The SS segment-override prefix (R69, item GK7). -/
def ssOverride : Byte := 0x36#8

/-- The bytes of an instruction without a prefix, lowest address first (R67, R68). -/
def encode : Instr → List Byte
  | .skinit => [0x0F#8, 0x01#8, 0xDE#8]
  | .cpuid => [0x0F#8, 0xA2#8]

/-- The longest instruction, in bytes: `SKINIT` after the prefix. -/
def maxInstrBytes : Nat := 4

/-- How many bytes an instruction takes, a prefix before it not counted. -/
def Instr.size (i : Instr) : Nat := (encode i).length

/-- How many prefix bytes stand at the head of a byte stream, before an instruction (R69). -/
def prefixBytes : List Byte → Nat
  | [] => 0
  | b :: _ => if b = ssOverride then 1 else 0

/-- The third byte of `0F 01 …`. -/
def decodeGroup01 : List Byte → Except DecodeError (Instr × List Byte)
  | [] => .error .truncated
  | b :: rest => if b = 0xDE#8 then .ok (.skinit, rest) else .error (.thirdByte b)

/-- The bytes after `0F`. -/
def decodeTwoByte : List Byte → Except DecodeError (Instr × List Byte)
  | [] => .error .truncated
  | b :: rest =>
    if b = 0xA2#8 then .ok (.cpuid, rest)
    else if b = 0x01#8 then decodeGroup01 rest
    else .error (.secondByte b)

/-- The opcode, after the prefix where there is one. -/
def decodeOpcode : List Byte → Except DecodeError (Instr × List Byte)
  | [] => .error .truncated
  | b :: rest =>
    if b = 0x0F#8 then decodeTwoByte rest
    else if b = ssOverride then .error .segmentOverride
    else .error (.firstByte b)

/-- The instruction at the head of a byte stream, and the rest of the stream. One SS override prefix may stand before it: it
redirects a data access of that instruction (R69), and neither instruction of the table makes one (DEDUCED, log 9). -/
def decode : List Byte → Except DecodeError (Instr × List Byte)
  | [] => .error .truncated
  | b :: rest => if b = ssOverride then decodeOpcode rest else decodeOpcode (b :: rest)

/-- The `n` bytes of a number, most significant first. -/
def bigEndianBytes : Nat → Nat → List Byte
  | 0, _ => []
  | n + 1, w => BitVec.ofNat 8 (w / 256 ^ n) :: bigEndianBytes n w

/-- An instruction's bytes as memory holds them, from the number spec/opcode_table.json gives for them, with zero bytes above
up to the longest instruction. The table writes the byte at the lowest address as the number's MOST significant one
(`"match": "0x0F01DE"`, `"bytes": ["0F", "01", "DE"]`; log 9). -/
def tableBytes (nbits w : Nat) : List Byte :=
  bigEndianBytes (nbits / 8) w ++ List.replicate (maxInstrBytes - nbits / 8) 0#8

/-- The instruction the decoder reads from a row of the opcode table. -/
def decodeTableWord (nbits w : Nat) : Option Instr :=
  match decode (tableBytes nbits w) with
  | .ok (i, _) => some i
  | .error _ => none

end Sys2Proof
end

