-- ==== Sys2Proof/Machine/State.lean ====
section
/-! DEFINITION. The state of the machine, the ways a step can stop, and the state after reset. -/

namespace Sys2Proof.Machine

/-- The whole machine. INVENTORY.md lists each field with the rule that names it. -/
structure State where
  /-- The parameters of R5; no step changes them (log 1). -/
  params : Params
  /-- The Bootstrap Processor and the Application Processors (R10). -/
  bsp : Proc
  aps : List Proc
  /-- The processor that executes next: the `p` of R7. -/
  cur : ProcId
  /-- Physical memory (R32, R40). -/
  mem : Memory
  /-- The memory controllers, by number (R33). -/
  mcs : List MemCtl
  /-- The platform's record that the BSP has executed `SKINIT` (R34). -/
  skinitLatch : Bool
  /-- The step of `SKINIT` the BSP has still to take; `none` outside `SKINIT` (R87; log 2). -/
  skinit : Option SkinitPhase
  tpm : Tpm
  /-- INIT IPIs in flight (R132). -/
  ipis : List Ipi
  /-- The record of the last device access (R52; log 31). -/
  device : DeviceView
  /-- The value software's last `MemRead` returned (R8; log 31). -/
  lastRead : Nat
  /-- The moves of the agents, in order (log 2). -/
  agenda : List Move
  /-- How many free values were drawn (log 7). -/
  draws : Nat
  deriving DecidableEq, Repr, Inhabited

/-- Why the machine stops with a fault. No rule of the spec stops the machine so: each guards a situation the spec says does
not exist. -/
inductive Fault where
  /-- An access of a processor's or a device's bytes outside the `2^PA_WIDTH` physical addresses (R40). Raised by the moves
  `memWrite`, `memRead`, `devRead`, `devWrite`; DESIGN CHOICE (log 35): also by an access that begins inside them and ends beyond, for
  the spec leaves wrap-around open. Safe: the machine stops where the address does not exist. -/
  | noSuchAddress
  /-- A processor id that names no processor (R10). Raised by every transition and move of that processor. Safe: no
  hardware has it, and `State.Inv` rules it out for the executing processor. -/
  | noSuchProcessor
  /-- A memory-controller number that names no controller (R33). Raised by `devRead`, `devWrite`, `clearSlDevEn`. Safe. -/
  | noSuchController
  deriving DecidableEq, Repr, Inhabited

/-- Why the machine refuses: the `refuse` of R8, a situation the spec gives no meaning. Each is safe, for no claim passes it. -/
inductive Refusal where
  /-- An instruction without a meaning: raised by an arm of `exec`, none today. Safe. -/
  | notModelled (mnemonic : String)
  /-- `SKINIT` on an Application Processor (R82, D7). Raised by `execSkinit`. Safe. -/
  | skinitOnAp
  /-- `SKINIT` inside a guest (R82, D7). Raised by `execSkinit`. Safe. -/
  | skinitInGuest
  /-- `SKINIT` in real mode (R82, D7). Raised by `execSkinit`. Safe. -/
  | skinitInRealMode
  /-- `SKINIT` without sufficient privilege (R82, D7). Raised by `execSkinit`. Safe. -/
  | skinitUnprivileged
  /-- Bytes that are no instruction of the table (R65). Raised by the fetch. Safe. -/
  | outsideExcerpt (why : DecodeError)
  /-- The next instruction lies beyond the limit of `CS`; what exception that raises is outside the excerpt (R57). Raised by
  the fetch. Safe. -/
  | fetchBeyondLimit
  /-- A data access through a segment beyond its limit, or of a kind its attributes do not allow; what exception that raises is
  outside the excerpt (R57). Also every access through an expand-down segment: which offsets such a segment allows is not in the
  spec (DESIGN CHOICE, log 32). Raised by the moves `memWrite` and `memRead`. Safe. -/
  | segmentViolation
  /-- An INIT due while a guest runs (R130; one that only asserts there is held: log 34). Raised by the moves `deliver` and
  `acceptInitIpi`. Safe. -/
  | initInGuest
  /-- Nested paging on an implementation without it (R78). Raised by an instruction, a software action or a delivery on a
  processor whose guest uses nested paging. Safe. -/
  | nestedPagingUnsupported
  /-- A protected-mode load of a segment register from a GDT entry that is not an appropriate one: the duty of R159 broken, for
  which the source gives no behaviour (R9). Raised by the move `loadSeg`. Safe. -/
  | inappropriateGdtEntry
  /-- Paging turned on without protected mode, which paging needs (R20, item GK6); the spec says nothing of it. Raised by the move
  `setMode`. Safe. -/
  | pagingWithoutProtection
  deriving DecidableEq, Repr, Inhabited

/-- How a step ends. -/
abbrev Result := Host.Outcome State Fault Refusal

/-! ### Segments the spec describes -/

/-- The attributes of a 16-bit real-mode data segment (R18, item GK12). -/
def SegAttr.realData : SegAttr :=
  { code := false, readable := true, writable := true, expandUp := true, wide := false }

/-- The attributes of a 16-bit real-mode code segment (R18, items GK9, GK12). DESIGN CHOICE (log 17): not writable; the spec
says only that such a segment is readable, so a store through it is refused. -/
def SegAttr.realCode : SegAttr :=
  { code := true, readable := true, writable := false, expandUp := true, wide := false }

/-- A 16-bit real-mode data segment: base 16 times the selector, limit `FFFFh` (R18, GK12: PRESUMED, log 17). -/
def Seg.realMode (sel : Half) : Seg :=
  { sel := sel, base := sel.setWidth 32 <<< 4, limit := 0xFFFF#32, attr := .realData }

/-! ### Reset -/

def Regs.zero : Regs :=
  { eax := 0#32, ecx := 0#32, edx := 0#32, ebx := 0#32, esp := 0#32, ebp := 0#32, esi := 0#32, edi := 0#32 }

def Pending.empty : Pending :=
  { device := [], nmi := false, smi := false, init := none }

/-- An `EFER` of this width with every bit 0 (R23, R92). -/
def Efer.clear (width : Nat) : Efer := { width := width, bits := 0#width }

/-- `EFER` with another value, of the same width (R23). -/
def Efer.set (e : Efer) (v : Nat) : Efer := { width := e.width, bits := BitVec.ofNat e.width v }

def VmCr.clear : VmCr := { dpd := false, rInit := false, disA20m := false, other := 0#64 }

/-- The `RESET_STATE` that `State.reset` carries as its parameter: PRESUMED, the AMD64 family's values after RESET as item
GK9 recalls them (log 4), and for what GK9 does not give a DESIGN CHOICE (log 5). -/
def Proc.familyReset (signature : Word) (eferWidth : Nat) : Proc :=
  { x := { Regs.zero with edx := signature }
    upper := .zero
    further := Vector.replicate 8 0#64
    pc := 0xFFF0#32
    eflags := { intr := false, trap := false, other := 2#32 }
    gif := true
    pe := false
    pg := false
    segs :=
      { cs := { sel := 0xF000#16, base := 0xFFFF0000#32, limit := 0xFFFF#32, attr := .realCode }
        ss := .realMode 0#16
        ds := .realMode 0#16
        es := .realMode 0#16
        fs := .realMode 0#16
        gs := .realMode 0#16 }
    gdtr := 0#64
    cr3 := 0#64
    pdpeCopy := none
    pdpePaging := false
    ctx := .host
    privileged := true
    msrs := { efer := .clear eferWidth, vmcr := .clear, other := [] }
    fpctl := 0x1F80#64
    pending := .empty
    run := .initHalted
    apicBusy := false
    sinceClear := none
    breakpoints := []
    excs := []
    a20m := false }

/-- The parameters `State.reset` carries (log 3): every one opaque but `RESET_STATE`, whose values log 4 and log 5 name. -/
def Params.ofReset : Params :=
  { npSupported := Config.npSupported
    cpuSignature := Config.cpuSignature
    debugFeatures := Config.debugFeatures
    senseDelay := Config.senseDelay
    paExtra := Config.paExtra
    eferWidth := Config.eferWidth
    vmCrAddr := Config.vmCrAddr
    dpdBit := Config.dpdBit
    rInitBit := Config.rInitBit
    disA20mBit := Config.disA20mBit
    npFn := Config.npFn
    npReg := Config.npReg
    npBit := Config.npBit
    bspCtl := Config.bspCtl
    apCtls := Config.apCtls
    resetProc := .familyReset Config.cpuSignature Config.eferWidth }

/-- A processor right after RESET: `RESET_STATE`, running on the BSP (R151). -/
def Params.procAtReset (c : Params) : ProcId → Proc
  | .bsp => { c.resetProc with run := .running }
  | .ap _ => c.resetProc

/-- The machine right after RESET, for any parameters (R151): every processor in `RESET_STATE`, the BSP running, the latch
clear; one memory controller for each number up to the greatest that `MEMCTL` gives. -/
def State.resetOf (c : Params) : State :=
  { params := c
    bsp := c.procAtReset .bsp
    aps := c.apCtls.map fun _ => c.resetProc
    cur := .bsp
    mem := []
    mcs := List.replicate (c.apCtls.foldl max c.bspCtl + 1) { en := false, base := 0#32 }
    skinitLatch := false
    skinit := none
    tpm := { rx := [], done := false, okSoFar := true, validSl := false }
    ipis := []
    device := { bytes := [], refused := false }
    lastRead := 0
    agenda := []
    draws := 0 }

/-- The machine right after reset. -/
def State.reset : State := State.resetOf .ofReset

end Sys2Proof.Machine
end

