-- ==== Sys2Proof/Machine/Operands.lean ====
section
/-! DEFINITION. Reading and writing the named parts of a processor, and the forms an operand or an address can take. -/

namespace Sys2Proof.Machine

/-! ### General registers (R11) -/

/-- `x[r]`. -/
def Regs.get (x : Regs) : Gpr → Word
  | .eax => x.eax
  | .ecx => x.ecx
  | .edx => x.edx
  | .ebx => x.ebx
  | .esp => x.esp
  | .ebp => x.ebp
  | .esi => x.esi
  | .edi => x.edi

/-- `x[r] <- v`. No register discards a write (R11). -/
def Regs.set (x : Regs) (r : Gpr) (v : Word) : Regs :=
  match r with
  | .eax => { x with eax := v }
  | .ecx => { x with ecx := v }
  | .edx => { x with edx := v }
  | .ebx => { x with ebx := v }
  | .esp => { x with esp := v }
  | .ebp => { x with ebp := v }
  | .esi => { x with esi := v }
  | .edi => { x with edi := v }

/-- The general register a `CPUID` output register is. -/
def CpuidReg.gpr : CpuidReg → Gpr
  | .eax => .eax
  | .ebx => .ebx
  | .ecx => .ecx
  | .edx => .edx

/-- `w` with its bit `i` equal to `b`. -/
def setBit (w : Word) (i : Nat) (b : Bool) : Word :=
  if b then w ||| BitVec.twoPow 32 i else w &&& ~~~ BitVec.twoPow 32 i

/-! ### Segment registers (R16) -/

def Segs.get (g : Segs) : SegReg → Seg
  | .cs => g.cs
  | .ss => g.ss
  | .ds => g.ds
  | .es => g.es
  | .fs => g.fs
  | .gs => g.gs

def Segs.set (g : Segs) (r : SegReg) (v : Seg) : Segs :=
  match r with
  | .cs => { g with cs := v }
  | .ss => { g with ss := v }
  | .ds => { g with ds := v }
  | .es => { g with es := v }
  | .fs => { g with fs := v }
  | .gs => { g with gs := v }

/-- `CS` after `SKINIT`: code, executable and readable, not writable, flat, 32-bit (R89, R18, R19). -/
def Seg.flatCode : Seg :=
  { sel := 0x0008#16, base := 0#32, limit := 0xFFFFFFFF#32
    attr := { code := true, readable := true, writable := false, expandUp := true, wide := true } }

/-- `SS` after `SKINIT`: data, readable and writable, expand-up, flat, 32-bit (R89, R18, R19). -/
def Seg.flatStack : Seg :=
  { sel := 0x0010#16, base := 0#32, limit := 0xFFFFFFFF#32
    attr := { code := false, readable := true, writable := true, expandUp := true, wide := true } }

/-- `start_phys` of a Startup IPI: bits 19:12 are the vector (R135, R72b). -/
def startPhys (v : Byte) : Word := v.setWidth 32 <<< 12

/-- `CS` after a Startup IPI: a real-mode code segment that addresses the start page (R135, R39); its selector, `vector *
100h`, is item GK12 (log 17). -/
def Seg.startPage (v : Byte) : Seg :=
  { sel := v.setWidth 16 <<< 8, base := startPhys v, limit := 0xFFFF#32, attr := .realCode }

/-! ### Offsets and linear addresses (R13, R16, R43, R44) -/

/-- An offset as the mode reads it: 16 bits in real mode (R44), 32 bits in protected mode. DESIGN CHOICE (log 19): the mode alone says
so; the segment's default size, `attr.wide`, is not read, for the spec does not say what it does to an offset where it disagrees. -/
def Proc.offset (p : Proc) (off : Word) : Word := if p.pe then off else off &&& 0xFFFF#32

/-- The address of an offset used through a segment register: base plus offset (R16, R43, R44). DESIGN CHOICE (log 19): a base has 32
bits and the sum is taken modulo `2^32`, in real mode too; the spec leaves wrap-around at the top open (R13, N12). -/
def Proc.linear (p : Proc) (r : SegReg) (off : Word) : Word := (p.segs.get r).base + p.offset off

/-- An offset from 0 up to the limit is valid (R16, R18). -/
def Seg.within (g : Seg) (off : Word) : Bool := decide (off.toNat ≤ g.limit.toNat)

/-- The segment a data access goes through: `DS`, or the one a segment override prefix names (R16, R69). -/
def dataSegment (override : Option SegReg) : SegReg := override.getD .ds

/-- The offsets of `n` bytes from `off` up. DESIGN CHOICE (log 19): after `FFFF_FFFFh` they go on at 0, for the spec leaves wrap-around
open (R13, N12). -/
def offsets (off : Word) : Nat → List Word
  | 0 => []
  | n + 1 => off :: offsets (off + 1#32) n

/-- The attributes allow a data access of this kind (R16, R18, R57). DESIGN CHOICE (log 32): none through an expand-down segment,
for which the spec does not say which offsets are valid. -/
def SegAttr.allows (a : SegAttr) (store : Bool) : Bool := a.expandUp && if store then a.writable else a.readable

/-! ### Processors by name (R7, R10) -/

/-- The processor of that name, if there is one. -/
def State.proc? (s : State) : ProcId → Option Proc
  | .bsp => some s.bsp
  | .ap i => s.aps[i]?

/-- The state with another processor in that place; unchanged where there is no such place. -/
def State.setProc (s : State) (q : ProcId) (p : Proc) : State :=
  match q with
  | .bsp => { s with bsp := p }
  | .ap i => { s with aps := s.aps.set i p }

/-- Whether `q` is in the middle of `SKINIT` (R85): only the BSP can be (R82). -/
def State.midSkinit (s : State) : ProcId → Bool
  | .bsp => s.skinit.isSome
  | .ap _ => false

/-- Whether a processor is `Running`. -/
def Proc.isRunning (p : Proc) : Bool := decide (p.run = .running)

/-- Whether `q`, in state `p`, is at an instruction boundary with software running: it is `Running` (R126, R133) and not in
the middle of `SKINIT` (R85). -/
def State.atBoundary (s : State) (q : ProcId) (p : Proc) : Bool := p.isRunning && !s.midSkinit q

end Sys2Proof.Machine
end

