-- ==== Sys2Proof/Machine/Flags.lean ====
section
/-! DEFINITION. The flags of the spec and what is computed from them: `VM_CR` as a register, the gates of delivery, the debug
enables. No instruction of the table writes an arithmetic flag (R14, R84, R79). -/

namespace Sys2Proof.Machine

/-! ### `VM_CR` as the register software writes (R24, R142) -/

/-- Bit `i` as a 64-bit mask. -/
def bitMask (i : Fin 64) : Quad := BitVec.twoPow 64 i.val

/-- The mask of the three flags. -/
def Params.vmCrFlagMask (c : Params) : Quad := bitMask c.dpdBit ||| bitMask c.rInitBit ||| bitMask c.disA20mBit

/-- The register's contents read as its fields: the flags at the positions the parameters give, the rest as `other`. -/
def VmCr.ofBits (c : Params) (v : Quad) : VmCr :=
  { dpd := v.getLsbD c.dpdBit.val
    rInit := v.getLsbD c.rInitBit.val
    disA20m := v.getLsbD c.disA20mBit.val
    other := v &&& ~~~ c.vmCrFlagMask }

/-- The fields put together as the register's contents. -/
def VmCr.toBits (c : Params) (r : VmCr) : Quad :=
  r.other
    ||| (if r.dpd then bitMask c.dpdBit else 0#64)
    ||| (if r.rInit then bitMask c.rInitBit else 0#64)
    ||| (if r.disA20m then bitMask c.disA20mBit else 0#64)

/-- The three flags set, the rest kept (R94, R136). -/
def VmCr.secured (r : VmCr) : VmCr := { r with dpd := true, rInit := true, disA20m := true }

/-- What a processor's MSR of that number holds, as far as the spec knows its number (R22, R42a): `VM_CR` at `VM_CR_ADDR`,
the rest of the file by number. -/
def Proc.msrAt (c : Params) (p : Proc) (n : Nat) : Option Quad :=
  if n = c.vmCrAddr then some (p.msrs.vmcr.toBits c) else p.msrs.other.lookup n

/-! ### Held events and their gates (R30, R118, R119) -/

/-- A number put into a strictly rising list. -/
def insertAscending (v : Nat) : List Nat → List Nat
  | [] => [v]
  | a :: l => if v < a then v :: a :: l else if v = a then a :: l else a :: insertAscending v l

/-- A number taken out of a strictly rising list. -/
def removeAscending (v : Nat) : List Nat → List Nat
  | [] => []
  | a :: l => if v = a then l else a :: removeAscending v l

/-- The held INIT came this way. -/
def InitOrigin.cameBy : InitOrigin → InitSource → Bool
  | .signal, .signal => true
  | .signal, .ipi => false
  | .ipi, .signal => false
  | .ipi, .ipi => true
  | .both, _ => true

/-- A way an INIT comes, as the origin of one. -/
def InitSource.origin : InitSource → InitOrigin
  | .signal => .signal
  | .ipi => .ipi

/-- The one held INIT once another asserts: still one INIT (R30), that came both ways where they differ. -/
def InitOrigin.join (o : InitOrigin) (src : InitSource) : InitOrigin := if o.cameBy src then o else .both

/-- `e ∈ pending`; for an INIT: one is held and came this way. -/
def Pending.has (h : Pending) : Event → Bool
  | .device v => h.device.contains v
  | .nmi => h.nmi
  | .smi => h.smi
  | .init src => match h.init with
    | none => false
    | some o => o.cameBy src

/-- `hold(e)` (R8, R30): a set, so holding what is held changes nothing (D14). -/
def Pending.hold (h : Pending) : Event → Pending
  | .device v => { h with device := insertAscending v h.device }
  | .nmi => { h with nmi := true }
  | .smi => { h with smi := true }
  | .init src => match h.init with
    | none => { h with init := some src.origin }
    | some o => { h with init := some (o.join src) }

/-- The set without a delivered event (R30): there is one INIT, whichever way it is taken. -/
def Pending.drop (h : Pending) : Event → Pending
  | .device v => { h with device := removeAscending v h.device }
  | .nmi => { h with nmi := false }
  | .smi => { h with smi := false }
  | .init _ => { h with init := none }

/-- The gate of an event: `GIF` for all (R118), and `EFLAGS.IF` for device interrupts alone (R119). -/
def Proc.gateOpen (p : Proc) : Event → Bool
  | .device _ => p.gif && p.eflags.intr
  | .nmi => p.gif
  | .smi => p.gif
  | .init _ => p.gif

/-- The processor with an event held. -/
def Proc.hold (p : Proc) (e : Event) : Proc := { p with pending := p.pending.hold e }

/-- The processor with an event no longer held. -/
def Proc.drop (p : Proc) (e : Event) : Proc := { p with pending := p.pending.drop e }

/-! ### Debug (R25, R143, R144) -/

/-- `debug_enabled`: the implementation's hardware debug features are active exactly when `DPD` is 0 (R37b, R143). -/
def Proc.debugEnabled (p : Proc) : Bool := !p.msrs.vmcr.dpd

/-- The debug features that are active (R143). -/
def Proc.activeDebugFeatures (c : Params) (p : Proc) : List Nat := if p.debugEnabled then c.debugFeatures else []

/-- Whether an instruction breakpoint stands at the instruction `p` is about to execute (R86). -/
def Proc.hitsInstructionBreakpoint (p : Proc) : Bool :=
  p.breakpoints.any fun b => decide (b.kind = .instruction) && decide (b.addr = (p.linear .cs p.pc).toNat)

/-- Whether a data breakpoint stands at one of these addresses (R86). -/
def Proc.hitsDataBreakpoint (p : Proc) (addrs : List Nat) : Bool :=
  p.breakpoints.any fun b => decide (b.kind = .data) && addrs.contains b.addr

/-! ### The handshake's premises (R97, R166) -/

/-- The driver kept the delay: the APIC is not busy, and either its busy indication never cleared or at least `SKINIT_SENSE_DELAY`
cycles passed since it last did (R166; log 13). -/
def Proc.delayKept (c : Params) (p : Proc) : Bool :=
  !p.apicBusy && match p.sinceClear with
    | none => true
    | some n => decide (c.senseDelay.val ≤ n)

/-- A processor in the APIC INIT state (R31, R36). -/
def Proc.isInitHalted (p : Proc) : Bool := decide (p.run = .initHalted)

/-- Whether the processor runs a guest (R130, R131d). -/
def Context.isGuest : Context → Bool
  | .host => false
  | .guest _ => true

/-- Whether the processor runs a guest that uses nested paging (R73, R78). -/
def Context.isNested : Context → Bool
  | .host => false
  | .guest n => n

/-- Nested paging is used where the implementation has none (R78). -/
def Proc.nestedUnsupported (c : Params) (p : Proc) : Bool := p.ctx.isNested && !c.npSupported

/-- Paging is on in the mode whose top level is a set of PDPEs: the walk of a linear address goes through one (R73). DEDUCED (log
16): with paging off there is no walk, and the mode is not in force. -/
def Proc.walks (p : Proc) : Bool := p.pg && p.pdpePaging

/-- No translation stands between a linear and a physical address: paging off, and no guest under nested paging (R41, R57). -/
def Proc.untranslated (p : Proc) : Bool := !p.pg && !p.ctx.isNested

end Sys2Proof.Machine
end

