-- ==== Sys2Proof/Machine/Ops.lean ====
section
/-! DEFINITION. The shared operations: memory, taking an exception and returning from one, delivery of an event, the TPM,
device protection, INIT, RESET and the Startup IPI. -/

namespace Sys2Proof.Machine

/-! ### Memory (R8, R40, R45) -/

/-- What an address that is not listed reads as: DESIGN CHOICE, zero, since the spec gives memory no contents after RESET
(log 6). -/
def unlistedByte : Byte := 0#8

/-- One byte (R40). -/
def Memory.read : Memory → Nat → Byte
  | [], _ => unlistedByte
  | (k, v) :: m, a => if a = k then v else Memory.read m a

/-- One byte stored, in canonical form: a byte equal to what an unlisted address reads as is not listed. -/
def Memory.write : Memory → Nat → Byte → Memory
  | [], a, b => if b = unlistedByte then [] else [(a, b)]
  | (k, v) :: m, a, b =>
    if a < k then (if b = unlistedByte then (k, v) :: m else (a, b) :: (k, v) :: m)
    else if a = k then (if b = unlistedByte then m else (a, b) :: m)
    else (k, v) :: Memory.write m a b

/-- The canonical form: addresses strictly rising, and no entry equal to what an unlisted address reads as. -/
def Memory.wf (m : Memory) : Bool := ascending (m.map (·.1)) && m.all fun c => decide (c.2 ≠ unlistedByte)

/-- Bytes stored one after the other, each at its address. DESIGN CHOICE (log 35): in the order of the list, lowest first, so where one
store names the same byte twice the last one stays; the spec gives the bytes of a store no order (R58). -/
def Memory.writeCells (m : Memory) : List Host.Cell → Memory
  | [] => m
  | (a, b) :: l => (m.write a b).writeCells l

/-- The `n` bytes from `a` up. -/
def Memory.readBytes (m : Memory) (a n : Nat) : List Byte := (List.range n).map fun i => m.read (a + i)

/-- The cells of bytes laid out from `a` up. -/
def cellsFrom (a : Nat) : List Byte → List Host.Cell
  | [] => []
  | b :: l => (a, b) :: cellsFrom (a + 1) l

/-- The value of bytes, the first the least significant (R45, D1). -/
def leValue : List Byte → Nat
  | [] => 0
  | b :: l => b.toNat + 256 * leValue l

/-- `MemRead(a, n)`: little-endian, of any width (R8, R45). -/
def Memory.memRead (m : Memory) (a n : Nat) : BitVec (8 * n) := BitVec.ofNat (8 * n) (leValue (m.readBytes a n))

/-- A 16-bit word (R45, R48). -/
def Memory.read16 (m : Memory) (a : Nat) : Half := m.memRead a 2

/-- The bytes `MemWrite(a, n, v)` stores, lowest address first: the inverse of `MemRead` (R45). -/
def littleEndianBytes : Nat → Nat → List Byte
  | 0, _ => []
  | n + 1, v => BitVec.ofNat 8 v :: littleEndianBytes n (v / 256)

/-- Every address is a physical one (R40). DESIGN CHOICE (log 35): what is named by physical address does not wrap, so an access that
begins inside the physical addresses and ends beyond them names some that do not exist. -/
def Params.allExist (c : Params) (addrs : List Nat) : Bool := addrs.all fun a => decide (a < c.paSpace)

/-! ### Device protection (R52, R96) -/

/-- The first address beyond the protected region: the region does not wrap (R52, V-E row E11). -/
def MemCtl.top (m : MemCtl) : Nat := m.base.toNat + 0x10000

/-- A device access to the `n` bytes from `a` up is refused: protection is on and some byte lies in the region (R52). -/
def MemCtl.blocks (m : MemCtl) (a n : Nat) : Bool :=
  m.en && decide (0 < n) && decide (a < m.top) && decide (m.base.toNat < a + n)

/-! ### The trusted platform module (R8, R35, R99 to R101) -/

/-- The start of a transfer: nothing received, no failure so far (R84 step 4, R35). -/
def Tpm.start (t : Tpm) : Tpm := { t with rx := [], done := false, okSoFar := true }

/-- `TpmSend(bytes)` (R8, R99). -/
def Tpm.send (t : Tpm) (bs : List Byte) : Tpm := { t with rx := t.rx ++ bs }

/-- `TpmFinish(ok)`: the signal to complete the hash, and the TPM's conclusion (R100, R101). -/
def Tpm.finish (t : Tpm) (ok : Bool) : Tpm :=
  { t with done := true, okSoFar := t.okSoFar && ok, validSl := Config.tpmVerdict (t.okSoFar && ok) t.rx }

/-! ### Taking an exception, returning from one, delivering an event (R113, R119, R127) -/

/-- The APIC's busy indication with another value: where that clears it, the wait of R166 starts (R164, R166; log 13). -/
def Proc.withBusy (p : Proc) (busy : Bool) : Proc :=
  { p with apicBusy := busy, sinceClear := if p.apicBusy && !busy then some 0 else p.sinceClear }

/-- A processor after a delivery gave it this image. What R15, R24, R28 and R30 say is written elsewhere only, it keeps. -/
def Proc.delivered (p : Proc) (d : DeliverImage) : Proc :=
  { p.withBusy d.apicBusy with
    x := d.x, upper := d.upper, further := d.further, pc := d.pc, eflags := d.eflags, pe := d.pe, pg := d.pg
    segs := d.segs, gdtr := d.gdtr, cr3 := d.cr3, pdpeCopy := d.pdpeCopy, pdpePaging := d.pdpePaging, ctx := d.ctx
    privileged := d.privileged
    msrs := { efer := p.msrs.efer.set d.efer, vmcr := p.msrs.vmcr, other := d.otherMsrs }
    breakpoints := d.breakpoints
    run := if d.shutdown then .shutdown else p.run }

/-- The bytes a delivery pushed, at physical addresses (DESIGN CHOICE, log 35: modulo the physical address space; log 15: no
data breakpoint is trapped on them). -/
def State.push (s : State) (cells : List Host.Cell) : State :=
  { s with mem := s.mem.writeCells (cells.map fun c => (c.1 % s.params.paSpace, c.2)) }

/-- TAKING AN EXCEPTION on `q`, whose state is `p`: the one shared operation (R113). The record says the vector, the error code
pushed and the saved pc; the rest is `EXC_DELIVER`. -/
def State.raise (s : State) (q : ProcId) (p : Proc) (e : ExcRecord) : State :=
  let d := Config.excDeliver p s.mem e
  (s.push d.pushed).setProc q { p.delivered d with excs := e :: p.excs }

/-- RETURN from the handler of the latest exception: control is at the saved pc again, so nothing is skipped (R127); what else a
return restores is not in the source. DESIGN CHOICE (log 10): without an exception to return from, nothing; in the handler of a device
interrupt, an NMI or an SMI it is a return from the latest exception before it, if there is one. -/
def State.returnFromExc (s : State) (q : ProcId) (p : Proc) : State :=
  match p.excs with
  | [] => s
  | e :: earlier =>
    let d := Config.excReturn p s.mem e
    s.setProc q { p.delivered { d with shutdown := false } with pc := e.savedPc, excs := earlier }

/-- `EVENT_DELIVER` (R119). DESIGN CHOICE (log 10): of an event's delivery no record is kept, so no move is the return from its
handler; R127 speaks of the `#SX` handler alone. -/
def State.deliverEvent (s : State) (q : ProcId) (p : Proc) (e : Event) : State :=
  let d := Config.eventDeliver p s.mem e
  (s.push d.pushed).setProc q (p.delivered d)

/-- The vector of `#SX` (R111). -/
def sxVector : Nat := 30

/-- The record of an exception that is not `#SX`, whatever an opaque constant gave: vector 30 is passed over, so that a redirected
INIT is the one cause of `#SX` and code 1 its one code (R111, R112, R70). -/
def ExcRecord.notSx (e : ExcRecord) : ExcRecord :=
  { e with vector := if e.vector < sxVector then e.vector else e.vector + 1 }

/-- The classes of R114. -/
structure ExcClass where
  /-- A fault: it saves the address of the instruction not yet executed (R113). -/
  isFault : Bool
  /-- Contributory: a second such exception while one is delivered is a double fault (item GK13). -/
  isContributory : Bool
  deriving DecidableEq, Repr, Inhabited

/-- `#SX` is a fault and contributory (R113, R114). What becomes of an exception during the delivery of another is inside
`EXC_DELIVER`, a triple fault its `shutdown` (R125). -/
def sxClass : ExcClass := { isFault := true, isContributory := true }

/-- `raise SX(1)` (R112, R113): error code 1, the only one defined, and as `saved_pc` the instruction not yet executed. -/
def Proc.sxRecord (p : Proc) : ExcRecord := { vector := sxVector, code := some 1, savedPc := p.pc }

/-! ### INIT IPIs in flight and the busy indication (R132, R36; log 30) -/

/-- The sender `q` after the INIT IPIs in flight changed from `before` to `after`: its busy indication clears when the last one of
its own is accepted, and the wait of R166 starts (R132). -/
def Proc.settle (p : Proc) (before after : List Ipi) (q : ProcId) : Proc :=
  if (before.any fun i => decide (i.sender = q)) && !(after.any fun i => decide (i.sender = q)) then
    { p with apicBusy := false, sinceClear := some 0 }
  else p

/-- INIT IPIs are accepted: those in flight become `after`, and the senders settle. -/
def State.retire (s : State) (after : List Ipi) : State :=
  { s with
    bsp := s.bsp.settle s.ipis after .bsp
    aps := s.aps.mapIdx fun i p => p.settle s.ipis after (.ap i)
    ipis := after }

/-- The INIT IPIs in flight less those held at `q`. -/
def State.withoutHeldAt (s : State) (q : ProcId) : List Ipi := s.ipis.filter fun i => !(i.held && decide (i.target = q))

/-! ### INIT, RESET, Startup IPI (R132, R135 to R137, R151, R152) -/

/-- The MSRs other than `EFER` and `VM_CR` after INIT: those INIT changes as the image has them, all others as they were (R152c,
D6). -/
def initOtherMsrs (old image : List (Nat × Quad)) : List (Nat × Quad) :=
  (image.filter fun c => Config.initMsrs.contains c.1) ++ old.filter fun c => !Config.initMsrs.contains c.1

/-- `INIT_STATE` (R88, R152): the image's values, `DS`, `ES`, `FS`, `GS` real-mode segments (R152a); no breakpoint and no
single-step is left (R152e, R173); most MSRs (R152c), `GIF`, `VM_CR`, `pending`, the x87 and SSE control registers are kept (R152b,
R152d, D6). Also kept is what is no part of the re-initialised state: `run`, which R31 and R132 write, the input `A20M`, and the
model's own records of cycles and exceptions (log 20). -/
def Proc.initState (p : Proc) : Proc :=
  let i := Config.initImage p
  { p.withBusy i.apicBusy with
    x := i.x, upper := i.upper, further := i.further, pc := i.pc, eflags := { i.eflags with trap := false }
    pe := i.pe, pg := i.pg
    segs :=
      { cs := i.cs, ss := i.ss, ds := .realMode i.dsSel, es := .realMode i.esSel, fs := .realMode i.fsSel
        gs := .realMode i.gsSel }
    gdtr := i.gdtr, cr3 := i.cr3, pdpeCopy := i.pdpeCopy, pdpePaging := i.pdpePaging, ctx := i.ctx
    privileged := i.privileged
    msrs := { efer := p.msrs.efer.set i.efer, vmcr := p.msrs.vmcr, other := initOtherMsrs p.msrs.other i.otherMsrs }
    breakpoints := [] }

/-- The processor that took an INIT IPI (R132): re-initialised and halted. -/
def Proc.initHalt (p : Proc) : Proc := { p.initState with run := .initHalted }

/-- The secure part of the answer to a Startup IPI (R136): `GIF` cleared and the three `VM_CR` flags set. -/
def Proc.secureStartup (p : Proc) : Proc :=
  { p with gif := false, msrs := { p.msrs with vmcr := p.msrs.vmcr.secured } }

/-- The ordinary part (R134, R135, R137): running at offset 0 of the start page in 16-bit real mode, outside any guest, for the
first fetch is at that physical address (R135, R57). Everything else is as `INIT_STATE` left it (R137, D17), but for the registers
beyond the eight, which R39 draws. -/
def Proc.ordinaryStartup (p : Proc) (v : Byte) (d : Nat) : Proc :=
  { p with
    run := .running, pe := false, pg := false, ctx := .host, pc := 0#32, segs := { p.segs with cs := .startPage v }
    upper := Config.freeRegs d, further := Config.freeFurther d }

/-- The answer of a halted processor to a Startup IPI (R134 to R138). -/
def Proc.startup (p : Proc) (latch : Bool) (v : Byte) (d : Nat) : Proc :=
  if latch then (p.ordinaryStartup v d).secureStartup else p.ordinaryStartup v d

/-- A processor right after a RESET: `RESET_STATE`; the platform input and the model's count of R166 are its own. -/
def Proc.resetTo (p p0 : Proc) : Proc :=
  { p0 with a20m := p.a20m, sinceClear := (p.withBusy p0.apicBusy).sinceClear }

/-- `RESET` at `q` (R126, R151): its reset state, the latch cleared (R34, D9), `SKINIT` abandoned where it was the BSP's, the INIT
IPIs that were held at it gone with what it held (log 22); what the controllers protect afterwards is not stated, so it is free
(R151). -/
def State.resetAt (s : State) (q : ProcId) (p : Proc) : State :=
  let s := (s.retire (s.withoutHeldAt q)).setProc q (p.resetTo (s.params.procAtReset q))
  { s with
    skinitLatch := false
    skinit := if s.midSkinit q then none else s.skinit
    mcs := s.mcs.map fun m =>
      { en := (Config.resetSlDev s.draws m).1, base := (Config.resetSlDev s.draws m).2 ++ 0#16 }
    draws := s.draws + 1 }

end Sys2Proof.Machine
end

