-- ==== Sys2Proof/Machine/Address.lean ====
section
/-! DEFINITION. From linear addresses to physical ones, and the addresses of a data access (R41, R43, R57, R73 to R76).

The spec has no page-table format and no walk algorithm, and R4 forbids inventing one: with paging on, the processor's own
translation is the opaque `Config.pageMap`; under nested paging what that gives is a guest physical address, which the opaque
`Config.nestedMap` turns into a physical one. What the spec does say of PDPEs and of A20 masking stands between them (log 18). -/

namespace Sys2Proof.Machine

/-! ### A20 masking (R27, R76, item GK5) -/

/-- Bit 20 forced to zero (item GK5). -/
def maskA20 (a : Nat) : Nat := a / 2 ^ 21 * 2 ^ 21 + a % 2 ^ 20

/-- Whether A20 masking applies to the addresses a processor emits: never while a guest runs (R76; without nested paging DESIGN
CHOICE, log 18), and not where `VM_CR.DIS_A20M` is set (R27, D20). -/
def Proc.a20Masks (p : Proc) : Bool :=
  match p.ctx with
  | .guest _ => false
  | .host => p.a20m && !p.msrs.vmcr.disA20m

/-- A processor without what governs A20 masking: what translations may depend on, so that they are the same whatever `A20M` and
`DIS_A20M` are (R76). -/
def Proc.a20Blind (p : Proc) : Proc :=
  { p with a20m := false, msrs := { p.msrs with vmcr := { p.msrs.vmcr with disA20m := false } } }

/-! ### Translation (R4, R41, R57) -/

/-- The physical address of what software on `p` treats as one: under nested paging a guest physical address, which the nested page
mappings translate with all its bits (R41, R76), else itself. DESIGN CHOICE (log 35): a guest physical address is a number of any size,
for R41 gives it no width, so none is out of range; what it translates to is one of the physical addresses. -/
def Proc.guestPhysical (c : Params) (p : Proc) (m : Memory) (a : Nat) : Nat :=
  if p.ctx.isNested then Config.nestedMap p.a20Blind m a % c.paSpace else a

/-! ### PDPEs (R73 to R75) -/

/-- The `i`-th PDPE of a `CR3` value, as memory holds it. DESIGN CHOICE (log 16): 64 bits, little-endian, the spec giving PDPEs no
layout; each of its bytes is translated for itself in a guest under nested paging, its addresses are taken modulo the physical
address space, and no A20 mask is applied to them. -/
def Proc.pdpeInMemory (c : Params) (p : Proc) (m : Memory) (cr3 : Quad) (i : Fin 4) : Quad :=
  BitVec.ofNat 64 (leValue ((List.range 8).map fun k => m.read (p.guestPhysical c m (Config.pdpeAddr cr3 i + k) % c.paSpace)))

/-- The four PDPEs a `CR3` value names. -/
def Proc.pdpes (c : Params) (p : Proc) (m : Memory) (cr3 : Quad) : List Quad :=
  [p.pdpeInMemory c m cr3 0, p.pdpeInMemory c m cr3 1, p.pdpeInMemory c m cr3 2, p.pdpeInMemory c m cr3 3]

/-- The PDPE a walk of `p` uses. In a guest under nested paging it is memory's, read on demand: there is no copy in that mode,
whatever an earlier mode left (R73, R75, V-F row F3; DEDUCED, log 16). Elsewhere it is memory's, unless an in-processor copy exists;
then one of the two, free (R75, D26). DESIGN CHOICE (log 16): walks of one access through the same PDPE use the same draw `d`; the
spec does not say how many walks an access makes. -/
def Proc.walkedPdpe (c : Params) (p : Proc) (m : Memory) (d : Nat) (i : Fin 4) : Quad :=
  let inMemory := p.pdpeInMemory c m p.cr3 i
  if p.ctx.isNested then inMemory
  else match p.pdpeCopy with
  | none => inMemory
  | some copies => if Config.freePdpe d i then inMemory else copies.getD i.val inMemory

/-- The PDPE the walk of a linear address goes through, where there is such a walk (R73). -/
def Proc.walkOf (c : Params) (p : Proc) (m : Memory) (d : Nat) (a : Word) : Option Quad :=
  if p.walks then some (p.walkedPdpe c m d (Config.pdpeIndex a)) else none

/-- The first faulty PDPE the walks of these linear addresses go through, in order: what an access is signalled for (R74). DESIGN CHOICE
(log 16): one walk for each byte, all on the draw `d` of the access, so those through one PDPE use one entry. -/
def Proc.faultyWalk (c : Params) (p : Proc) (m : Memory) (d : Nat) (as : List Word) : Option Quad :=
  (as.filterMap (p.walkOf c m d)).find? Config.pdpeIllegal

/-- The state after an access of `p` that walks through PDPEs drew which of them (R75): once for the access, for every PDPE (DESIGN
CHOICE, log 16). Nothing else of the state changes: a walk writes no memory (DESIGN CHOICE, log 18; R4, R57 and N22 are silent). -/
def State.walked (s : State) (p : Proc) : State := { s with draws := if p.walks then s.draws + 1 else s.draws }

/-- What signals an illegal PDPE (R74): no `#SX` (R111). -/
def Proc.pdpeRecord (p : Proc) (pdpe : Quad) : ExcRecord := (Config.pdpeSignal p pdpe).notSx

/-! ### Physical addresses -/

/-- The physical address of a linear one. Without translation the two are equal but for A20 masking (R43, R57); with paging on or
under nested paging it is what the opaque tables give, an address of `PA_WIDTH` bits (R40). DESIGN CHOICE (log 18): translation never
fails, whether it can is not in the spec (R57, N22); an illegal PDPE alone is signalled, before it. -/
def Proc.physical (c : Params) (p : Proc) (m : Memory) (d : Nat) (a : Word) : Nat :=
  if p.untranslated then (if p.a20Masks then maskA20 a.toNat else a.toNat)
  else
    let own := if p.pg then Config.pageMap p.a20Blind m (p.walkOf c m d a) a else a.toNat
    if p.ctx.isNested then p.guestPhysical c m own
    else (if p.a20Masks then maskA20 own else own) % c.paSpace

/-! ### The addresses of a data access (R8, R43, R57, R69, R74) -/

/-- What names memory for an access of `n` bytes: physical addresses, a faulty PDPE that is signalled, or a segment that does not
allow it. -/
inductive Access where
  | addrs (l : List Nat)
  | signalled (pdpe : Quad)
  | violation
  deriving DecidableEq, Repr, Inhabited

/-- The addresses of the `n` bytes an access names. Through a segment it must be of a kind the attributes allow and within the limit
(R18, R57), then its walks must meet no faulty PDPE (R74). DESIGN CHOICE (log 35): in that order, so an access that violates its
segment and would meet a faulty PDPE is a violation; the spec gives no priority (R124, N24). Nothing depends on alignment: what a
misaligned access does is not in the spec (R64; DESIGN CHOICE, log 28). -/
def Proc.accessAddrs (c : Params) (p : Proc) (m : Memory) (d : Nat) (store : Bool) (r : DataRef) (n : Nat) : Access :=
  match r with
  | .phys a => .addrs ((List.range n).map fun i => p.guestPhysical c m (a + i))
  | .seg override off =>
    let r := dataSegment override
    let offs := offsets off n
    if (p.segs.get r).attr.allows store && (offs.all fun o => (p.segs.get r).within (p.offset o)) then
      match p.faultyWalk c m d (offs.map (p.linear r)) with
      | some pdpe => .signalled pdpe
      | none => .addrs (offs.map fun o => p.physical c m d (p.linear r o))
    else .violation

end Sys2Proof.Machine
end

