-- ==== Sys2Proof/Machine/Agents.lean ====
section
/-! DEFINITION. The moves of the agents around the processors, and software's abstract actions (R10, R65): everything a step can
do but execute an instruction. A software action of a processor that is not running at an instruction boundary has no effect:
there is no software to make it (R126, R133, R85). Nor is such an action an instruction: it has no bytes and no `pc` of its own, so
no instruction breakpoint and no trace trap is taken for it, whatever `TF` says (DESIGN CHOICE, log 15). -/

namespace Sys2Proof.Machine

/-- What a move of a named processor does: `f` on its state; a fault where there is no such processor. -/
def State.onProc (s : State) (q : ProcId) (f : Proc → Result) : Result :=
  match s.proc? q with
  | none => .fault .noSuchProcessor
  | some p => f p

/-- What a software action on a named processor does: `f` on its state, nothing where no software runs there; refused in a guest
that uses nested paging where there is none, for any use of it is outside the spec (R78). -/
def State.bySoftware (s : State) (q : ProcId) (f : Proc → Result) : Result :=
  s.onProc q fun p =>
    if s.atBoundary q p then
      if p.nestedUnsupported s.params then .refused .nestedPagingUnsupported else f p
    else .next s

/-! ### Events (R110, R115, R118, R119) -/

/-- An event asserts: it is held until delivered (R8, R30, R118, R121). DESIGN CHOICE (log 34): an INIT that asserts while a guest runs
with `GIF` set is held like any other, and refused where it is delivered in a guest; R130, which gives an INIT "arriving while a guest
runs" no meaning, does not say whether asserting is arriving. -/
def State.assertEvent (s : State) (q : ProcId) (e : Event) : Result :=
  s.onProc q fun p => .next (s.setProc q (p.hold e))

/-- An event may be delivered: held, its gate open, the processor running between two instructions (R115, R118, R119, R85). -/
def State.deliverable (s : State) (q : ProcId) (p : Proc) (e : Event) : Bool :=
  s.atBoundary q p && p.pending.has e && p.gateOpen e

/-- An INIT due for delivery (R115): the event is removed, `#SX` where `R_INIT` is set, else taken as an INIT: re-initialisation, and
for the IPI form the halted state (R132, R152). DESIGN CHOICE (log 11): one held INIT that came both ways is taken in the way the
move names. -/
def State.deliverInit (s : State) (q : ProcId) (p : Proc) (src : InitSource) : Result :=
  if p.ctx.isGuest then .refused .initInGuest
  else if p.msrs.vmcr.rInit then .next (s.raise q (p.drop (.init src)) p.sxRecord)
  else match src with
    | .signal => .next (s.setProc q (p.drop (.init src)).initState)
    | .ipi => .next (s.setProc q (p.drop (.init src)).initHalt)

/-- A device interrupt, an NMI or an SMI that may be delivered: `EVENT_DELIVER`, the event no longer held (R119); refused under
nested paging where there is none (R78). -/
def State.deliverGated (s : State) (q : ProcId) (p : Proc) (e : Event) : Result :=
  if p.nestedUnsupported s.params then .refused .nestedPagingUnsupported else .next (s.deliverEvent q (p.drop e) e)

/-- An INIT taken at `q` (R115, R132): with it the INIT IPIs that leave the list for `after` are accepted, and their senders settle;
then the INIT is delivered. -/
def State.takeInit (s : State) (q : ProcId) (p : Proc) (src : InitSource) (after : List Ipi) : Result :=
  (s.retire after).deliverInit q (p.settle s.ipis after q) src

/-- Delivery of a held event; an event that may not be delivered stays held (R118). An INIT takes with it the INIT IPIs held at `q`:
there is one INIT (R30). -/
def State.deliver (s : State) (q : ProcId) (e : Event) : Result :=
  s.onProc q fun p =>
    if s.deliverable q p e then
      match e with
      | .init src => s.takeInit q p src (s.withoutHeldAt q)
      | .device v => s.deliverGated q p (.device v)
      | .nmi => s.deliverGated q p .nmi
      | .smi => s.deliverGated q p .smi
    else .next s

/-- `RESET`: always taken (R110, R126). -/
def State.resetMove (s : State) (q : ProcId) : Result := s.onProc q fun p => .next (s.resetAt q p)

/-- Into shutdown, from a running processor (R31, R125). DESIGN CHOICE (log 27): at an instruction boundary only, so in the middle of
`SKINIT` the move has no effect; R125 does not say whether a cause may fall between two of its steps. -/
def State.shutdownMove (s : State) (q : ProcId) : Result :=
  s.bySoftware q fun p => .next (s.setProc q { p with run := .shutdown })

/-! ### Interprocessor interrupts (R132, R134, R36) -/

/-- Software issues an INIT IPI: its APIC is busy until every one is accepted (R132). -/
def State.sendInitIpi (s : State) (q : ProcId) (targets : List ProcId) : Result :=
  s.bySoftware q fun p =>
    .next ({ s with ipis := s.ipis ++ targets.map fun t => Ipi.mk q t false }.setProc q
      { p with apicBusy := !targets.isEmpty || p.apicBusy })

/-- The INIT IPI at place `k` stays in flight, held at its target. -/
def holdAt (k : Nat) (i : Ipi) (l : List Ipi) : List Ipi := l.set k { i with held := true }

/-- An INIT IPI in flight reaches its target (R132). Where an INIT is due there, it is accepted: the INIT is taken at once, and nothing
else comes between (R115, R121; P3 row 2 of 95_test_vectors.md). Where none is, the INIT is held, and the IPI is not accepted until it
is taken (R118, R121, R133; log 30). One to a processor that does not exist leaves, accepted by nobody. -/
def State.acceptInitIpi (s : State) (k : Nat) : Result :=
  match s.ipis[k]? with
  | none => .next s
  | some i =>
    match s.proc? i.target with
    | none => .next (s.retire (s.ipis.eraseIdx k))
    | some p =>
      if s.atBoundary i.target p && p.gif then
        s.takeInit i.target p .ipi ({ s with ipis := s.ipis.eraseIdx k }.withoutHeldAt i.target)
      else .next ({ s with ipis := holdAt k i s.ipis }.setProc i.target (p.hold (.init .ipi)))

/-- A Startup IPI: taken in the INIT state, without effect elsewhere (R134, D18); `GIF` does not gate it (R118). DESIGN CHOICE (log 30):
it has no sender here and sets no busy indication; R132 gives that for the INIT IPI alone. -/
def State.startupIpi (s : State) (q : ProcId) (v : Byte) : Result :=
  s.onProc q fun p =>
    if p.isInitHalted && !s.midSkinit q then
      .next ({ s with draws := s.draws + 1 }.setProc q (p.startup s.skinitLatch v s.draws))
    else .next s

/-- The driver waits (R166). -/
def State.waitMove (s : State) (q : ProcId) (n : Nat) : Result :=
  s.bySoftware q fun p =>
    .next (if p.apicBusy then s else s.setProc q { p with sinceClear := p.sinceClear.map (· + n) })

/-! ### Software's abstract actions (R123, R141, R142, R17, R173) -/

/-- `SetGIF` (R123). -/
def State.setGif (s : State) (q : ProcId) : Result :=
  s.bySoftware q fun p => .next (s.setProc q { p with gif := true })

/-- `WriteVMCR(v)` (R142). -/
def State.writeVmcr (s : State) (q : ProcId) (v : Quad) : Result :=
  s.bySoftware q fun p =>
    .next (s.setProc q { p with msrs := { p.msrs with vmcr := VmCr.ofBits s.params v } })

/-- `ClearSLDevEn(m)` (R141): an action of software, so nobody makes it while the BSP is in the middle of `SKINIT` and every AP is
halted (R55). -/
def State.clearSlDevEn (s : State) (q : ProcId) (m : Nat) : Result :=
  s.bySoftware q fun _ =>
    match s.mcs[m]? with
    | none => .fault .noSuchController
    | some c => .next { s with mcs := s.mcs.set m { c with en := false } }

/-- What loading a segment register makes of it: base 16 times the selector in real mode, the selector's GDT entry in protected mode
(R17, R18; log 14); nothing where the entry is not an appropriate one. DESIGN CHOICE (log 14): the entry is read without a walk, so no
PDPE is signalled for it, and what an entry gives and whether it is appropriate do not depend on which register is loaded; the spec
describes neither. -/
def Proc.loadedSeg (m : Memory) (p : Proc) (r : SegReg) (sel : Half) : Option Seg :=
  if p.pe then
    (Config.gdtEntry p.gdtr m sel).map fun e => { sel := sel, base := e.1, limit := e.2.1, attr := e.2.2 }
  else some { p.segs.get r with sel := sel, base := (Seg.realMode sel).base }

/-- Loading a segment register. DESIGN CHOICE (log 15): no data breakpoint is trapped on the bytes of a GDT entry, for a load names none
(R144 is silent). Without an appropriate GDT entry the duty of R159 is broken, and the source gives no behaviour (R9). -/
def State.loadSegMove (s : State) (q : ProcId) (r : SegReg) (sel : Half) : Result :=
  s.bySoftware q fun p =>
    match p.loadedSeg s.mem r sel with
    | none => .refused .inappropriateGdtEntry
    | some g => .next (s.setProc q { p with segs := p.segs.set r g })

/-- Software points the processor at a GDT (R17, R159); the source does not say how. -/
def State.loadGdtr (s : State) (q : ProcId) (v : Quad) : Result :=
  s.bySoftware q fun p => .next (s.setProc q { p with gdtr := v })

/-- Software changes the mode: the SL leaves flat protected mode so (R131b). Paging needs protected mode (R20). DESIGN CHOICE (log 16):
turning paging on loads no copy of the PDPEs, signals none, and keeps an older copy; the spec speaks of `CR3` writes alone. -/
def State.setMode (s : State) (q : ProcId) (pe pg pdpePaging : Bool) : Result :=
  s.bySoftware q fun p =>
    if pg && !pe then .refused .pagingWithoutProtection
    else .next (s.setProc q { p with pe := pe, pg := pg, pdpePaging := pdpePaging })

/-- Software comes to run with or without the privilege `SKINIT` needs; how is outside the spec (R131, N9; log 29). -/
def State.setPrivilege (s : State) (q : ProcId) (privileged : Bool) : Result :=
  s.bySoftware q fun p => .next (s.setProc q { p with privileged := privileged })

/-- Software puts a value in a general register, as the driver puts the SLB's address in EAX (R172 step 3). DESIGN CHOICE (log 25): one
register at a time and its 32 bits alone; the spec names no instruction for it (R4). -/
def State.writeGpr (s : State) (q : ProcId) (r : Gpr) (v : Word) : Result :=
  s.bySoftware q fun p => .next (s.setProc q { p with x := p.x.set r v })

/-- Software writes `IF` and `TF`, as a debugger that re-arms single-step does (R14, R119, R173). DESIGN CHOICE (log 25): both at once,
the other bits kept; the spec does not say how `EFLAGS` is written. -/
def State.writeFlags (s : State) (q : ProcId) (intr trap : Bool) : Result :=
  s.bySoftware q fun p => .next (s.setProc q { p with eflags := { p.eflags with intr := intr, trap := trap } })

/-- Software writes `EFER` (R131b), as many bits as it has (R23). -/
def State.writeEfer (s : State) (q : ProcId) (v : Nat) : Result :=
  s.bySoftware q fun p => .next (s.setProc q { p with msrs := { p.msrs with efer := p.msrs.efer.set v } })

/-- A debugger arms breakpoints (R144, R173); single-step is `writeFlags`. -/
def State.setBreakpoints (s : State) (q : ProcId) (bps : List Breakpoint) : Result :=
  s.bySoftware q fun p => .next (s.setProc q { p with breakpoints := bps })

/-- Software returns from the handler of the latest exception (R127). DESIGN CHOICE (log 10): from no event's handler, for the
delivery of an event keeps no record. -/
def State.returnExc (s : State) (q : ProcId) : Result :=
  s.bySoftware q fun p => .next (s.returnFromExc q p)

/-- An access of software's: `f` with the addresses it names, where they exist; signalled where its walk meets a faulty PDPE (R74);
refused where its segment does not allow it (R57). DESIGN CHOICE (log 35): if one of its bytes does not exist or walks through a
faulty PDPE, none of them is stored or read; an access by physical address that passes the last one faults (R6, R13, N12 do not say
that it wraps). A data breakpoint it hits is trapped after it (R86, R144), in the same step, so that no event comes between (DESIGN
CHOICE, log 15: R124 gives no priority); no other debug trap is taken, though `TF` be set or an instruction breakpoint stand at `pc`
(R14, R144; DESIGN CHOICE, log 15). -/
def State.accessMove (s : State) (q : ProcId) (store : Bool) (r : DataRef) (n : Nat) (f : State → List Nat → State) : Result :=
  s.bySoftware q fun p =>
    match p.accessAddrs s.params s.mem s.draws store r n with
    | .violation => .refused .segmentViolation
    | .signalled pdpe => .next ((s.walked p).raise q p (p.pdpeRecord pdpe))
    | .addrs l =>
      if s.params.allExist l then
        let t := f (s.walked p) l
        .next (if p.hitsDataBreakpoint l then t.raise q p (Config.dataTrap p).notSx else t)
      else .fault .noSuchAddress

/-- `MemWrite`: a processor's store of the `n`-byte value `v`, little-endian (R8, R43, R45), never refused by `SL_DEV` (R52). It is one
move at any alignment (R64; DESIGN CHOICE, log 28). -/
def State.memWriteMove (s : State) (q : ProcId) (r : DataRef) (n v : Nat) : Result :=
  s.accessMove q true r n fun t l => { t with mem := t.mem.writeCells (l.zip (littleEndianBytes n v)) }

/-- `MemRead`: a processor's read of `n` bytes, little-endian (R8, R43, R45), never refused by `SL_DEV` (R52). -/
def State.memReadMove (s : State) (q : ProcId) (r : DataRef) (n : Nat) : Result :=
  s.accessMove q false r n fun t l => { t with lastRead := leValue (l.map t.mem.read) }

/-! ### Paging notes (R73 to R75, R78; log 16) -/

/-- A write of `CR3`. Under R73's condition it writes `CR3` only and signals nothing, whatever the PDPEs hold (R73, R74). In
the copying mode the fragment contrasts with, the copy is loaded (R75) and an illegal PDPE is signalled now: of several the
lowest-numbered (DESIGN CHOICE, log 16). With paging off, or in a mode without PDPEs, it writes `CR3` only (DESIGN CHOICE, log 16). -/
def State.writeCr3 (s : State) (q : ProcId) (v : Quad) : Result :=
  s.bySoftware q fun p =>
    if p.ctx.isNested || !p.walks then .next (s.setProc q { p with cr3 := v })
    else match (p.pdpes s.params s.mem v).find? Config.pdpeIllegal with
      | some bad => .next (s.raise q p (p.pdpeRecord bad))
      | none => .next (s.setProc q { p with cr3 := v, pdpeCopy := some (p.pdpes s.params s.mem v) })

/-- A walk through PDPE `i`, as an access makes one: signalled where the PDPE used is illegal (R74, R75). With paging off, or in a mode
without PDPEs, nothing walks, and the move has no effect (DESIGN CHOICE, log 16). -/
def State.walkPdpe (s : State) (q : ProcId) (i : Fin 4) : Result :=
  s.bySoftware q fun p =>
    if !p.walks then .next s
    else
      let pdpe := p.walkedPdpe s.params s.mem s.draws i
      .next (if Config.pdpeIllegal pdpe then (s.walked p).raise q p (p.pdpeRecord pdpe) else s.walked p)

/-! ### Platform and devices (R5, R52) -/

/-- The platform drives `A20M`. DESIGN CHOICE (log 18): at any moment; R5 has it as a parameter, and N19 says nothing of its timing. -/
def State.driveA20m (s : State) (q : ProcId) (level : Bool) : Result :=
  s.onProc q fun p => .next (s.setProc q { p with a20m := level })

/-- `DevRead` (R52): a refused read returns free bytes (D22). DESIGN CHOICE (log 31): that it was refused is the model's own record;
what else the device sees of it is not in the source. DESIGN CHOICE (log 35): one that passes the last physical address faults, it
does not wrap. -/
def State.devRead (s : State) (m a n : Nat) : Result :=
  match s.mcs[m]? with
  | none => .fault .noSuchController
  | some c =>
    if !s.params.allExist ((List.range n).map (a + ·)) then .fault .noSuchAddress
    else if c.blocks a n then
      .next { s with
        device := { bytes := (List.range n).map (Config.freeByte s.draws), refused := true }, draws := s.draws + 1 }
    else .next { s with device := { bytes := s.mem.readBytes a n, refused := false } }

/-- `DevWrite` (R52): a refused write changes no byte, not even one outside the region (V-E row E5). DESIGN CHOICE (log 31): that it
was refused is the model's own record, with no bytes; what the device sees of it is not in the source. DESIGN CHOICE (log 35): one
that passes the last physical address faults, it does not wrap, and stores nothing. -/
def State.devWrite (s : State) (m a n v : Nat) : Result :=
  match s.mcs[m]? with
  | none => .fault .noSuchController
  | some c =>
    if !s.params.allExist ((List.range n).map (a + ·)) then .fault .noSuchAddress
    else if c.blocks a n then .next { s with device := { bytes := [], refused := true } }
    else .next { s with
      mem := s.mem.writeCells (cellsFrom a (littleEndianBytes n v)), device := { bytes := [], refused := false } }

end Sys2Proof.Machine
end

