-- ==== Sys2Proof/Machine/Cpuid.lean ====
section
/-! DEFINITION. `CPUID` (R79). -/

namespace Sys2Proof.Machine

/-- The general registers after `CPUID`: EAX, EBX, ECX, EDX free (R79, R68), but bit `NP_BIT` of `NP_REG` equal to
`NP_SUPPORTED` where the function number was `NP_FN`. -/
def Regs.cpuid (c : Params) (d : Nat) (x : Regs) : Regs :=
  let free : Regs :=
    { x with
      eax := Config.freeWord d 0, ebx := Config.freeWord d 1, ecx := Config.freeWord d 2, edx := Config.freeWord d 3 }
  if x.eax = c.npFn then free.set c.npReg.gpr (setBit (free.get c.npReg.gpr) c.npBit.val c.npSupported) else free

/-- The processor after `CPUID`: the registers, the bits above them where they exist (free: no rule gives them), and
`pc` past its bytes, modulo the mode's offset width (N12, R44; log 19). Flags, and everything else, unchanged (R79). -/
def Proc.cpuid (c : Params) (d : Nat) (p : Proc) : Proc :=
  { p with
    x := p.x.cpuid c d
    upper :=
      { p.upper with
        eax := (Config.freeRegs d).eax, ebx := (Config.freeRegs d).ebx
        ecx := (Config.freeRegs d).ecx, edx := (Config.freeRegs d).edx }
    pc := p.offset (p.pc + BitVec.ofNat 32 Instr.cpuid.size) }

/-- `CPUID` on the executing processor. -/
def execCpuid (s : State) : Result :=
  match s.proc? s.cur with
  | none => .fault .noSuchProcessor
  | some p => .next ({ s with draws := s.draws + 1 }.setProc s.cur (p.cpuid s.params s.draws))

end Sys2Proof.Machine
end

