-- ==== Sys2Proof/Machine/Skinit.lean ====
section
/-! DEFINITION. `SKINIT` (R80 to R108): eight steps, each one transition of the BSP (R87, D16).

Each step is a function of the state. Where the agenda holds no move of another agent, nobody acts between the steps and they
follow one another (`State.skinitRun`); where it holds moves, the state remembers the step to come (`State.skinit`) and the
moves fall between the steps. The BSP is the executing processor throughout (R82). -/

namespace Sys2Proof.Machine

/-! ### Step 1: re-initialisation (R88 to R94) -/

/-- The registers after step 1 (R90, C7): EAX keeps the operand, EDX is the signature, ESP is INIT's until step 7, the other five
are zero. -/
def Regs.skinit1 (c : Params) (old init : Regs) : Regs :=
  { eax := old.eax, ecx := 0#32, edx := c.cpuSignature, ebx := 0#32, esp := init.esp, ebp := 0#32, esi := 0#32, edi := 0#32 }

/-- The MSR file after step 1 (R92 to R94, R24). -/
def Msrs.skinit1 (old : Msrs) : Msrs :=
  { efer := .clear old.efer.width, vmcr := old.vmcr.secured, other := Config.skinitMsrEffect old }

/-- The BSP after step 1: re-initialised as for INIT (R88), then flat 32-bit protected mode with paging off (R89), registers
(R90), MSRs (R92 to R94); outside any guest, for an offset through `CS` is a physical address from here on (R43, R131b), and
privileged (R131, item GK11: PRESUMED, log 29). The x87 and SSE control registers and `pending` are as `INIT_STATE` leaves them: kept
(R91, R120). The registers beyond the eight are drawn (R12, D4). -/
def Proc.skinit1 (c : Params) (d : Nat) (p : Proc) : Proc :=
  let i := p.initState
  { i with
    pe := true, pg := false, ctx := .host, privileged := true
    segs := { i.segs with cs := .flatCode, ss := .flatStack }
    x := Regs.skinit1 c p.x i.x
    upper := Config.freeRegs d, further := Config.freeFurther d
    msrs := p.msrs.skinit1 }

/-- Step 1. Whether the driver kept the delay of R166 is settled here, where the instruction is executed. -/
def State.skinitStep1 (s : State) : State :=
  { s with
    bsp := s.bsp.skinit1 s.params s.draws, draws := s.draws + 1
    skinit := some (.step2 (s.bsp.delayKept s.params)) }

/-! ### Steps 2 to 8 (R95 to R104) -/

/-- The SLB base address: the operand with bits 15:0 cleared (R95, R47). -/
def slbBase (a : Word) : Word := a &&& 0xFFFF0000#32

/-- The two header words of the SL image (R48). -/
def Memory.slEntry (m : Memory) (slb : Word) : Half := m.read16 slb.toNat
def Memory.slLength (m : Memory) (slb : Word) : Half := m.read16 (slb.toNat + 2)

/-- The SL image: `length` bytes from offset 0 of the SLB, ascending (R98). -/
def Memory.slImage (m : Memory) (slb : Word) : List Byte := m.readBytes slb.toNat (m.slLength slb).toNat

/-- Step 2: form the base, update EAX (R95), protect the block in every memory controller (R96, D23). -/
def State.skinitStep2 (s : State) (kept : Bool) : State :=
  let slb := slbBase s.bsp.x.eax
  { s with
    bsp := { s.bsp with x := { s.bsp.x with eax := slb } }
    mcs := s.mcs.map fun _ => { en := true, base := slb }
    skinit := some (.step3 slb kept) }

/-- The result of the handshake (R97): every AP is in the INIT state; free where the driver did not keep the delay of R166; true
where there is no AP. -/
def State.handshake (s : State) (kept : Bool) : Bool :=
  if s.aps.isEmpty then true
  else if kept then s.aps.all (·.isInitHalted)
  else Config.freeBool s.draws

/-- Step 3: the handshake; the platform records that the BSP executed `SKINIT`, whatever its result (R97, R34, D15). -/
def State.skinitStep3 (s : State) (slb : Word) (kept : Bool) : State :=
  { s with skinitLatch := true, draws := s.draws + 1, skinit := some (.step4 slb (s.handshake kept)) }

/-- Step 4: read the image and transmit it to the TPM (R98, R99). -/
def State.skinitStep4 (s : State) (slb : Word) (hsOk : Bool) : State :=
  { s with tpm := s.tpm.start.send (s.mem.slImage slb), skinit := some (.step5 slb hsOk) }

/-- Step 5: signal the TPM to complete the hash and verify (R100, R101). -/
def State.skinitStep5 (s : State) (slb : Word) (hsOk : Bool) : State :=
  { s with tpm := s.tpm.finish hsOk, skinit := some (.step6 slb) }

/-- Step 6: clear `GIF` (R102). -/
def State.skinitStep6 (s : State) (slb : Word) : State :=
  { s with bsp := { s.bsp with gif := false }, skinit := some (.step7 slb) }

/-- Step 7: ESP to the first byte beyond the SLB, modulo `2^32` (R103, D2, D3). -/
def State.skinitStep7 (s : State) (slb : Word) : State :=
  { s with
    bsp := { s.bsp with x := { s.bsp.x with esp := slb + 0x10000#32 } }
    skinit := some (.step8 slb) }

/-- Step 8: jump to the SL entry point (R104). The header's first word is read now, and nothing is checked (R105). -/
def State.skinitStep8 (s : State) (slb : Word) : State :=
  { s with
    bsp := { s.bsp with pc := slb + (s.mem.slEntry slb).setWidth 32, run := .running }
    skinit := none }

/-- The step to come. -/
def State.skinitStep (s : State) : SkinitPhase → State
  | .step2 kept => s.skinitStep2 kept
  | .step3 slb kept => s.skinitStep3 slb kept
  | .step4 slb hsOk => s.skinitStep4 slb hsOk
  | .step5 slb hsOk => s.skinitStep5 slb hsOk
  | .step6 slb => s.skinitStep6 slb
  | .step7 slb => s.skinitStep7 slb
  | .step8 slb => s.skinitStep8 slb

/-- Up to `n` further steps, for as long as no other agent has a move to make. -/
def State.skinitRun (s : State) : Nat → State
  | 0 => s
  | n + 1 =>
    match s.skinit with
    | none => s
    | some ph => if s.agenda.isEmpty then (s.skinitStep ph).skinitRun n else s

/-- The BSP's transition in the middle of `SKINIT`: its next step, and the rest where nobody else has a move. -/
def State.skinitResume (s : State) (ph : SkinitPhase) : State := (s.skinitStep ph).skinitRun 7

/-! ### The instruction (R82, R84, R106) -/

/-- `SKINIT`. It has a meaning on the BSP, outside a guest, in protected mode and with sufficient privilege, and is refused
elsewhere (R82, R106, D7; log 12, log 29).
It raises nothing (R106), honours no debug trap (R86) and checks nothing in memory (R105). -/
def execSkinit (s : State) : Result :=
  match s.cur with
  | .ap _ => .refused .skinitOnAp
  | .bsp =>
    if s.bsp.ctx.isGuest then .refused .skinitInGuest
    else if !s.bsp.pe then .refused .skinitInRealMode
    else if !s.bsp.privileged then .refused .skinitUnprivileged
    else .next (s.skinitStep1.skinitRun 7)

end Sys2Proof.Machine
end

