-- ==== Sys2Proof/Machine/Fetch.lean ====
section
/-! DEFINITION. Fetching an instruction's bytes (R13, R43, R61, R74). -/

namespace Sys2Proof.Machine

/-- Why no instruction was fetched. -/
inductive FetchStop where
  /-- The bytes are no instruction, or end with the segment (R57, R65). -/
  | undecodable (e : DecodeError)
  /-- The walk for a byte of the instruction goes through a faulty PDPE (R74). -/
  | signalled (pdpe : Quad)
  deriving DecidableEq, Repr, Inhabited

/-- The bytes from offset `off` of `CS` up, at most `n`, ending where the segment's limit ends them (R13, R16) or at a byte whose
walk meets a faulty PDPE, which is then given too (R74). The fetch at the SL entry point sees what `MemRead` sees (R61, D12);
PRESUMED (item GK15, log 28): so does every other fetch, at once, whatever was stored, which R61 leaves outside the excerpt.
`SL_DEV` never refuses a fetch (R52). DESIGN CHOICE (log 19): after offset `FFFF_FFFFh` it goes on at 0 (R13, N12 leave wrap-around
open). DESIGN CHOICE (log 35): a byte beyond the limit ends the fetch before its walk is looked at (R124, N24 give no priority).
DESIGN CHOICE (log 32): the attributes of `CS` are not looked at, for what a fetch through a segment that is not code does is not in
the spec (R57). -/
def Proc.fetchWindow (c : Params) (p : Proc) (m : Memory) (d : Nat) : Word → Nat → List Byte × Option Quad
  | _, 0 => ([], none)
  | off, n + 1 =>
    if p.segs.cs.within (p.offset off) then
      match p.faultyWalk c m d [p.linear .cs off] with
      | some pdpe => ([], some pdpe)
      | none =>
        let w := Proc.fetchWindow c p m d (off + 1#32) n
        (m.read (p.physical c m d (p.linear .cs off)) :: w.1, w.2)
    else ([], none)

/-- The instruction at `pc`, and how many prefix bytes stand before it (R69); a faulty PDPE is signalled only if the instruction
needs the byte behind it (R74). -/
def Proc.fetch (c : Params) (p : Proc) (m : Memory) (d : Nat) : Except FetchStop (Instr × Nat) :=
  let w := p.fetchWindow c m d p.pc maxInstrBytes
  match decode w.1 with
  | .ok (i, _) => .ok (i, prefixBytes w.1)
  | .error e =>
    match w.2 with
    | none => .error (.undecodable e)
    | some pdpe => if e = .truncated then .error (.signalled pdpe) else .error (.undecodable e)

/-- The refusal for bytes that do not decode: beyond the limit of `CS` where the bytes ended, else outside the excerpt (R57,
R65). -/
def refusalOf : DecodeError → Refusal
  | .truncated => .fetchBeyondLimit
  | .segmentOverride => .outsideExcerpt .segmentOverride
  | .firstByte b => .outsideExcerpt (.firstByte b)
  | .secondByte b => .outsideExcerpt (.secondByte b)
  | .thirdByte b => .outsideExcerpt (.thirdByte b)

/-- Memory with bytes stored where `p` fetches from offset `off` of `CS` up. -/
def Proc.placeBytes (c : Params) (p : Proc) (d : Nat) (m : Memory) : Word → List Byte → Memory
  | _, [] => m
  | off, b :: bs => Proc.placeBytes c p d (m.write (p.physical c m d (p.linear .cs off)) b) (off + 1#32) bs

end Sys2Proof.Machine
end

