-- ==== Sys2Proof/Machine/Run.lean ====
section
/-! DEFINITION. A processor's own transition, and the move of any agent. -/

namespace Sys2Proof.Machine

/-- The executing processor `p` past the prefix bytes of its next instruction, which are `n` (R69): `pc` stands at the opcode. -/
def State.pastPrefix (s : State) (p : Proc) (n : Nat) : State :=
  if n = 0 then s else s.setProc s.cur { p with pc := p.offset (p.pc + BitVec.ofNat 32 n) }

/-- An instruction after `n` prefix bytes, with the debug traps around it (R14, R86, R144; log 15), none of them a `#SX` (R111):
`SKINIT` honours none; before another instruction an instruction breakpoint is trapped in its place, after it a trace trap is taken
where `TF` was set. DESIGN CHOICE (log 15): in the same step, so no event that could be delivered comes between the instruction and its
trap; the spec gives no priority (R110, R124, N24). -/
def State.execTraced (s : State) (p : Proc) (i : Instr) (n : Nat) : Result :=
  if !i.honoursDebugTraps then exec i (s.pastPrefix p n)
  else if p.hitsInstructionBreakpoint then .next (s.raise s.cur p (Config.instructionTrap p).notSx)
  else match exec i (s.pastPrefix p n) with
    | .next t =>
      if p.eflags.trap then
        t.onProc s.cur fun p' => .next (t.raise s.cur p' (Config.traceTrap p').notSx)
      else .next t
    | .fault r => .fault r
    | .refused r => .refused r

/-- The instruction at `pc` (R13): fetched, decoded, executed; bytes outside the table are refused, never skipped (R65); a fetch
whose walk meets a faulty PDPE is signalled (R74). DESIGN CHOICE (log 16): signalled before an instruction breakpoint there is trapped;
the spec gives no priority (R124, N24). -/
def State.runInstr (s : State) (p : Proc) : Result :=
  if p.nestedUnsupported s.params then .refused .nestedPagingUnsupported
  else match p.fetch s.params s.mem s.draws with
    | .ok (i, n) => (s.walked p).execTraced p i n
    | .error (.signalled pdpe) => .next ((s.walked p).raise s.cur p (p.pdpeRecord pdpe))
    | .error (.undecodable e) => .refused (refusalOf e)

/-- One transition of the executing processor: its next step of `SKINIT` (R87), or its next instruction; a halted or shut down
processor executes nothing and the machine waits (R126, R133, U14). -/
def State.procStep (s : State) : Result :=
  s.onProc s.cur fun p =>
    match (if s.midSkinit s.cur then s.skinit else none) with
    | some ph => .next (s.skinitResume ph)
    | none => if p.isRunning then s.runInstr p else .next s

/-- The move of an agent. `cur` stays on the processor that last had a transition of its own. -/
def State.doMove (s : State) : Move → Result
  | .proc q => s.onProc q fun _ => { s with cur := q }.procStep
  | .assertEvent q e => s.assertEvent q e
  | .deliver q e => s.deliver q e
  | .reset q => s.resetMove q
  | .shutdown q => s.shutdownMove q
  | .setGif q => s.setGif q
  | .writeVmcr q v => s.writeVmcr q v
  | .clearSlDevEn q m => s.clearSlDevEn q m
  | .memWrite q r n v => s.memWriteMove q r n v
  | .memRead q r n => s.memReadMove q r n
  | .loadSeg q r sel => s.loadSegMove q r sel
  | .loadGdtr q v => s.loadGdtr q v
  | .setMode q pe pg pdpe => s.setMode q pe pg pdpe
  | .setPrivilege q b => s.setPrivilege q b
  | .writeGpr q r v => s.writeGpr q r v
  | .writeFlags q intr trap => s.writeFlags q intr trap
  | .writeEfer q v => s.writeEfer q v
  | .writeCr3 q v => s.writeCr3 q v
  | .walkPdpe q i => s.walkPdpe q i
  | .setBreakpoints q bps => s.setBreakpoints q bps
  | .returnExc q => s.returnExc q
  | .wait q n => s.waitMove q n
  | .sendInitIpi q ts => s.sendInitIpi q ts
  | .acceptInitIpi k => s.acceptInitIpi k
  | .startupIpi q v => s.startupIpi q v
  | .driveA20m q l => s.driveA20m q l
  | .devRead m a n => s.devRead m a n
  | .devWrite m a n v => s.devWrite m a n v

/-- The next move of the agenda; where there is none, the executing processor's transition (log 2). -/
def State.advance (s : State) : Result :=
  match s.agenda with
  | [] => s.procStep
  | m :: rest => { s with agenda := rest }.doMove m

/-- What placing an instruction takes besides its bytes: nobody else moves first, and the executing processor is running at an
instruction boundary. A processor outside `Running` is set running; at reset nothing changes. -/
def State.readyToFetch (s : State) : State :=
  let s := { s with agenda := [], skinit := none }
  match s.proc? s.cur with
  | none => { s with cur := .bsp, bsp := { s.bsp with run := .running } }
  | some p => s.setProc s.cur { p with run := .running }

/-- The state with bytes placed where the executing processor fetches. -/
def State.placeAtPc (s : State) (bs : List Byte) : State :=
  match s.proc? s.cur with
  | none => s
  | some p => { s with mem := p.placeBytes s.params s.draws s.mem p.pc bs }

end Sys2Proof.Machine
end

