-- ==== Sys2Proof/Machine/Step.lean ====
section
/-! DEFINITION. The step of the machine. -/

namespace Sys2Proof.Machine

/-- One step: the next move of the agenda, or the executing processor's next transition. -/
def step (s : State) : Host.Outcome State Fault Refusal := s.advance

/-- `s` with the table's instruction placed where `step` fetches next (log 8, log 9). -/
def State.withFetchWord (s : State) (nbits w : Nat) : State := s.readyToFetch.placeAtPc (tableBytes nbits w)

end Sys2Proof.Machine
end

