-- ==== Sys2Proof/Safety.lean ====
section
/-! DEFINITION. The terms claims are stated in: the invariant of the machine, the duties of software that claims about a secure
start take as premises (R9, R156 to R171), and what a clean abort leaves. -/

namespace Sys2Proof.Machine

/-- The invariant of the machine: memory in its canonical form and inside the physical addresses (R40); the executing processor
exists (R10); held sets canonical (R30), in `RESET_STATE` too; protected blocks and a `SKINIT` in progress 64-Kbyte aligned
(R33, R46); the BSP running throughout `SKINIT` (R85; that no shutdown
falls there is log 27's DESIGN CHOICE); `MEMCTL` names a controller for every processor (R5); a finished TPM's
conclusion is the verdict on what it received (R35d); `EFER` of the implementation's width everywhere (R23). -/
structure State.Inv (s : State) : Prop where
  memCanonical : s.mem.wf = true
  memInSpace : ∀ c ∈ s.mem, c.1 < s.params.paSpace
  curExists : ∃ p, s.proc? s.cur = some p
  pendingCanonical : ∀ q p, s.proc? q = some p → p.pending.wf = true
  resetPendingCanonical : s.params.resetProc.pending.wf = true
  slDevAligned : ∀ m ∈ s.mcs, m.wf = true
  skinitAligned : ∀ ph, s.skinit = some ph → ph.wf = true
  skinitRunning : s.skinit.isSome = true → s.bsp.run = .running
  memCtlNamed : s.params.memCtlOk s.aps.length s.mcs.length = true
  verdictOfReceived : s.tpm.done = true → s.tpm.validSl = Config.tpmVerdict s.tpm.okSoFar s.tpm.rx
  eferWidth : ∀ q p, s.proc? q = some p → p.msrs.efer.width = s.params.eferWidth
  resetEferWidth : s.params.resetProc.msrs.efer.width = s.params.eferWidth

/-! ### When `SKINIT` has its meaning (R82; log 12, log 29) -/

/-- `SKINIT` is executed within its specified use: by the BSP, outside a guest, in protected mode, with sufficient privilege (R82,
D7). -/
def State.skinitAllowed (s : State) : Prop :=
  s.cur = .bsp ∧ s.bsp.ctx = .host ∧ s.bsp.pe = true ∧ s.bsp.privileged = true

/-! ### Duties of software before `SKINIT` (R156, R157, R162, R164, R166, R169) -/

/-- The header of the SL image is as the image must be built: the entry point lies in the image, after the header (R156). -/
def State.slImageBuilt (s : State) : Prop :=
  let slb := slbBase s.bsp.x.eax
  4 ≤ (s.mem.slEntry slb).toNat ∧ (s.mem.slEntry slb).toNat < (s.mem.slLength slb).toNat

/-- Every AP is in the INIT state (R164). -/
def State.apsHalted (s : State) : Prop := ∀ p ∈ s.aps, p.run = .initHalted

/-- The driver waited (R164, R166). -/
def State.driverWaited (s : State) : Prop := s.bsp.delayKept s.params = true

/-- No INIT IPI is on its way (R169). -/
def State.noInitIpiInFlight (s : State) : Prop := s.ipis = []

/-- What the driver must have brought about when it executes `SKINIT` (R172, steps 1 to 3). -/
def State.readyForSkinit (s : State) : Prop :=
  s.skinitAllowed ∧ s.slImageBuilt ∧ s.apsHalted ∧ s.driverWaited ∧ s.noInitIpiInFlight

/-! ### Protection of a block (R52, D23) -/

/-- Every memory controller protects the 64-Kbyte block at `b`: the premise D23 asks of a claim that an access is refused. -/
def State.protects (s : State) (b : Word) : Prop := ∀ m ∈ s.mcs, m.en = true ∧ m.base = b

/-- An address lies in the 64-Kbyte block at `b` (R46). -/
def inBlock (b : Word) (a : Nat) : Prop := b.toNat ≤ a ∧ a < b.toNat + 0x10000

/-- The block `SKINIT` works on, from its step 2 to its step 8 (R84, R95). -/
def SkinitPhase.block : SkinitPhase → Option Word
  | .step2 _ => none
  | .step3 b _ | .step4 b _ | .step5 b _ | .step6 b | .step7 b | .step8 b => some b

/-! ### SL abort (R170, R171) -/

/-- The clean-up actions on a processor: restore `GIF`, clear `VM_CR`, open its memory controller (R171). The order of the list is a
DESIGN CHOICE of writing (log 33): R170 gives none between `SetGIF` and `WriteVMCR(0)`, so claims take the list in any order. -/
def State.abortMoves (s : State) (q : ProcId) : List Move :=
  [.setGif q, .writeVmcr q 0#64, .clearSlDevEn q (s.params.memCtl q)]

/-- Normal operation on a processor after an abort (R170, R171). -/
def State.restored (s : State) (q : ProcId) : Prop :=
  (∃ p, s.proc? q = some p ∧ p.gif = true ∧ p.msrs.vmcr = .clear) ∧
    ∃ m, s.mcs[s.params.memCtl q]? = some m ∧ m.en = false

/-! ### What moves and transitions can be told apart by -/

/-- The processor on which a move is software's own action; none for a move of another agent. -/
def Move.softwareOf : Move → Option ProcId
  | .setGif q | .writeVmcr q _ | .memWrite q _ _ _ | .memRead q _ _ | .loadSeg q _ _ | .loadGdtr q _ | .setMode q _ _ _
  | .clearSlDevEn q _ | .setPrivilege q _ | .writeGpr q _ _ | .writeFlags q _ _ | .writeEfer q _ | .writeCr3 q _ | .walkPdpe q _
  | .setBreakpoints q _ | .returnExc q | .wait q _ | .sendInitIpi q _ => some q
  | .proc _ | .assertEvent _ _ | .deliver _ _ | .reset _ | .shutdown _ | .acceptInitIpi _ | .startupIpi _ _ | .driveA20m _ _
  | .devRead _ _ _ | .devWrite _ _ _ _ => none

/-- The step's transition is the BSP's own: an instruction or a step of `SKINIT`. -/
def State.bspMoves (s : State) : Prop :=
  (s.agenda = [] ∧ s.cur = .bsp) ∨ ∃ rest, s.agenda = .proc .bsp :: rest

/-- The BSP is about to take a step of `SKINIT`: in the middle of one, or with its bytes at `pc`. -/
def State.skinitNext (s : State) : Prop :=
  s.skinit.isSome = true ∨ (s.bsp.isRunning = true ∧ ∃ n, s.bsp.fetch s.params s.mem s.draws = .ok (.skinit, n))

/-- The next move of the agenda is this one. -/
def State.nextMoveIs (s : State) (m : Move) : Prop := ∃ rest, s.agenda = m :: rest

/-- The next move takes an INIT at `q`, whose state is `p`: the delivery of one held there, or an INIT IPI that reaches it (R115,
R132). -/
def State.takesInit (s : State) (q : ProcId) (p : Proc) : Prop :=
  (∃ src, s.nextMoveIs (.deliver q (.init src)) ∧ p.pending.has (.init src) = true) ∨
    ∃ k i, s.nextMoveIs (.acceptInitIpi k) ∧ s.ipis[k]? = some i ∧ i.target = q

/-- A step's outcome with its next state changed by `f`; a fault or a refusal as it was. -/
def mapNext (f : State → State) : Result → Result
  | .next t => .next (f t)
  | .fault r => .fault r
  | .refused r => .refused r

end Sys2Proof.Machine
end

