-- ==== Sys2Proof/Certificates/Slice0/Obligations.lean ====
section
/-! DEFINITION. The statements for the provers. OBLIGATIONS.json lists them; Tests/Slice0.lean holds a witness for every one that
has hypotheses. -/

open Sys2Proof Sys2Proof.Machine

/-! ### Encoding -/

/-- The byte patterns of R67 and R68 (item GK7, general knowledge: log 9) decode to the two instructions, from the table's
numbers too, and after the SS override prefix of R69. -/
def Obligations.TableWordsDecode : Prop :=
  decode [0x0F#8, 0x01#8, 0xDE#8] = .ok (.skinit, []) ∧ decode [0x0F#8, 0xA2#8] = .ok (.cpuid, []) ∧
    decode [0x36#8, 0x0F#8, 0x01#8, 0xDE#8] = .ok (.skinit, []) ∧ decode [0x36#8, 0x0F#8, 0xA2#8] = .ok (.cpuid, []) ∧
    decodeTableWord 24 0x0F01DE = some .skinit ∧ decodeTableWord 16 0x0FA2 = some .cpuid

/-- Decode and encode agree both ways: an encoded instruction decodes to itself whatever bytes follow, after one SS override prefix
too (log 9), and bytes that decode are of one of the two forms, so no other byte sequence is an instruction (R65, R69). -/
def Obligations.DecodeAgreesWithEncode : Prop :=
  ∀ (bs : List Byte) (i : Instr) (rest : List Byte),
    decode bs = .ok (i, rest) ↔ bs = encode i ++ rest ∨ bs = 0x36#8 :: (encode i ++ rest)

/-- An instruction placed where the executing processor fetches, after an SS override prefix or not, is the one the next step runs:
the bytes pass through memory, segment addressing (16-bit offsets in real mode), A20 masking and the decoder unchanged (R13, R44,
R45, R61, R69), where no translation is on (R4, log 18). The model's own in it: a fetch looks at the limit of `CS` and not at its
attributes (log 32, DESIGN CHOICE, unsafe for code run through a `CS` that is not code), one 36h prefix leaves the instruction as
it is
(log 9, DEDUCED), offsets wrap as the mode says (log 19), and a fetch sees memory at once (log 28). -/
def Obligations.PlacedEncodingIsFetchedAndRun : Prop :=
  ∀ (s : State) (p : Proc) (i : Instr) (pre : List Byte),
    s.agenda = [] → s.midSkinit s.cur = false → s.proc? s.cur = some p → p.run = .running → p.untranslated = true →
    (pre = [] ∨ pre = [0x36#8]) →
    (∀ k < pre.length + i.size, p.segs.cs.within (p.offset (p.pc + BitVec.ofNat 32 k)) = true) →
    step (s.placeAtPc (pre ++ encode i)) = (s.placeAtPc (pre ++ encode i)).execTraced p i pre.length

/-! ### Steps and instructions -/

/-- When the bytes at `pc` decode to an instruction and no debug trap is due, the step is `exec` of it in the state after the fetch:
the draw counter moved if the fetch walked through PDPEs (log 16), `pc` past the prefix if there is one (R69, log 9). Without
either that state is `s`, and nothing is added around the instruction; for `SKINIT` no debug trap is ever due. -/
def Obligations.StepRunsDecodedInstruction : Prop :=
  ∀ (s : State) (p : Proc) (i : Instr) (n : Nat),
    s.agenda = [] → s.midSkinit s.cur = false → s.proc? s.cur = some p → p.run = .running →
    p.nestedUnsupported s.params = false → p.fetch s.params s.mem s.draws = .ok (i, n) →
    (i = .skinit ∨ (p.hitsInstructionBreakpoint = false ∧ p.eflags.trap = false)) →
    step s = exec i ((s.walked p).pastPrefix p n) ∧ (n = 0 → p.walks = false → step s = exec i s)

/-- The debug traps a step adds around `CPUID` (the model's reading of R14 and R86: log 15): an instruction breakpoint is trapped
in place of the instruction; with `TF` set and no such breakpoint a trace trap follows it. What they record is open, but that it is
never `#SX` (R111). -/
def Obligations.CpuidTakesDebugTraps : Prop :=
  (∀ (s : State) (p : Proc) (n : Nat),
    s.agenda = [] → s.midSkinit s.cur = false → s.proc? s.cur = some p → p.run = .running →
    p.nestedUnsupported s.params = false → p.fetch s.params s.mem s.draws = .ok (.cpuid, n) →
    (p.hitsInstructionBreakpoint = true →
      step s = .next ((s.walked p).raise s.cur p (Config.instructionTrap p).notSx)) ∧
    (p.hitsInstructionBreakpoint = false → p.eflags.trap = true →
      ∃ t p', exec .cpuid ((s.walked p).pastPrefix p n) = .next t ∧ t.proc? s.cur = some p' ∧
        step s = .next (t.raise s.cur p' (Config.traceTrap p').notSx))) ∧
    ∀ e : ExcRecord, e.notSx.vector ≠ 30 ∧ e.notSx.code = e.code ∧ e.notSx.savedPc = e.savedPc

/-- `SKINIT` takes no breakpoint and no trace trap: whatever the breakpoints and `TF`, the step is the instruction alone, no
exception is recorded (R86), and no breakpoint and no single-step is left to the SL (R173). That the walks of its fetch write no
memory
is log 18's choice. That it is the same instruction after an
SS override prefix is log 9's reading of R69. -/
def Obligations.SkinitHonoursNoDebugTrap : Prop :=
  ∀ (s : State) (n : Nat),
    s.skinitAllowed → s.agenda = [] → s.skinit = none → s.bsp.run = .running →
    s.bsp.fetch s.params s.mem s.draws = .ok (.skinit, n) →
    ∃ t, step s = .next t ∧ exec .skinit ((s.walked s.bsp).pastPrefix s.bsp n) = .next t ∧ t.bsp.excs = s.bsp.excs ∧
      t.mem = s.mem ∧ t.bsp.breakpoints = [] ∧ t.bsp.eflags.trap = false

/-- Bytes that are none of the table's instructions are refused, never skipped (R65). -/
def Obligations.OtherBytesAreRefused : Prop :=
  ∀ (s : State) (p : Proc) (e : DecodeError),
    s.agenda = [] → s.midSkinit s.cur = false → s.proc? s.cur = some p → p.run = .running →
    p.nestedUnsupported s.params = false → p.fetch s.params s.mem s.draws = .error (.undecodable e) →
    step s = .refused (refusalOf e)

/-- A processor that is halted or shut down executes nothing: with no other agent moving the machine stays as it is (R126,
R133, R145). -/
def Obligations.HaltedProcessorExecutesNothing : Prop :=
  ∀ (s : State) (p : Proc),
    s.agenda = [] → s.midSkinit s.cur = false → s.proc? s.cur = some p → p.run ≠ .running → step s = .next s

/-! ### Reset and INIT -/

/-- After RESET the latch is clear and the BSP runs, for every value of the parameters: in the state reset itself, and after a
RESET at any time (R151, R34, D9). That a RESET of the BSP abandons its SKINIT is log 22's DESIGN CHOICE. -/
def Obligations.ResetClearsLatchAndRunsBsp : Prop :=
  (∀ c : Params, (State.resetOf c).skinitLatch = false ∧ (State.resetOf c).bsp.run = .running) ∧
    ∀ (s : State) (q : ProcId) (p : Proc) (rest : List Move),
      s.agenda = .reset q :: rest → s.proc? q = some p →
      ∃ t, step s = .next t ∧ t.skinitLatch = false ∧ (q = .bsp → t.bsp.run = .running ∧ t.skinit = none)

/-- The values State.reset gives where the spec gives none: the model's choice, the family's values of item GK9 (log 4, log 5). -/
def Obligations.ResetHasFamilyValues : Prop :=
  State.reset.bsp.pc = 0xFFF0#32 ∧ State.reset.bsp.segs.cs.base = 0xFFFF0000#32 ∧ State.reset.bsp.pe = false ∧
    State.reset.bsp.gif = true ∧ State.reset.bsp.msrs.efer = .clear State.reset.params.eferWidth ∧
    State.reset.bsp.msrs.vmcr = .clear ∧
    State.reset.bsp.x.eax = 0#32 ∧ State.reset.bsp.x.edx = State.reset.params.cpuSignature ∧
    State.reset.bsp.gdtr = 0#64 ∧ State.reset.mem = [] ∧ State.reset.bsp.pending = .empty ∧ State.reset.tpm.done = false

/-- The invariant holds right after reset: in `State.reset`, and whatever the parameters are (`RESET_STATE` holding a canonical set
of events and an `EFER` of the implementation's width). -/
def Obligations.ResetSatisfiesInvariant : Prop :=
  (∀ c : Params, c.resetProc.pending.wf = true → c.resetProc.msrs.efer.width = c.eferWidth → (State.resetOf c).Inv) ∧
    State.reset.Inv

/-- Every step keeps the invariant of the machine. Its clause that the BSP is running throughout `SKINIT` rests on log 27's DESIGN
CHOICE that shutdown never falls between two steps of `SKINIT`, which R31 and R125 leave open. -/
def Obligations.StepKeepsInvariant : Prop :=
  ∀ s t : State, s.Inv → step s = .next t → t.Inv

/-- No step changes a parameter, adds or removes a processor or a memory controller (R5, R10, R38). -/
def Obligations.StepKeepsParameters : Prop :=
  ∀ s t : State, step s = .next t →
    t.params = s.params ∧ t.aps.length = s.aps.length ∧ t.mcs.length = s.mcs.length

/-- What `INIT_STATE` leaves alone: held events, x87 and SSE control registers (R152 b, d), `GIF` and `VM_CR` (D6); and what it
makes
of the data segments (R152a). That INIT in general leaves no breakpoint and no single-step (R173 says it of `SKINIT`, R152e only
that
they are re-initialised), and that "most MSRs" (R152c) are all outside the finite list `Config.initMsrs`, are log 20's readings;
that
a real-mode segment has base 16 times its selector and limit `FFFFh` is item GK12 (log 17). -/
def Obligations.InitStateKeeps : Prop :=
  ∀ p : Proc,
    p.initState.pending = p.pending ∧ p.initState.fpctl = p.fpctl ∧ p.initState.gif = p.gif ∧
    p.initState.msrs.vmcr = p.msrs.vmcr ∧ p.initState.msrs.efer.width = p.msrs.efer.width ∧
    p.initState.breakpoints = [] ∧ p.initState.eflags.trap = false ∧ p.initHalt.run = .initHalted ∧
    p.initHalt.pending = p.pending ∧
    (∀ n, n ∉ Config.initMsrs → p.initState.msrs.other.lookup n = p.msrs.other.lookup n) ∧
    ∀ r : SegReg, r ≠ .cs → r ≠ .ss →
      (p.initState.segs.get r).base.toNat = 16 * (p.initState.segs.get r).sel.toNat ∧
      (p.initState.segs.get r).limit = 0xFFFF#32 ∧ (p.initState.segs.get r).attr.wide = false

/-! ### SKINIT -/

/-- SKINIT within its use, nobody else moving, completes in this state and no other (R84, R108): what `INIT_STATE` and
`SKINIT_MSR_EFFECT` give, under what the eight steps write; that it leaves the BSP privileged is item GK11 (log 29). That the delay
counts as kept where the busy indication never cleared is log 13's reading. -/
def Obligations.SkinitCompletesInEndState : Prop :=
  ∀ s : State, s.skinitAllowed → s.agenda = [] →
    let slb := s.bsp.x.eax &&& 0xFFFF0000#32
    let init := s.bsp.initState
    let image := s.mem.readBytes slb.toNat (s.mem.read16 (slb.toNat + 2)).toNat
    let hsOk :=
      if s.aps.isEmpty then true
      else if s.bsp.delayKept s.params then s.aps.all (·.isInitHalted) else Config.freeBool (s.draws + 1)
    exec .skinit s = .next
      { s with
        bsp := { init with
          x := { eax := slb, ecx := 0#32, edx := s.params.cpuSignature, ebx := 0#32, esp := slb + 0x10000#32
                 ebp := 0#32, esi := 0#32, edi := 0#32 }
          upper := Config.freeRegs s.draws
          further := Config.freeFurther s.draws
          pc := slb + (s.mem.read16 slb.toNat).setWidth 32
          gif := false
          pe := true
          pg := false
          ctx := .host
          privileged := true
          segs := { init.segs with cs := .flatCode, ss := .flatStack }
          msrs := { efer := .clear s.bsp.msrs.efer.width
                    vmcr := { s.bsp.msrs.vmcr with dpd := true, rInit := true, disA20m := true }
                    other := Config.skinitMsrEffect s.bsp.msrs }
          run := .running }
        mcs := s.mcs.map fun _ => { en := true, base := slb }
        skinitLatch := true
        skinit := none
        tpm := { rx := image, done := true, okSoFar := hsOk, validSl := hsOk && Config.tpmAccepts image }
        draws := s.draws + 2 }

/-- General registers after SKINIT: five cleared, EDX the signature, EAX the operand with bits 15:0 cleared (R90, R95). -/
def Obligations.SkinitGeneralRegisters : Prop :=
  ∀ s : State, s.skinitAllowed → s.agenda = [] →
    ∃ t, exec .skinit s = .next t ∧
      t.bsp.x.ecx = 0#32 ∧ t.bsp.x.ebx = 0#32 ∧ t.bsp.x.ebp = 0#32 ∧ t.bsp.x.esi = 0#32 ∧ t.bsp.x.edi = 0#32 ∧
      t.bsp.x.edx = s.params.cpuSignature ∧
      t.bsp.x.eax.extractLsb' 16 16 = s.bsp.x.eax.extractLsb' 16 16 ∧ t.bsp.x.eax.extractLsb' 0 16 = 0#16 ∧
      t.bsp.x.eax.toNat ≤ 0xFFFF0000

/-- Mode and segments after SKINIT: flat 32-bit protected mode, paging off; CS and SS as given; DS, ES, FS and GS as `INIT_STATE`
leaves them (R89). -/
def Obligations.SkinitEntersFlatProtectedMode : Prop :=
  ∀ s : State, s.skinitAllowed → s.agenda = [] →
    ∃ t, exec .skinit s = .next t ∧ t.bsp.pe = true ∧ t.bsp.pg = false ∧
      t.bsp.segs.cs.sel = 0x0008#16 ∧ t.bsp.segs.cs.base = 0#32 ∧ t.bsp.segs.cs.limit = 0xFFFFFFFF#32 ∧
      t.bsp.segs.cs.attr = { code := true, readable := true, writable := false, expandUp := true, wide := true } ∧
      t.bsp.segs.ss.sel = 0x0010#16 ∧ t.bsp.segs.ss.base = 0#32 ∧ t.bsp.segs.ss.limit = 0xFFFFFFFF#32 ∧
      t.bsp.segs.ss.attr = { code := false, readable := true, writable := true, expandUp := true, wide := true } ∧
      t.bsp.segs.ds = s.bsp.initState.segs.ds ∧ t.bsp.segs.es = s.bsp.initState.segs.es ∧
      t.bsp.segs.fs = s.bsp.initState.segs.fs ∧ t.bsp.segs.gs = s.bsp.initState.segs.gs

/-- After SKINIT an offset through CS or SS is the physical address, whatever A20M says (R43, R27); an offset of a 16-bit
real-mode data segment is `16 * sel + offset` (GK12, log 17) modulo `2^32`, which is log 19's choice. -/
def Obligations.SkinitFlatAddressing : Prop :=
  ∀ s : State, s.skinitAllowed → s.agenda = [] →
    ∃ t, exec .skinit s = .next t ∧
      ∀ (m : Memory) (d : Nat) (off : Word),
        t.bsp.physical t.params m d (t.bsp.linear .cs off) = off.toNat ∧
        t.bsp.physical t.params m d (t.bsp.linear .ss off) = off.toNat ∧
        t.bsp.physical t.params m d (t.bsp.linear .ds off) = (16 * t.bsp.segs.ds.sel.toNat + off.toNat) % 2 ^ 32

/-- EFER is cleared, the three VM_CR flags are set whatever they held, and the other MSRs are what `SKINIT_MSR_EFFECT` makes of
the file before (R92, R93, R94). -/
def Obligations.SkinitWritesEferAndVmCr : Prop :=
  ∀ s : State, s.skinitAllowed → s.agenda = [] →
    ∃ t, exec .skinit s = .next t ∧ t.bsp.msrs.efer.bits.toNat = 0 ∧
      t.bsp.msrs.efer.width = s.bsp.msrs.efer.width ∧
      t.bsp.msrs.vmcr.dpd = true ∧ t.bsp.msrs.vmcr.rInit = true ∧ t.bsp.msrs.vmcr.disA20m = true ∧
      t.bsp.msrs.other = Config.skinitMsrEffect s.bsp.msrs

/-- Every memory controller protects the new SLB; a block an earlier SKINIT protected no longer is unless it is the same (R96,
R107c). -/
def Obligations.SkinitProtectsSlbEverywhere : Prop :=
  ∀ s : State, s.skinitAllowed → s.agenda = [] →
    ∃ t, exec .skinit s = .next t ∧ t.mcs.length = s.mcs.length ∧ t.protects t.bsp.x.eax ∧
      t.bsp.x.eax = s.bsp.x.eax &&& 0xFFFF0000#32

/-- The handshake (R97): with one processor it succeeds; with the delay kept it is whether every AP is in the INIT state; without
the
delay it is a free value. The latch is set in every case, and SKINIT goes on; the TPM is told the result (R100, R101). When the
delay is kept is log 13's reading of R166. -/
def Obligations.SkinitHandshakeReachesTpm : Prop :=
  ∀ s : State, s.skinitAllowed → s.agenda = [] →
    ∃ t, exec .skinit s = .next t ∧ t.skinitLatch = true ∧ t.tpm.done = true ∧
      (s.aps = [] → t.tpm.okSoFar = true) ∧
      (s.aps ≠ [] → s.bsp.delayKept s.params = true →
        (t.tpm.okSoFar = true ↔ ∀ p ∈ s.aps, p.run = .initHalted)) ∧
      (s.aps ≠ [] → s.bsp.delayKept s.params = false → t.tpm.okSoFar = Config.freeBool (s.draws + 1)) ∧
      (t.tpm.okSoFar = false → t.tpm.validSl = false) ∧
      (t.tpm.okSoFar = true → t.tpm.validSl = Config.tpmAccepts t.tpm.rx)

/-- The TPM receives exactly the `length` bytes from offset 0 of the SLB in ascending order, `length` the little-endian second
header word (R98, R99). -/
def Obligations.SkinitTransmitsImage : Prop :=
  ∀ s : State, s.skinitAllowed → s.agenda = [] →
    ∃ t, exec .skinit s = .next t ∧
      t.tpm.rx.length = (s.mem.read (t.bsp.x.eax.toNat + 2)).toNat + 256 * (s.mem.read (t.bsp.x.eax.toNat + 3)).toNat ∧
      ∀ k, (h : k < t.tpm.rx.length) → t.tpm.rx[k] = s.mem.read (t.bsp.x.eax.toNat + k)

/-- Stack and jump: ESP is the first byte beyond the SLB, modulo `2^32` (R103 with the spec's decisions D2, D3); `pc` is the SLB
base
plus the unsigned little-endian first header word (D1), without carry, in `Running` (R104); nothing of the header is checked
(R105). -/
def Obligations.SkinitSetsStackAndEntryPoint : Prop :=
  ∀ s : State, s.skinitAllowed → s.agenda = [] →
    ∃ t, exec .skinit s = .next t ∧ t.bsp.run = .running ∧
      t.bsp.x.esp.toNat = (t.bsp.x.eax.toNat + 0x10000) % 2 ^ 32 ∧
      t.bsp.pc.toNat = t.bsp.x.eax.toNat +
        ((s.mem.read t.bsp.x.eax.toNat).toNat + 256 * (s.mem.read (t.bsp.x.eax.toNat + 1)).toNat)

/-- GIF is 0 after SKINIT whatever it was, and what was pending is still pending: nothing is delivered and nothing lost (R102,
R120a). -/
def Obligations.SkinitClearsGifKeepsPending : Prop :=
  ∀ s : State, s.skinitAllowed → s.agenda = [] →
    ∃ t, exec .skinit s = .next t ∧ t.bsp.gif = false ∧ t.bsp.pending = s.bsp.pending ∧
      t.bsp.excs = s.bsp.excs ∧ ∀ e, s.bsp.pending.has e = true → t.deliver .bsp e = .next t

/-- The frame of SKINIT, in whatever step it stands when the outcome is a next state: every byte of memory, every AP, the
parameters, the IPIs in flight, the answers last given to a device and to a read, and the agenda are unchanged; so are the BSP's x87
and SSE control registers, held events, VM_CR's other field, context and the width of EFER (R91, R108, R24, R23). Its APIC is as
`INIT_STATE` gives it, and where that clears the busy indication the wait of R166 starts, else it is kept (log 13); that it is kept,
and the A20M input and the exception record with it, is log 20's reading. -/
def Obligations.SkinitFrame : Prop :=
  ∀ s t : State, exec .skinit s = .next t →
    (∀ a, t.mem.read a = s.mem.read a) ∧ t.aps = s.aps ∧ t.params = s.params ∧ t.cur = s.cur ∧ t.ipis = s.ipis ∧
    t.device = s.device ∧ t.lastRead = s.lastRead ∧ t.agenda = s.agenda ∧ t.bsp.fpctl = s.bsp.fpctl ∧
    t.bsp.pending = s.bsp.pending ∧ t.bsp.msrs.vmcr.other = s.bsp.msrs.vmcr.other ∧
    t.bsp.msrs.efer.width = s.bsp.msrs.efer.width ∧ t.bsp.apicBusy = s.bsp.initState.apicBusy ∧
    t.bsp.sinceClear = (if s.bsp.apicBusy && !t.bsp.apicBusy then some 0 else s.bsp.sinceClear) ∧
    t.bsp.ctx = s.bsp.ctx ∧ t.bsp.a20m = s.bsp.a20m ∧ t.bsp.excs = s.bsp.excs

/-- SKINIT on an AP, inside a guest, in real mode, and without sufficient privilege is refused, each by its own name (R82, R106,
D7).
That privilege is one bit of the processor is log 29's reading of D7. -/
def Obligations.SkinitRefusedOutsideItsUse : Prop :=
  (∀ (s : State) (i : Nat), s.cur = .ap i → exec .skinit s = .refused .skinitOnAp) ∧
    (∀ (s : State) (n : Bool), s.cur = .bsp → s.bsp.ctx = .guest n → exec .skinit s = .refused .skinitInGuest) ∧
    (∀ s : State, s.cur = .bsp → s.bsp.ctx = .host → s.bsp.pe = false → exec .skinit s = .refused .skinitInRealMode) ∧
    ∀ s : State, s.cur = .bsp → s.bsp.ctx = .host → s.bsp.pe = true → s.bsp.privileged = false →
      exec .skinit s = .refused .skinitUnprivileged

/-- The eight steps taken one by one, each its own transition of the BSP, end in the state SKINIT taken at once ends in (R87,
D16). -/
def Obligations.SkinitStepwiseEqualsWhole : Prop :=
  ∀ s t u : State, s.skinitAllowed → s.agenda = [] → exec .skinit s = .next t →
    exec .skinit { s with agenda := List.replicate 7 (.proc .bsp) } = .next u →
    u.skinit = some (.step2 (s.bsp.delayKept s.params)) ∧ Sys2Proof.core.run 7 u = .next t

/-- In the middle of SKINIT the BSP delivers nothing: an event that asserts is held, and one that is held stays held (R85, R120). -/
def Obligations.NothingDeliveredDuringSkinit : Prop :=
  ∀ (s : State) (ph : SkinitPhase) (e : Event) (rest : List Move), s.skinit = some ph →
    (s.agenda = .assertEvent .bsp e :: rest →
      step s = .next { s with agenda := rest, bsp := { s.bsp with pending := s.bsp.pending.hold e } }) ∧
    (s.agenda = .deliver .bsp e :: rest → step s = .next { s with agenda := rest })

/-- Under SL_DEV the SL image cannot be changed. Whatever accesses devices make one after the other while every controller protects
the block, the image, the header and the protection stay (R52). And from step 2 of `SKINIT` to step 8, with every AP in the INIT
state, no step of any agent changes the block or its protection, so that its bytes are the same when the image is read and when the
entry word is (R55, R87): a RESET or a Startup IPI alone ends that. -/
def Obligations.DevicesCannotChangeProtectedImage : Prop :=
  (∀ (ms : List Move) (s t : State) (slb : Word),
    (∀ m ∈ ms, (∃ c a n, m = .devRead c a n) ∨ ∃ c a n v, m = .devWrite c a n v) →
    s.protects slb → s.agenda = ms → Sys2Proof.core.run ms.length s = .next t →
    t.protects slb ∧ (∀ a, inBlock slb a → t.mem.read a = s.mem.read a) ∧ t.mem.slImage slb = s.mem.slImage slb) ∧
  ∀ (s t : State) (ph : SkinitPhase) (slb : Word),
    s.skinit = some ph → ph.block = some slb → s.protects slb → s.apsHalted →
    (∀ q, ¬ s.nextMoveIs (.reset q)) → (∀ q v, ¬ s.nextMoveIs (.startupIpi q v)) → step s = .next t →
    t.protects slb ∧ t.apsHalted ∧ (∀ a, inBlock slb a → t.mem.read a = s.mem.read a) ∧
      t.mem.slImage slb = s.mem.slImage slb ∧ (t.skinit = none ∨ ∃ ph', t.skinit = some ph' ∧ ph'.block = some slb)

/-- No state of the machine depends on the TPM (R101, D24): two runs of a step that differ only in what the TPM holds differ in
nothing else afterwards. -/
def Obligations.NothingDependsOnTpm : Prop :=
  ∀ (s : State) (u : Tpm), ∃ v : Tpm,
    step { s with tpm := u } = mapNext (fun t => { t with tpm := v }) (step s)

/-- Only SKINIT reaches the TPM (R99): a step that changes what the TPM holds is a transition of the BSP that is SKINIT. That
a RESET keeps what the TPM holds is log 22's DESIGN CHOICE. -/
def Obligations.OnlySkinitReachesTpm : Prop :=
  ∀ s t : State, step s = .next t → t.tpm ≠ s.tpm → s.bspMoves ∧ s.skinitNext

/-- The platform's record that the BSP executed SKINIT is set by SKINIT alone and cleared by RESET alone (R34, D9); and a
step that changes what a memory controller holds is SKINIT on the BSP, software's ClearSLDevEn or a RESET: hardware never clears
`SL_DEV_EN` by itself (R96, R141, R151). -/
def Obligations.LatchSetBySkinitClearedByReset : Prop :=
  ∀ s t : State, step s = .next t →
    (s.skinitLatch = false → t.skinitLatch = true → s.bspMoves ∧ s.skinitNext) ∧
    (s.skinitLatch = true → t.skinitLatch = false → ∃ q, s.nextMoveIs (.reset q)) ∧
    (t.mcs ≠ s.mcs → (s.bspMoves ∧ s.skinitNext) ∨ (∃ q m, s.nextMoveIs (.clearSlDevEn q m)) ∨ ∃ q, s.nextMoveIs (.reset q))

/-! ### CPUID -/

/-- CPUID tells whether nested paging is supported: with EAX = NP_FN, bit NP_BIT of NP_REG is NP_SUPPORTED (R79); every other bit of
the four registers, and all of them for any other function, is the free value; no flag is written and no exception taken. -/
def Obligations.CpuidReportsNestedPaging : Prop :=
  ∀ (s : State) (p : Proc), s.proc? s.cur = some p →
    ∃ t p', exec .cpuid s = .next t ∧ t.proc? s.cur = some p' ∧ p'.eflags = p.eflags ∧ p'.excs = p.excs ∧
      (p.x.eax = s.params.npFn →
        (p'.x.get s.params.npReg.gpr).getLsbD s.params.npBit.val = s.params.npSupported) ∧
      ∀ (r : CpuidReg) (k : Nat),
        (p.x.eax ≠ s.params.npFn ∨ r ≠ s.params.npReg ∨ k ≠ s.params.npBit.val) →
        (p'.x.get r.gpr).getLsbD k =
          (match r with
            | .eax => Config.freeWord s.draws 0
            | .ebx => Config.freeWord s.draws 1
            | .ecx => Config.freeWord s.draws 2
            | .edx => Config.freeWord s.draws 3).getLsbD k

/-- The frame of CPUID: `pc` is past its two bytes, modulo the mode's offset width (log 19); every register but EAX, EBX,
ECX, EDX (and the bits above them) and `pc`, all flags, segments, control and special registers, held events and the exception
record of the executing processor are unchanged; so are the other processors, every byte of memory, and all shared state (R79). -/
def Obligations.CpuidFrame : Prop :=
  ∀ (s t : State) (p : Proc), s.proc? s.cur = some p → exec .cpuid s = .next t →
    (∃ p', t.proc? s.cur = some p' ∧ p'.pc = p.offset (p.pc + 2#32) ∧
      p'.x.esp = p.x.esp ∧ p'.x.ebp = p.x.ebp ∧ p'.x.esi = p.x.esi ∧ p'.x.edi = p.x.edi ∧
      p'.upper.esp = p.upper.esp ∧ p'.upper.ebp = p.upper.ebp ∧ p'.upper.esi = p.upper.esi ∧ p'.upper.edi = p.upper.edi ∧
      { p' with x := p.x, upper := p.upper, pc := p.pc } = p) ∧
    (∀ q, q ≠ s.cur → t.proc? q = s.proc? q) ∧ (∀ a, t.mem.read a = s.mem.read a) ∧
    t.mcs = s.mcs ∧ t.tpm = s.tpm ∧ t.skinitLatch = s.skinitLatch ∧ t.skinit = s.skinit ∧ t.ipis = s.ipis ∧
    t.params = s.params ∧ t.cur = s.cur ∧ t.device = s.device ∧ t.lastRead = s.lastRead ∧ t.agenda = s.agenda

/-! ### Events and the gates -/

/-- With GIF clear no event of the four kinds is delivered: a delivery leaves everything as it is, and an event that asserts is
held and nothing else changes (R118). -/
def Obligations.ClearGifHoldsEvents : Prop :=
  ∀ (s : State) (q : ProcId) (p : Proc) (e : Event) (rest : List Move), s.proc? q = some p → p.gif = false →
    (s.agenda = .deliver q e :: rest → step s = .next { s with agenda := rest }) ∧
    (s.agenda = .assertEvent q e :: rest →
      ∃ t p', step s = .next t ∧ t.proc? q = some p' ∧ p'.pending.has e = true ∧
        (∀ e', p.pending.has e' = true → p'.pending.has e' = true) ∧ { p' with pending := p.pending } = p ∧
        t.mem = s.mem)

/-- A held event is not lost while GIF is clear: after any step that gives a next state and is no RESET of that processor, it is
still held (R118). -/
def Obligations.HeldEventsAreNotLost : Prop :=
  ∀ (s t : State) (q : ProcId) (p p' : Proc) (e : Event), step s = .next t →
    s.proc? q = some p → t.proc? q = some p' → p.gif = false → p.pending.has e = true →
    ¬ s.nextMoveIs (.reset q) → p'.pending.has e = true

/-- A device interrupt has the second gate EFLAGS.IF; NMI and SMI have not: at an instruction boundary with GIF set they are
delivered whatever IF is, and leave the set (R119); nested paging, where it is used, being there (R78). What a delivery keeps, and
that it leaves no record to return by (R127), is log 10's choice. -/
def Obligations.DeviceInterruptsGatedByIf : Prop :=
  ∀ (s : State) (q : ProcId) (p : Proc) (rest : List Move),
    s.proc? q = some p → p.run = .running → s.midSkinit q = false → p.gif = true →
    (∀ v, s.agenda = .deliver q (.device v) :: rest → p.eflags.intr = false → step s = .next { s with agenda := rest }) ∧
    (∀ v, s.agenda = .deliver q (.device v) :: rest → p.eflags.intr = true → p.pending.has (.device v) = true →
      p.nestedUnsupported s.params = false →
      step s = .next ({ s with agenda := rest }.deliverEvent q (p.drop (.device v)) (.device v))) ∧
    (s.agenda = .deliver q .nmi :: rest → p.pending.nmi = true → p.nestedUnsupported s.params = false →
      step s = .next ({ s with agenda := rest }.deliverEvent q { p with pending := { p.pending with nmi := false } } .nmi)) ∧
    (s.agenda = .deliver q .smi :: rest → p.pending.smi = true → p.nestedUnsupported s.params = false →
      step s = .next ({ s with agenda := rest }.deliverEvent q { p with pending := { p.pending with smi := false } } .smi))

/-- INIT redirection (R111 to R113, R115): a due INIT, by signal or by IPI, with R_INIT set is removed and taken as #SX, vector 30,
error code 1, saved pc the instruction not yet executed; the INIT IPIs held at the processor are accepted with it (R30, R132; log
30). And this is the one cause of #SX: any step after which a processor's record is one #SX longer, but a RESET there, took an INIT
there so: its move is the delivery of a held INIT there, or an INIT IPI that reaches it (R111, R112). That GIF and VM_CR are as
before after the entry is log 10's reading of R15 and R24. -/
def Obligations.RedirectedInitRaisesSx : Prop :=
  (∀ (s : State) (q : ProcId) (p : Proc) (src : InitSource) (rest : List Move),
    s.agenda = .deliver q (.init src) :: rest → s.proc? q = some p → p.run = .running → s.midSkinit q = false →
    p.gif = true → p.ctx = .host → p.pending.has (.init src) = true → p.msrs.vmcr.rInit = true →
    ∃ t p', step s = .next t ∧ t.proc? q = some p' ∧
      t = ({ s with agenda := rest }.retire (s.withoutHeldAt q)).raise q
        { p.settle s.ipis (s.withoutHeldAt q) q with pending := p.pending.drop (.init src) }
        { vector := 30, code := some 1, savedPc := p.pc } ∧
      p'.excs = { vector := 30, code := some 1, savedPc := p.pc } :: p.excs ∧
      p'.pending.has (.init src) = false ∧ p'.gif = true ∧ p'.msrs.vmcr = p.msrs.vmcr) ∧
    ∀ (s t : State) (q : ProcId) (p p' : Proc) (e : ExcRecord), step s = .next t →
      s.proc? q = some p → t.proc? q = some p' → p'.excs = e :: p.excs → e.vector = 30 → ¬ s.nextMoveIs (.reset q) →
      s.takesInit q p ∧ e = { vector := 30, code := some 1, savedPc := p.pc } ∧ p.msrs.vmcr.rInit = true ∧ p.gif = true ∧
        p.run = .running

/-- An INIT with R_INIT clear is taken as an INIT (R115, R132): the processor is re-initialised with its held events kept less this
one, and where the delivery takes the IPI form it is halted in the INIT state. There is one held INIT (R30); where it came both ways,
which form the delivery takes is the move's to say, by log 11's DESIGN CHOICE, so one taken as the signal does not halt the
processor although it came by IPI too, and the INIT IPIs held there are accepted with it all the same. That all INIT IPIs held at it
are accepted with it, in either form, and their senders settle, is log 30's reading of R30 and R132; nothing else of another
processor changes. -/
def Obligations.UnredirectedInitReinitialises : Prop :=
  ∀ (s : State) (q : ProcId) (p : Proc) (src : InitSource) (rest : List Move),
    s.agenda = .deliver q (.init src) :: rest → s.proc? q = some p → p.run = .running → s.midSkinit q = false →
    p.gif = true → p.ctx = .host → p.pending.has (.init src) = true → p.msrs.vmcr.rInit = false →
    let p0 := p.settle s.ipis (s.withoutHeldAt q) q
    ∃ t p', step s = .next t ∧ t.proc? q = some p' ∧ p'.pending = p.pending.drop (.init src) ∧
      (src = .signal → p' = (p0.drop (.init .signal)).initState) ∧
      (src = .ipi → p' = { (p0.drop (.init .ipi)).initState with run := .initHalted }) ∧
      ((∀ i ∈ s.ipis, i.sender ≠ q) → p0 = p) ∧
      (∀ q', q' ≠ q → t.proc? q' = (s.proc? q').map fun p1 => p1.settle s.ipis (s.withoutHeldAt q) q') ∧
      t.ipis = s.withoutHeldAt q ∧ t.mem = s.mem

/-- An INIT that comes due while a guest runs has no meaning in the spec and is refused (R130): one that was held, and an INIT IPI
that arrives. (An INIT that only asserts in a guest is held: log 34.) -/
def Obligations.InitInGuestIsRefused : Prop :=
  ∀ (s : State) (q : ProcId) (p : Proc) (n : Bool),
    s.proc? q = some p → p.run = .running → s.midSkinit q = false → p.gif = true → p.ctx = .guest n →
    (∀ (src : InitSource) (rest : List Move), s.agenda = .deliver q (.init src) :: rest → p.pending.has (.init src) = true →
      step s = .refused .initInGuest) ∧
    ∀ (k : Nat) (i : Ipi) (rest : List Move), s.agenda = .acceptInitIpi k :: rest → s.ipis[k]? = some i → i.target = q →
      step s = .refused .initInGuest

/-- A return from a handler puts control back at the saved pc of the latest exception (R127). What else it restores is not in the
source: that pending, GIF, VM_CR and memory are kept, that the record loses its latest entry, and that no event's delivery has an
entry in it, so that nothing returns from an event's handler, is log 10's choice. -/
def Obligations.ReturnResumesAtSavedPc : Prop :=
  ∀ (s : State) (q : ProcId) (p : Proc) (e : ExcRecord) (rest : List Move),
    s.agenda = .returnExc q :: rest → s.proc? q = some p → p.run = .running → s.midSkinit q = false →
    p.nestedUnsupported s.params = false → p.excs.head? = some e →
    ∃ t p', step s = .next t ∧ t.proc? q = some p' ∧ p'.pc = e.savedPc ∧ p'.pending = p.pending ∧ p'.gif = p.gif ∧
      p'.msrs.vmcr = p.msrs.vmcr ∧ p'.excs = p.excs.tail ∧ t.mem = s.mem

/-! ### What only certain events can do -/

/-- Hardware never sets GIF: a step after which a processor's clear GIF is set is software's SetGIF there, or a RESET there
(R123). -/
def Obligations.GifSetOnlyBySoftwareOrReset : Prop :=
  ∀ (s t : State) (q : ProcId) (p p' : Proc), step s = .next t →
    s.proc? q = some p → t.proc? q = some p' → p.gif = false → p'.gif = true →
    s.nextMoveIs (.setGif q) ∨ s.nextMoveIs (.reset q)

/-- VM_CR is written by software there, by a Startup IPI there, by RESET there, or by SKINIT on the BSP (R24). -/
def Obligations.VmCrWritersAreListed : Prop :=
  ∀ (s t : State) (q : ProcId) (p p' : Proc), step s = .next t →
    s.proc? q = some p → t.proc? q = some p' → p'.msrs.vmcr ≠ p.msrs.vmcr →
    (∃ v, s.nextMoveIs (.writeVmcr q v)) ∨ (∃ v, s.nextMoveIs (.startupIpi q v)) ∨ s.nextMoveIs (.reset q) ∨
      (q = .bsp ∧ s.bspMoves ∧ s.skinitNext)

/-- A processor shut down with GIF clear stays so, its registers as they are, until a RESET there (R126). -/
def Obligations.ShutdownLeftOnlyByReset : Prop :=
  ∀ (s t : State) (q : ProcId) (p p' : Proc), s.Inv → step s = .next t →
    s.proc? q = some p → t.proc? q = some p' → p.run = .shutdown → p.gif = false → ¬ s.nextMoveIs (.reset q) →
    p'.run = .shutdown ∧ p'.gif = false ∧ p'.x = p.x ∧ p'.pc = p.pc ∧ p'.segs = p.segs ∧ p'.msrs = p.msrs

/-- A processor in the INIT state stays in it, its registers as they are, until a Startup IPI or a RESET there (R133, R145a). -/
def Obligations.InitStateLeftOnlyByStartupIpi : Prop :=
  ∀ (s t : State) (q : ProcId) (p p' : Proc), s.Inv → step s = .next t →
    s.proc? q = some p → t.proc? q = some p' → p.run = .initHalted →
    (∀ v, ¬ s.nextMoveIs (.startupIpi q v)) → ¬ s.nextMoveIs (.reset q) →
    p'.run = .initHalted ∧ p'.x = p.x ∧ p'.pc = p.pc ∧ p'.segs = p.segs ∧ p'.msrs = p.msrs ∧
      ∀ e, p.pending.has e = true → p'.pending.has e = true

/-! ### Multiprocessor start -/

/-- INIT IPIs and the busy indication (R132). Issuing one, to any number of targets, sets the sender's indication. One that
reaches a
target where an INIT is due is accepted: the INIT is taken there at once, and the sender's indication clears, and the count of R166
starts, exactly where no other INIT IPI of that sender is in flight; while one is, the indication stays as it was. One that reaches
a target where no INIT is due is held there, and the sender stays as it was (R118, R121; log 30). And whatever step clears a busy
indication, an INIT, a delivery or a RESET at the sender too, the count of R166 starts with it (log 13). -/
def Obligations.InitIpiAndBusyIndication : Prop :=
  (∀ (s : State) (q : ProcId) (targets : List ProcId) (p : Proc) (rest : List Move),
    s.agenda = .sendInitIpi q targets :: rest → s.proc? q = some p → p.run = .running → s.midSkinit q = false →
    p.nestedUnsupported s.params = false → targets ≠ [] →
    ∃ t p', step s = .next t ∧ t.proc? q = some p' ∧ p'.apicBusy = true ∧
      t.ipis = s.ipis ++ targets.map fun x => { sender := q, target := x, held := false }) ∧
  (∀ (s : State) (k : Nat) (i : Ipi) (p p1 : Proc) (rest : List Move),
    s.agenda = .acceptInitIpi k :: rest → s.ipis[k]? = some i → s.proc? i.sender = some p → s.proc? i.target = some p1 →
    p1.run = .running → s.midSkinit i.target = false → p1.gif = true → p1.ctx = .host →
    ∃ t p' p1', step s = .next t ∧ t.proc? i.sender = some p' ∧ t.proc? i.target = some p1' ∧
      t.ipis = (s.ipis.eraseIdx k).filter (fun j => !(j.held && decide (j.target = i.target))) ∧
      (p1.msrs.vmcr.rInit = false → p1' = ((p1.settle s.ipis t.ipis i.target).drop (.init .ipi)).initHalt) ∧
      (p1.msrs.vmcr.rInit = true → p1'.excs = { vector := 30, code := some 1, savedPc := p1.pc } :: p1.excs) ∧
      (i.sender ≠ i.target → (∃ j ∈ t.ipis, j.sender = i.sender) → p' = p) ∧
      (i.sender ≠ i.target → (∀ j ∈ t.ipis, j.sender ≠ i.sender) → p' = { p with apicBusy := false, sinceClear := some 0 })) ∧
  (∀ (s : State) (k : Nat) (i : Ipi) (p p1 : Proc) (rest : List Move),
    s.agenda = .acceptInitIpi k :: rest → s.ipis[k]? = some i → s.proc? i.sender = some p → s.proc? i.target = some p1 →
    (p1.run ≠ .running ∨ s.midSkinit i.target = true ∨ p1.gif = false) →
    ∃ t p' p1', step s = .next t ∧ t.proc? i.sender = some p' ∧ t.proc? i.target = some p1' ∧
      t.ipis = s.ipis.set k { i with held := true } ∧ p'.apicBusy = p.apicBusy ∧ p'.sinceClear = p.sinceClear ∧
      p1' = p1.hold (.init .ipi) ∧ p1'.pending.has (.init .ipi) = true) ∧
  ∀ (s t : State) (q : ProcId) (p p' : Proc), step s = .next t → s.proc? q = some p → t.proc? q = some p' →
    p.apicBusy = true → p'.apicBusy = false → p'.sinceClear = some 0

/-- A Startup IPI starts a halted processor at offset 0 of physical page `vector * 1000h`, in real mode, so that its first fetch
is at
that physical address (R134, R135, R57): general registers, flags, data segments, EFER and the other MSRs, x87 and SSE control
registers, breakpoints and held events as they were (R137, D17). That its sender is touched in nothing is log 30's choice. -/
def Obligations.StartupIpiStartsHaltedProcessor : Prop :=
  ∀ (s : State) (q : ProcId) (p : Proc) (v : Byte) (rest : List Move),
    s.agenda = .startupIpi q v :: rest → s.proc? q = some p → p.run = .initHalted → s.midSkinit q = false →
    ∃ t p', step s = .next t ∧ t.proc? q = some p' ∧ p'.run = .running ∧ p'.pe = false ∧ p'.pg = false ∧
      p'.pc = 0#32 ∧ p'.segs.cs.base.toNat = v.toNat * 0x1000 ∧
      (∀ (m : Memory) (d : Nat), p'.physical t.params m d (p'.linear .cs p'.pc) = v.toNat * 0x1000) ∧
      p'.x = p.x ∧ p'.eflags = p.eflags ∧ { p'.segs with cs := p.segs.cs } = p.segs ∧ p'.gdtr = p.gdtr ∧
      p'.msrs.efer = p.msrs.efer ∧ p'.msrs.other = p.msrs.other ∧ p'.fpctl = p.fpctl ∧
      p'.breakpoints = p.breakpoints ∧ p'.pending = p.pending ∧ (∀ q', q' ≠ q → t.proc? q' = s.proc? q') ∧ t.mem = s.mem

/-- The secure part of the answer (R136): GIF cleared and the three flags set if and only if the latch is set, else both as they
were; all else of the processor is as without the latch, and the AP gets no SL_DEV, no TPM transfer and no protected mode. -/
def Obligations.StartupIpiSecuresIffLatched : Prop :=
  ∀ (s : State) (q : ProcId) (p : Proc) (v : Byte) (rest : List Move),
    s.agenda = .startupIpi q v :: rest → s.proc? q = some p → p.run = .initHalted → s.midSkinit q = false →
    ∃ t p', step s = .next t ∧ t.proc? q = some p' ∧
      (s.skinitLatch = true → p'.gif = false ∧
        p'.msrs.vmcr = { p.msrs.vmcr with dpd := true, rInit := true, disA20m := true }) ∧
      (s.skinitLatch = false → p'.gif = p.gif ∧ p'.msrs.vmcr = p.msrs.vmcr) ∧
      { p' with gif := p.gif, msrs := { p'.msrs with vmcr := p.msrs.vmcr } } = p.ordinaryStartup v s.draws ∧
      p'.pe = false ∧ t.mcs = s.mcs ∧ t.tpm = s.tpm

/-- A Startup IPI to a processor that is not in the INIT state has no effect (R134, D18), on its sender neither (log 30). -/
def Obligations.StartupIpiIgnoredElsewhere : Prop :=
  ∀ (s : State) (q : ProcId) (p : Proc) (v : Byte) (rest : List Move),
    s.agenda = .startupIpi q v :: rest → s.proc? q = some p → p.run ≠ .initHalted →
    step s = .next { s with agenda := rest }

/-! ### Device protection -/

/-- A device write that touches a byte of the protected region through an enabled controller is refused whole: no byte of memory
changes (R52). That the model's record of it says refused, with no bytes, is log 31's choice: what the device sees of a refusal is
not in the source. -/
def Obligations.SlDevRefusesDeviceWrite : Prop :=
  ∀ (s : State) (m a n v k : Nat) (c : MemCtl) (rest : List Move),
    s.agenda = .devWrite m a n v :: rest → s.mcs[m]? = some c → c.en = true → a + n ≤ s.params.paSpace →
    k < n → inBlock c.base (a + k) →
    step s = .next { s with agenda := rest, device := { bytes := [], refused := true } }

/-- A device access that touches no byte of the region, or goes through a controller with SL_DEV_EN clear, is done: a write stores
the value's bytes, the least significant first, and changes no others; a read returns memory's bytes and changes none (R52, R45,
R141). That the record says not refused is log 31's. -/
def Obligations.DeviceWriteOutsideRegionIsDone : Prop :=
  ∀ (s : State) (m a n v : Nat) (c : MemCtl) (rest : List Move),
    s.mcs[m]? = some c → (c.en = false ∨ ∀ k < n, ¬ inBlock c.base (a + k)) → a + n ≤ s.params.paSpace →
    (s.mem.wf = true → s.agenda = .devWrite m a n v :: rest →
      ∃ t, step s = .next t ∧ (∀ k < n, t.mem.read (a + k) = BitVec.ofNat 8 (v / 256 ^ k)) ∧
        (∀ x, x < a ∨ a + n ≤ x → t.mem.read x = s.mem.read x) ∧ t.device.refused = false) ∧
    (s.agenda = .devRead m a n :: rest →
      ∃ t, step s = .next t ∧ t.device.refused = false ∧ t.device.bytes.length = n ∧
        (∀ k, (h : k < t.device.bytes.length) → t.device.bytes[k] = s.mem.read (a + k)) ∧ t.mem = s.mem)

/-- A refused device read tells the device nothing of memory: what it gets is the same whatever memory holds (R52, D22). That the
model's record of it says refused is log 31's choice. -/
def Obligations.RefusedDeviceReadLeaksNothing : Prop :=
  ∀ (s : State) (other : Memory) (m a n k : Nat) (c : MemCtl) (rest : List Move),
    s.agenda = .devRead m a n :: rest → s.mcs[m]? = some c → c.en = true → a + n ≤ s.params.paSpace →
    k < n → inBlock c.base (a + k) →
    ∃ t t', step s = .next t ∧ step { s with mem := other } = .next t' ∧ t.device = t'.device ∧
      t.device.refused = true ∧ t.mem = s.mem

/-- A processor's stores and reads are never refused by SL_DEV: one whose addresses exist is done wherever they lie, with the
value's bytes in little-endian order (R52, R8, R45). Its addresses: a physical one as named; through a segment, `DS` or the one a
prefix names, within the limit and of a kind the attributes allow, base plus offset (R16, R43, R57, R69). Without that it is refused
by name (R57; expand-down: log 32); where its walk meets a faulty PDPE it is signalled: R74 in a guest under nested paging, R73's
condition; in the host and in a guest without nested paging, where N1 warns not to assume it, log 16's reading of the copying mode.
The model's choices in it: with paging on, or under nested paging, its translation writes no memory and never fails, so it
completes without a page fault
(log 18, unsafe for a claim that such an access completes); a data breakpoint it hits is trapped after it, and no trace trap is
taken (log 15); it is one move at any alignment (log 28, unsafe for a claim about a misaligned one); a segment's violation comes
before a faulty PDPE, a faulty PDPE at any byte leaves every byte as it was, and of two values for one byte the last stays (log 35);
base plus offset and its offsets wrap modulo `2^32` (log 19); no A20 mask is applied to an access named by physical address (log
18). -/
def Obligations.ProcessorStoresIgnoreSlDev : Prop :=
  (∀ (s : State) (q : ProcId) (p : Proc) (r : DataRef) (n v : Nat) (rest : List Move),
    s.mem.wf = true → s.agenda = .memWrite q r n v :: rest → s.proc? q = some p → p.run = .running →
    s.midSkinit q = false → p.nestedUnsupported s.params = false →
    (∀ l, p.accessAddrs s.params s.mem s.draws true r n = .addrs l → (∀ a ∈ l, a < s.params.paSpace) →
      l.length = n ∧ ∃ u : State,
        step s = .next (if p.hitsDataBreakpoint l then u.raise q p (Config.dataTrap p).notSx else u) ∧
        (∀ k, (h : k < l.length) → (∀ j, (hj : j < l.length) → k < j → l[j] ≠ l[k]) →
          u.mem.read l[k] = BitVec.ofNat 8 (v / 256 ^ k)) ∧
        (∀ x, x ∉ l → u.mem.read x = s.mem.read x) ∧ u.mcs = s.mcs ∧ u.proc? q = some p) ∧
    (p.accessAddrs s.params s.mem s.draws true r n = .violation → step s = .refused .segmentViolation) ∧
    (∀ pdpe, p.accessAddrs s.params s.mem s.draws true r n = .signalled pdpe →
      step s = .next (({ s with agenda := rest }.walked p).raise q p (p.pdpeRecord pdpe)))) ∧
  (∀ (s : State) (q : ProcId) (p : Proc) (r : DataRef) (n : Nat) (rest : List Move),
    s.agenda = .memRead q r n :: rest → s.proc? q = some p → p.run = .running → s.midSkinit q = false →
    p.nestedUnsupported s.params = false →
    (∀ l, p.accessAddrs s.params s.mem s.draws false r n = .addrs l → (∀ a ∈ l, a < s.params.paSpace) →
      l.length = n ∧ ∃ u : State,
        step s = .next (if p.hitsDataBreakpoint l then u.raise q p (Config.dataTrap p).notSx else u) ∧
        u.lastRead = leValue (l.map s.mem.read) ∧ u.mem = s.mem ∧ u.mcs = s.mcs ∧ u.proc? q = some p) ∧
    (p.accessAddrs s.params s.mem s.draws false r n = .violation → step s = .refused .segmentViolation) ∧
    (∀ pdpe, p.accessAddrs s.params s.mem s.draws false r n = .signalled pdpe →
      step s = .next (({ s with agenda := rest }.walked p).raise q p (p.pdpeRecord pdpe)))) ∧
  ∀ (c : Params) (p : Proc) (m : Memory) (d n : Nat) (store : Bool),
    (∀ a, p.ctx.isNested = false → p.accessAddrs c m d store (.phys a) n = .addrs ((List.range n).map (a + ·))) ∧
    ∀ (ov : Option SegReg) (off : Word),
      let g := p.segs.get (ov.getD .ds)
      (p.untranslated = true → g.attr.expandUp = true → (if store then g.attr.writable else g.attr.readable) = true →
        (∀ k < n, g.within (p.offset (off + BitVec.ofNat 32 k)) = true) →
        p.accessAddrs c m d store (.seg ov off) n =
          .addrs ((List.range n).map fun k => p.physical c m d (p.linear (ov.getD .ds) (off + BitVec.ofNat 32 k)))) ∧
      (g.attr.expandUp = false ∨ (if store then g.attr.writable else g.attr.readable) = false ∨
          (∃ k < n, g.within (p.offset (off + BitVec.ofNat 32 k)) = false) →
        p.accessAddrs c m d store (.seg ov off) n = .violation)

/-! ### Software's actions -/

/-- SetGIF sets GIF and does nothing else (R123). -/
def Obligations.SetGifSetsOnlyGif : Prop :=
  ∀ (s : State) (q : ProcId) (p : Proc) (rest : List Move),
    s.agenda = .setGif q :: rest → s.proc? q = some p → p.run = .running → s.midSkinit q = false →
    p.nestedUnsupported s.params = false →
    ∃ t, step s = .next t ∧ t = { s with agenda := rest }.setProc q { p with gif := true } ∧
      t.proc? q = some { p with gif := true } ∧ ∀ q', q' ≠ q → t.proc? q' = s.proc? q'

/-- Writing VM_CR as a whole (R142, R24): zero clears every field and makes the debug features active, a value with the DPD bit set
makes them inactive (R143); the value held with the DPD bit cleared changes that flag alone, where the three flags stand at
different bits and the rest holds none of them. -/
def Obligations.WriteVmCrWritesFields : Prop :=
  ∀ (s : State) (q : ProcId) (p : Proc) (v : Quad) (rest : List Move),
    s.agenda = .writeVmcr q v :: rest → s.proc? q = some p → p.run = .running → s.midSkinit q = false →
    p.nestedUnsupported s.params = false →
    ∃ t p', step s = .next t ∧ t.proc? q = some p' ∧ { p' with msrs := p.msrs } = p ∧
      p'.msrs.efer = p.msrs.efer ∧ p'.msrs.other = p.msrs.other ∧
      (v = 0#64 → p'.msrs.vmcr = { dpd := false, rInit := false, disA20m := false, other := 0#64 } ∧
        p'.activeDebugFeatures t.params = s.params.debugFeatures) ∧
      (v.getLsbD s.params.dpdBit.val = true → p'.activeDebugFeatures t.params = []) ∧
      (s.params.bitsDistinct = true → p.msrs.vmcr.other &&& s.params.vmCrFlagMask = 0#64 →
        v = p.msrs.vmcr.toBits s.params &&& ~~~ bitMask s.params.dpdBit →
        p'.msrs.vmcr = { p.msrs.vmcr with dpd := false })

/-- The clean-up of an abort on a processor restores normal operation there, in whatever order its actions are done, for R170 gives
none: GIF set, VM_CR clear, and its memory controller open to devices (R170, R171, R141). -/
def Obligations.AbortRestoresNormalOperation : Prop :=
  ∀ (s : State) (q : ProcId) (p : Proc),
    s.Inv → s.proc? q = some p → p.run = .running → s.midSkinit q = false → p.nestedUnsupported s.params = false →
    s.agenda.Perm (s.abortMoves q) →
    ∃ t, Sys2Proof.core.run 3 s = .next t ∧ t.restored q ∧ t.agenda = [] ∧ t.mem = s.mem

/-! ### Nested paging and A20 -/

/-- A CR3 write of a guest that uses nested paging writes CR3 and nothing else, whatever the PDPEs hold (R73, R74). In a
paging mode without PDPEs, or with paging off, that it writes CR3 only is log 16's choice. -/
def Obligations.NestedCr3WriteSignalsNothing : Prop :=
  ∀ (s : State) (q : ProcId) (p : Proc) (v : Quad) (rest : List Move),
    s.agenda = .writeCr3 q v :: rest → s.proc? q = some p → p.run = .running → s.midSkinit q = false →
    p.ctx = .guest true → s.params.npSupported = true →
    ∃ t, step s = .next t ∧ t.proc? q = some { p with cr3 := v } ∧ t.mem = s.mem ∧
      ∀ q', q' ≠ q → t.proc? q' = s.proc? q'

/-- The walk that goes through a faulty PDPE is the access that is signalled, and a walk through a legal one is not: R74 in a guest
under nested paging, R73's condition; in the host and in a guest without nested paging, where N1 warns not to assume it, log 16's
reading of the copying mode. That a walk writes neither memory nor the processor is log 18's choice. The PDPE used is memory's
in a guest under nested paging, whatever copy an earlier mode left (R73, R75; log 16); elsewhere memory's, or where an
in-processor copy exists one of the two (R75, D26). A fetch whose walk meets a faulty PDPE is signalled too; where an instruction
breakpoint stands at the same pc, that the PDPE is signalled and not the breakpoint is log 16's DESIGN CHOICE, for R124 and N24
give no priority. Which bits are illegal and what is raised are open, but that it is no #SX (R111; log 16). -/
def Obligations.WalkSignalsFaultyPdpe : Prop :=
  (∀ (s : State) (q : ProcId) (p : Proc) (i : Fin 4) (rest : List Move),
    s.agenda = .walkPdpe q i :: rest → s.proc? q = some p → p.run = .running → s.midSkinit q = false →
    p.nestedUnsupported s.params = false → p.walks = true →
    ∃ e : Quad,
      (p.ctx = .guest true → e = p.pdpeInMemory s.params s.mem p.cr3 i) ∧
      (p.pdpeCopy = none → e = p.pdpeInMemory s.params s.mem p.cr3 i) ∧
      (∀ copies, p.pdpeCopy = some copies → e = p.pdpeInMemory s.params s.mem p.cr3 i ∨
        e = copies.getD i.val (p.pdpeInMemory s.params s.mem p.cr3 i)) ∧
      (Config.pdpeIllegal e = true → ∃ t p' r, step s = .next t ∧ t.proc? q = some p' ∧ p'.excs = r :: p.excs ∧
        r = (Config.pdpeSignal p e).notSx ∧ r.vector ≠ 30) ∧
      (Config.pdpeIllegal e = false → ∃ t, step s = .next t ∧ t.proc? q = some p ∧ t.mem = s.mem)) ∧
    ∀ (s : State) (p : Proc) (pdpe : Quad),
      s.agenda = [] → s.midSkinit s.cur = false → s.proc? s.cur = some p → p.run = .running →
      p.nestedUnsupported s.params = false → p.fetch s.params s.mem s.draws = .error (.signalled pdpe) →
      Config.pdpeIllegal pdpe = true ∧ step s = .next ((s.walked p).raise s.cur p (p.pdpeRecord pdpe))

/-- Nested paging where the implementation has none is refused, whatever use of it is made: an instruction, any action of
software's,
the delivery of an event (R78). -/
def Obligations.NestedPagingUnsupportedIsRefused : Prop :=
  ∀ (s : State) (q : ProcId) (p : Proc), s.proc? q = some p → p.run = .running → s.midSkinit q = false →
    p.ctx = .guest true → s.params.npSupported = false →
    (s.agenda = [] → s.cur = q → step s = .refused .nestedPagingUnsupported) ∧
    (∀ rest : List Move, s.agenda = .proc q :: rest → step s = .refused .nestedPagingUnsupported) ∧
    (∀ (m : Move) (rest : List Move), s.agenda = m :: rest → m.softwareOf = some q →
      step s = .refused .nestedPagingUnsupported) ∧
    ∀ (e : Event) (rest : List Move), s.agenda = .deliver q e :: rest → p.pending.has e = true → p.gateOpen e = true →
      (∀ src, e ≠ .init src) → step s = .refused .nestedPagingUnsupported

/-- No A20 mask is ever applied to a guest physical address: what the nested mappings translate, and so the physical address, is the
same whatever A20M and DIS_A20M are (R76, R41); in a guest without nested paging that is log 18's choice. Outside a guest bit 20 is
masked exactly where A20M asks for it and DIS_A20M is clear (R27, D20, item GK5). -/
def Obligations.GuestAddressesKeepBit20 : Prop :=
  ∀ (c : Params) (p : Proc) (m : Memory) (d : Nat) (a : Word),
    (p.ctx = .guest true → ∀ a20 dis : Bool,
      ({ p with a20m := a20, msrs := { p.msrs with vmcr := { p.msrs.vmcr with disA20m := dis } } } : Proc).physical c m d a =
        p.physical c m d a) ∧
    (p.ctx = .guest true → p.pg = false → p.physical c m d a = Config.nestedMap p.a20Blind m a.toNat % c.paSpace) ∧
    (p.ctx = .guest false → p.pg = false → p.physical c m d a = a.toNat) ∧
    (p.ctx = .host → p.pg = false → (p.a20m = false ∨ p.msrs.vmcr.disA20m = true) → p.physical c m d a = a.toNat) ∧
    (p.ctx = .host → p.pg = false → p.a20m = true → p.msrs.vmcr.disA20m = false →
      p.physical c m d a = a.toNat - (if a.getLsbD 20 then 2 ^ 20 else 0))
end

