-- ==== Sys2Proof/Laws/Memory.lean ====
section
/-! SUPPORT. Memory: a read after a write, and that every operation keeps the canonical form. -/

namespace Sys2Proof.Machine

/-! ### Strictly rising lists -/

@[simp] theorem ascending_nil : ascending [] = true := rfl

@[simp] theorem ascending_cons (a : Nat) (l : List Nat) :
    ascending (a :: l) = true ↔ (∀ b ∈ l, a < b) ∧ ascending l = true := by
  induction l generalizing a with
  | nil => simp [ascending]
  | cons b l ih =>
    rw [ascending]
    simp only [Bool.and_eq_true, decide_eq_true_eq, List.forall_mem_cons]
    constructor
    · rintro ⟨hab, hl⟩
      exact ⟨⟨hab, fun c hc => hab.trans (((ih b).1 hl).1 c hc)⟩, hl⟩
    · rintro ⟨⟨hab, -⟩, hl⟩
      exact ⟨hab, hl⟩

theorem mem_insertAscending {v a : Nat} {l : List Nat} : a ∈ insertAscending v l ↔ a = v ∨ a ∈ l := by
  induction l with
  | nil => simp [insertAscending]
  | cons b l ih =>
    unfold insertAscending
    split
    · simp
    · split
      · simp_all
      · simp only [List.mem_cons, ih]
        tauto

theorem ascending_insertAscending {v : Nat} {l : List Nat} (h : ascending l = true) :
    ascending (insertAscending v l) = true := by
  induction l with
  | nil => simp [insertAscending]
  | cons b l ih =>
    obtain ⟨hb, hl⟩ := (ascending_cons b l).1 h
    unfold insertAscending
    split
    · rename_i hvb
      simp only [ascending_cons, List.forall_mem_cons]
      exact ⟨⟨hvb, fun c hc => hvb.trans (hb c hc)⟩, hb, hl⟩
    · split
      · exact h
      · rename_i h1 h2
        simp only [ascending_cons, mem_insertAscending]
        exact ⟨fun c hc => hc.elim (fun e => by omega) (hb c), ih hl⟩

theorem mem_of_mem_removeAscending {v a : Nat} {l : List Nat} (h : a ∈ removeAscending v l) : a ∈ l := by
  induction l with
  | nil => simp [removeAscending] at h
  | cons b l ih =>
    unfold removeAscending at h
    split at h
    · exact List.mem_cons_of_mem _ h
    · rcases List.mem_cons.1 h with rfl | h
      · exact List.mem_cons_self
      · exact List.mem_cons_of_mem _ (ih h)

theorem ascending_removeAscending {v : Nat} {l : List Nat} (h : ascending l = true) :
    ascending (removeAscending v l) = true := by
  induction l with
  | nil => simp [removeAscending]
  | cons b l ih =>
    obtain ⟨hb, hl⟩ := (ascending_cons b l).1 h
    unfold removeAscending
    split
    · exact hl
    · simp only [ascending_cons]
      exact ⟨fun c hc => hb c (mem_of_mem_removeAscending hc), ih hl⟩

theorem mem_removeAscending_of_ne {v a : Nat} {l : List Nat} (hne : a ≠ v) :
    a ∈ removeAscending v l ↔ a ∈ l := by
  induction l with
  | nil => simp [removeAscending]
  | cons b l ih =>
    unfold removeAscending
    split
    · simp_all
    · simp [ih]

theorem not_mem_removeAscending {v : Nat} {l : List Nat} (h : ascending l = true) : v ∉ removeAscending v l := by
  induction l with
  | nil => simp [removeAscending]
  | cons b l ih =>
    obtain ⟨hb, hl⟩ := (ascending_cons b l).1 h
    unfold removeAscending
    split
    · rename_i hv
      subst hv
      exact fun hm => absurd (hb _ hm) (lt_irrefl _)
    · rename_i hne
      simp only [List.mem_cons, not_or]
      exact ⟨hne, ih hl⟩

/-! ### The canonical form -/

/-- The canonical form, entry by entry. -/
theorem Memory.wf_cons (k : Nat) (v : Byte) (m : Memory) :
    Memory.wf ((k, v) :: m) = true ↔ (∀ c ∈ m, k < c.1) ∧ v ≠ unlistedByte ∧ Memory.wf m = true := by
  simp only [Memory.wf, List.map_cons, List.all_cons, Bool.and_eq_true, ascending_cons, decide_eq_true_eq,
    List.forall_mem_map]
  tauto

theorem Memory.wf_nil : Memory.wf [] = true := rfl

/-- An entry of the memory after a write is the one written, or was there before. -/
theorem Memory.mem_write {m : Memory} {a : Nat} {b : Byte} {c : Host.Cell} (h : c ∈ m.write a b) :
    (c = (a, b) ∧ b ≠ unlistedByte) ∨ c ∈ m := by
  induction m with
  | nil =>
    unfold Memory.write at h
    split at h
    · simp at h
    · rename_i hb
      exact .inl ⟨by simpa using h, hb⟩
  | cons kv m ih =>
    obtain ⟨k, v⟩ := kv
    unfold Memory.write at h
    split at h
    · split at h
      · exact .inr h
      · rename_i hb
        rcases List.mem_cons.1 h with rfl | h
        · exact .inl ⟨rfl, hb⟩
        · exact .inr h
    · split at h
      · split at h
        · exact .inr (List.mem_cons_of_mem _ h)
        · rename_i hb
          rcases List.mem_cons.1 h with rfl | h
          · exact .inl ⟨rfl, hb⟩
          · exact .inr (List.mem_cons_of_mem _ h)
      · rcases List.mem_cons.1 h with rfl | h
        · exact .inr List.mem_cons_self
        · exact (ih h).imp id (List.mem_cons_of_mem _)

/-- A write keeps the canonical form. -/
theorem Memory.wf_write {m : Memory} (a : Nat) (b : Byte) (h : m.wf = true) : (m.write a b).wf = true := by
  induction m with
  | nil =>
    unfold Memory.write
    split
    · rfl
    · rename_i hb
      exact (Memory.wf_cons a b []).2 ⟨by simp, hb, rfl⟩
  | cons kv m ih =>
    obtain ⟨k, v⟩ := kv
    obtain ⟨hk, hv, hm⟩ := (Memory.wf_cons k v m).1 h
    unfold Memory.write
    split
    · rename_i hak
      split
      · exact h
      · rename_i hb
        refine (Memory.wf_cons a b _).2 ⟨fun c hc => ?_, hb, h⟩
        rcases List.mem_cons.1 hc with rfl | hc
        · exact hak
        · exact hak.trans (hk c hc)
    · rename_i hnlt
      split
      · rename_i hak
        subst hak
        split
        · exact hm
        · rename_i hb
          exact (Memory.wf_cons a b m).2 ⟨hk, hb, hm⟩
      · rename_i hne
        refine (Memory.wf_cons k v _).2 ⟨fun c hc => ?_, hv, ih hm⟩
        rcases Memory.mem_write hc with ⟨rfl, -⟩ | hc
        · show k < a
          omega
        · exact hk c hc

/-- Several writes keep the canonical form. -/
theorem Memory.wf_writeCells {m : Memory} (l : List Host.Cell) (h : m.wf = true) : (m.writeCells l).wf = true := by
  induction l generalizing m with
  | nil => exact h
  | cons c l ih => exact ih (Memory.wf_write c.1 c.2 h)

/-- An entry of the memory after several writes has an address written, or was there before. -/
theorem Memory.mem_writeCells {m : Memory} {l : List Host.Cell} {c : Host.Cell} (h : c ∈ m.writeCells l) :
    c.1 ∈ l.map (·.1) ∨ c ∈ m := by
  induction l generalizing m with
  | nil => exact .inr h
  | cons d l ih =>
    rcases ih h with h | h
    · exact .inl (by simp [h])
    · rcases Memory.mem_write h with ⟨rfl, -⟩ | h
      · exact .inl (by simp)
      · exact .inr h

/-! ### Reads after writes -/

/-- Where every listed address is above `a`, `a` is not listed. -/
theorem Memory.read_below {m : Memory} {a : Nat} (h : ∀ c ∈ m, a < c.1) : m.read a = unlistedByte := by
  induction m with
  | nil => rfl
  | cons kv m ih =>
    obtain ⟨k, v⟩ := kv
    have hk : a < k := h (k, v) List.mem_cons_self
    rw [Memory.read, if_neg (by omega)]
    exact ih fun c hc => h c (List.mem_cons_of_mem _ hc)

/-- A read after a write to the same address gives the byte written. -/
theorem Memory.read_write_same {m : Memory} (a : Nat) (b : Byte) (h : m.wf = true) : (m.write a b).read a = b := by
  induction m with
  | nil =>
    unfold Memory.write
    split
    · rename_i hb
      simp [Memory.read, hb]
    · simp [Memory.read]
  | cons kv m ih =>
    obtain ⟨k, v⟩ := kv
    obtain ⟨hk, hv, hm⟩ := (Memory.wf_cons k v m).1 h
    unfold Memory.write
    split
    · rename_i hak
      split
      · rename_i hb
        rw [Memory.read, if_neg (by omega), hb]
        exact Memory.read_below fun c hc => hak.trans (hk c hc)
      · simp [Memory.read]
    · split
      · rename_i hak
        subst hak
        split
        · rename_i hb
          rw [hb]
          exact Memory.read_below hk
        · simp [Memory.read]
      · rename_i hne
        rw [Memory.read, if_neg hne]
        exact ih hm

/-- A byte that is not the unlisted one is read back whatever the memory's form. -/
theorem Memory.read_write_of_ne {m : Memory} (a : Nat) {b : Byte} (hb : b ≠ unlistedByte) : (m.write a b).read a = b := by
  induction m with
  | nil => simp [Memory.write, hb, Memory.read]
  | cons kv m ih =>
    obtain ⟨k, v⟩ := kv
    unfold Memory.write
    rw [if_neg hb, if_neg hb]
    split
    · simp [Memory.read]
    · split
      · simp [Memory.read]
      · rename_i hne
        rw [Memory.read, if_neg hne]
        exact ih

/-- A write leaves every other address alone. -/
theorem Memory.read_write_other {m : Memory} {a x : Nat} (b : Byte) (hx : x ≠ a) : (m.write a b).read x = m.read x := by
  induction m with
  | nil =>
    unfold Memory.write
    split
    · rfl
    · simp [Memory.read, hx]
  | cons kv m ih =>
    obtain ⟨k, v⟩ := kv
    unfold Memory.write
    split
    · split
      · rfl
      · simp [Memory.read, hx]
    · split
      · rename_i hak
        subst hak
        split
        · simp [Memory.read, hx]
        · simp [Memory.read, hx]
      · simp [Memory.read, ih]

/-- Several writes leave every address they do not name alone. -/
theorem Memory.read_writeCells_other {m : Memory} {l : List Host.Cell} {x : Nat} (hx : x ∉ l.map (·.1)) :
    (m.writeCells l).read x = m.read x := by
  induction l generalizing m with
  | nil => rfl
  | cons c l ih =>
    simp only [List.map_cons, List.mem_cons, not_or] at hx
    exact (ih hx.2).trans (Memory.read_write_other c.2 hx.1)

/-! ### Bytes laid out upward -/

theorem map_fst_cellsFrom (a : Nat) (bs : List Byte) :
    (cellsFrom a bs).map (·.1) = (List.range bs.length).map (a + ·) := by
  induction bs generalizing a with
  | nil => rfl
  | cons b bs ih =>
    simp only [cellsFrom, List.map_cons, ih, List.length_cons, List.range_succ_eq_map, List.map_map]
    simp [Function.comp_def, Nat.add_comm, Nat.add_left_comm]

theorem cellsFrom_eq_zip (a : Nat) (bs : List Byte) :
    cellsFrom a bs = ((List.range bs.length).map (a + ·)).zip bs := by
  induction bs generalizing a with
  | nil => rfl
  | cons b bs ih =>
    simp only [cellsFrom, ih, List.length_cons, List.range_succ_eq_map, List.map_cons, List.zip_cons_cons, List.map_map]
    simp [Function.comp_def, Nat.add_comm, Nat.add_left_comm]

/-- Bytes stored from `a` up are read back, and every other address is as before. -/
theorem Memory.read_writeCells_cellsFrom {m : Memory} (a : Nat) (bs : List Byte) (h : m.wf = true) :
    (∀ k, (hk : k < bs.length) → (m.writeCells (cellsFrom a bs)).read (a + k) = bs[k]) ∧
      ∀ x, x < a ∨ a + bs.length ≤ x → (m.writeCells (cellsFrom a bs)).read x = m.read x := by
  constructor
  · induction bs generalizing a m with
    | nil => simp
    | cons b bs ih =>
      intro k hk
      cases k with
      | zero =>
        have hnot : a ∉ (cellsFrom (a + 1) bs).map (·.1) := by
          simp only [map_fst_cellsFrom, List.mem_map, not_exists, not_and]
          intro i _
          omega
        have := Memory.read_writeCells_other (m := m.write a b) hnot
        simpa [cellsFrom, Memory.writeCells, Memory.read_write_same a b h] using this
      | succ k =>
        have := ih (m := m.write a b) (a + 1) (Memory.wf_write a b h) k (by simpa using hk)
        simpa [cellsFrom, Memory.writeCells, Nat.add_assoc, Nat.add_comm 1 k] using this
  · intro x hx
    refine Memory.read_writeCells_other ?_
    simp only [map_fst_cellsFrom, List.mem_map, List.mem_range, not_exists, not_and]
    intro i hi
    omega

/-- Memories that agree on the bytes read give the same bytes. -/
theorem Memory.readBytes_congr {m m' : Memory} {a n : Nat} (h : ∀ i < n, m.read (a + i) = m'.read (a + i)) :
    m.readBytes a n = m'.readBytes a n :=
  List.map_congr_left fun i hi => h i (List.mem_range.1 hi)

/-! ### Values of bytes (R45) -/

theorem leValue_lt (bs : List Byte) : leValue bs < 256 ^ bs.length := by
  induction bs with
  | nil => simp [leValue]
  | cons b bs ih =>
    have := b.isLt
    simp only [leValue, List.length_cons, Nat.pow_succ]
    omega

@[simp] theorem length_readBytes (m : Memory) (a n : Nat) : (m.readBytes a n).length = n := by
  simp [Memory.readBytes]

@[simp] theorem length_littleEndianBytes (n v : Nat) : (littleEndianBytes n v).length = n := by
  induction n generalizing v with
  | zero => rfl
  | succ n ih => simp [littleEndianBytes, ih]

/-- The bytes of a value have that value, modulo what `n` bytes hold. -/
theorem leValue_littleEndianBytes (n v : Nat) : leValue (littleEndianBytes n v) = v % 256 ^ n := by
  induction n generalizing v with
  | zero => simp [leValue, littleEndianBytes, Nat.mod_one]
  | succ n ih =>
    have := Nat.mod_mul (x := v) (a := 256) (b := 256 ^ n)
    rw [pow_succ', this, littleEndianBytes, leValue, ih, BitVec.toNat_ofNat]

/-- What `MemRead` reads, as a number: its bytes, the first the least significant. -/
theorem Memory.toNat_memRead (m : Memory) (a n : Nat) : (m.memRead a n).toNat = leValue (m.readBytes a n) := by
  rw [Memory.memRead, BitVec.toNat_ofNat, Nat.mod_eq_of_lt]
  have := leValue_lt (m.readBytes a n)
  rwa [length_readBytes, show (256 : Nat) = 2 ^ 8 from rfl, ← Nat.pow_mul] at this

theorem Memory.toNat_read16 (m : Memory) (a : Nat) : (m.read16 a).toNat = (m.read a).toNat + 256 * (m.read (a + 1)).toNat := by
  have := m.toNat_memRead a 2
  simp only [Memory.readBytes, List.range_succ, List.range_zero, List.nil_append, List.map_cons, List.map_nil,
    List.cons_append, leValue, Nat.add_zero, Nat.mul_zero] at this
  exact this

/-- Two adjacent words read at once: the second is the more significant (R45, the mixed-width read). -/
theorem Memory.toNat_memRead_four (m : Memory) (a : Nat) :
    (m.memRead a 4).toNat = (m.read16 a).toNat + 65536 * (m.read16 (a + 2)).toNat := by
  rw [Memory.toNat_memRead, Memory.toNat_read16, Memory.toNat_read16]
  simp only [Memory.readBytes, leValue, List.range_succ, List.range_zero, List.nil_append, List.map_cons,
    List.map_nil, List.cons_append, Nat.add_zero, Nat.add_assoc, Nat.reduceAdd]
  omega

/-- Byte `k` of a value's little-endian bytes (R45). -/
theorem getElem_littleEndianBytes : ∀ (n v k : Nat) (h : k < (littleEndianBytes n v).length),
    (littleEndianBytes n v)[k] = BitVec.ofNat 8 (v / 256 ^ k)
  | 0, v, k, h => by simp at h
  | n + 1, v, 0, _ => by simp [littleEndianBytes]
  | n + 1, v, k + 1, h => by
    simp only [littleEndianBytes, List.getElem_cons_succ]
    rw [getElem_littleEndianBytes n, Nat.div_div_eq_div_mul, pow_succ']

/-- Bytes stored at a list of addresses: an address that does not come again later in the list holds its byte. -/
theorem Memory.read_writeCells_zip (l : List Nat) (bs : List Byte) :
    ∀ (m : Memory), m.wf = true → ∀ k, (h : k < l.length) → (hb : k < bs.length) →
      (∀ j, (hj : j < l.length) → k < j → l[j] ≠ l[k]) → (m.writeCells (l.zip bs)).read l[k] = bs[k] := by
  induction l generalizing bs with
  | nil => intro m hm k h; simp at h
  | cons a l ih =>
    intro m hm k h hb hne
    cases bs with
    | nil => simp at hb
    | cons b bs =>
      cases k with
      | zero =>
        simp only [List.zip_cons_cons, Memory.writeCells, List.getElem_cons_zero]
        rw [Memory.read_writeCells_other, Memory.read_write_same _ _ hm]
        intro hmem
        obtain ⟨x, hx, rfl⟩ := List.mem_map.1 hmem
        obtain ⟨j, hj, e⟩ := List.getElem_of_mem (List.of_mem_zip (a := x.1) (b := x.2) hx).1
        exact hne (j + 1) (by simpa using hj) (by omega) (by simpa using e)
      | succ k =>
        exact ih bs (m.write a b) (Memory.wf_write _ _ hm) k (by simpa using h) (by simpa using hb) fun j hj hlt => by
          have := hne (j + 1) (by simpa using hj) (by omega)
          simpa using this

end Sys2Proof.Machine
end

