-- ==== Sys2Proof/Laws/Operands.lean ====
section
/-! SUPPORT. Registers, bits of words, addresses and segments: the small facts about the operand forms. -/

namespace Sys2Proof.Machine

/-! ### General registers and bits of words -/

@[simp] theorem Regs.get_set_same (x : Regs) (r : Gpr) (v : Word) : (x.set r v).get r = v := by
  cases r <;> rfl

theorem Regs.get_set_other (x : Regs) {r r' : Gpr} (v : Word) (h : r' ≠ r) : (x.set r v).get r' = x.get r' := by
  cases r <;> cases r' <;> first | contradiction | rfl

theorem CpuidReg.gpr_injective {r r' : CpuidReg} (h : r.gpr = r'.gpr) : r = r' := by
  cases r <;> cases r' <;> first | rfl | cases h

theorem getLsbD_setBit_same (w : Word) (i : Fin 32) (b : Bool) : (setBit w i.val b).getLsbD i.val = b := by
  cases b <;> simp [setBit]

theorem getLsbD_setBit_other (w : Word) {i k : Nat} (b : Bool) (h : k ≠ i) : (setBit w i b).getLsbD k = w.getLsbD k := by
  have h' : ¬ i = k := fun e => h e.symm
  cases b
  · simp only [setBit, Bool.false_eq_true, if_false, BitVec.getLsbD_and, BitVec.getLsbD_not, BitVec.getLsbD_twoPow]
    by_cases hk : k < 32
    · simp [h', hk]
    · simp [BitVec.getLsbD_of_ge w k (by omega)]
  · simp [setBit, BitVec.getLsbD_twoPow, h']

/-! ### Segments -/

theorem toNat_realMode_base (sel : Half) : (Seg.realMode sel).base.toNat = 16 * sel.toNat := by
  have := sel.isLt
  simp only [Seg.realMode, BitVec.toNat_shiftLeft, BitVec.toNat_setWidth, Nat.shiftLeft_eq]
  omega

theorem toNat_startPhys (v : Byte) : (startPhys v).toNat = v.toNat * 0x1000 := by
  have := v.isLt
  simp only [startPhys, BitVec.toNat_shiftLeft, BitVec.toNat_setWidth, Nat.shiftLeft_eq]
  omega

/-! ### Physical addresses without translation -/

theorem Proc.pg_of_untranslated {p : Proc} (h : p.untranslated = true) : p.pg = false := by
  simp only [Proc.untranslated, Bool.and_eq_true, Bool.not_eq_true'] at h
  exact h.1

/-- With paging off no walk is made. -/
theorem Proc.walks_of_untranslated {p : Proc} (h : p.untranslated = true) : p.walks = false := by
  simp [Proc.walks, Proc.pg_of_untranslated h]

theorem Proc.faultyWalk_of_not_walks {p : Proc} (h : p.walks = false) (c : Params) (m : Memory) (d : Nat) (as : List Word) :
    p.faultyWalk c m d as = none := by
  have : p.walkOf c m d = fun _ => none := funext fun a => by simp [Proc.walkOf, h]
  simp [Proc.faultyWalk, this]

theorem State.walked_of_not_walks {p : Proc} (h : p.walks = false) (s : State) : s.walked p = s := by
  simp [State.walked, h]

/-- A linear address is the physical one but for A20 masking. -/
theorem Proc.physical_of_untranslated {p : Proc} (h : p.untranslated = true) (c : Params) (m : Memory) (d : Nat) (a : Word) :
    p.physical c m d a = if p.a20Masks then maskA20 a.toNat else a.toNat := by
  simp [Proc.physical, h]

/-- A20 masking touches no bit below bit 20. -/
theorem maskA20_mod (a : Nat) : maskA20 a % 2 ^ 20 = a % 2 ^ 20 := by
  unfold maskA20
  omega

theorem Proc.physical_mod {p : Proc} (h : p.untranslated = true) (c : Params) (m : Memory) (d : Nat) (a : Word) :
    p.physical c m d a % 2 ^ 20 = a.toNat % 2 ^ 20 := by
  rw [Proc.physical_of_untranslated h]
  split
  · exact maskA20_mod _
  · rfl

theorem Proc.toNat_offset (p : Proc) (off : Word) : (p.offset off).toNat = if p.pe then off.toNat else off.toNat % 65536 := by
  unfold Proc.offset
  split
  · rfl
  · rw [BitVec.toNat_and]
    exact Nat.and_two_pow_sub_one_eq_mod _ 16

/-- The bytes of one instruction lie at different addresses. -/
theorem Proc.physical_linear_ne {p : Proc} (h : p.untranslated = true) (c c' : Params) (m m' : Memory) (d d' : Nat) (r : SegReg)
    (off : Word) {i j : Nat} (hij : i < j) (hj : j < 65536) :
    p.physical c m d (p.linear r (off + BitVec.ofNat 32 i)) ≠ p.physical c' m' d' (p.linear r (off + BitVec.ofNat 32 j)) := by
  intro e
  have h1 := p.physical_mod h c m d (p.linear r (off + BitVec.ofNat 32 i))
  have h2 := p.physical_mod h c' m' d' (p.linear r (off + BitVec.ofNat 32 j))
  have h3 := off.isLt
  rw [e, h2] at h1
  simp only [Proc.linear, BitVec.toNat_add, Proc.toNat_offset, BitVec.toNat_ofNat] at h1
  split at h1 <;> omega

/-- Offsets add up from the first, modulo `2^32`. -/
theorem offset_add_succ (off : Word) (j : Nat) : off + 1#32 + BitVec.ofNat 32 j = off + BitVec.ofNat 32 (j + 1) := by
  rw [BitVec.add_assoc]; congr 1; apply BitVec.eq_of_toNat_eq; simp [BitVec.toNat_add]; omega

theorem offsets_eq_map (n : Nat) : ∀ off : Word, offsets off n = (List.range n).map fun k => off + BitVec.ofNat 32 k := by
  induction n with
  | zero => intro off; rfl
  | succ n ih => intro off; simp [offsets, ih, List.range_succ_eq_map, Function.comp_def, offset_add_succ]

/-- An access that names addresses names one for each byte. -/
theorem Proc.length_of_accessAddrs {p : Proc} {c : Params} {m : Memory} {d : Nat} {st : Bool} {r : DataRef} {n : Nat} {l : List Nat}
    (h : p.accessAddrs c m d st r n = .addrs l) : l.length = n := by
  cases r with
  | phys a => simp only [Proc.accessAddrs, Access.addrs.injEq] at h; subst h; simp
  | seg ov off =>
    simp only [Proc.accessAddrs] at h
    split at h
    · split at h
      · cases h
      · simp only [Access.addrs.injEq] at h; subst h; simp [offsets_eq_map]
    · cases h

end Sys2Proof.Machine
end

