-- ==== Sys2Proof/Laws/Fetch.lean ====
section
/-! SUPPORT. What fetching and placing bytes can do. -/

namespace Sys2Proof.Machine

/-- Bytes placed where `p` fetches read back at the addresses `p` fetches them from, and the bytes before them stay: where no
translation is on, and none of them is the byte an unlisted address reads as. -/
theorem Proc.read_placeBytes {p : Proc} (hu : p.untranslated = true) (c : Params) (d : Nat) :
    ∀ (bs : List Byte) (off : Word) (m m' : Memory) (d' a : Nat), bs.length + a < 65536 → (∀ b ∈ bs, b ≠ unlistedByte) →
      (∀ k, (h : k < bs.length) →
        (p.placeBytes c d m (off + BitVec.ofNat 32 a) bs).read
          (p.physical c m' d' (p.linear .cs (off + BitVec.ofNat 32 (a + k)))) = bs[k]) ∧
      ∀ j < a,
        (p.placeBytes c d m (off + BitVec.ofNat 32 a) bs).read (p.physical c m' d' (p.linear .cs (off + BitVec.ofNat 32 j))) =
          m.read (p.physical c m' d' (p.linear .cs (off + BitVec.ofNat 32 j))) := by
  intro bs
  induction bs with
  | nil => intro off m m' d' a _ _; exact ⟨fun k h => absurd h (Nat.not_lt_zero k), fun j hj => rfl⟩
  | cons b bs ih =>
    intro off m m' d' a hl hb
    simp only [List.length_cons] at hl
    have e : off + BitVec.ofNat 32 a + 1#32 = off + BitVec.ofNat 32 (a + 1) := by
      rw [BitVec.add_assoc]; congr 1; apply BitVec.eq_of_toNat_eq; simp [BitVec.toNat_add]
    simp only [Proc.placeBytes, e]
    obtain ⟨h1, h2⟩ := ih off (m.write (p.physical c m d (p.linear .cs (off + BitVec.ofNat 32 a))) b) m' d' (a + 1) (by omega)
      fun x hx => hb x (by simp [hx])
    refine ⟨fun k hk => ?_, fun j hj => ?_⟩
    · cases k with
      | zero =>
        simp only [Nat.add_zero]
        rw [h2 a (by omega), Proc.physical_of_untranslated hu, Proc.physical_of_untranslated hu,
          Memory.read_write_of_ne _ (hb b (by simp))]
        rfl
      | succ k => rw [show a + (k + 1) = a + 1 + k by omega]; exact h1 k (by simpa using hk)
    · rw [h2 j (by omega), Memory.read_write_other _ (Proc.physical_linear_ne hu c c m' m d' d .cs off hj (by omega))]

/-- The window of a fetch begins with memory's bytes as far as the limit of `CS` allows them, where no translation is on. -/
theorem Proc.fetchWindow_eq_append {p : Proc} (hu : p.untranslated = true) (c : Params) (m : Memory) (d : Nat) :
    ∀ (n : Nat) (off : Word) (k : Nat), k ≤ n → (∀ j < k, p.segs.cs.within (p.offset (off + BitVec.ofNat 32 j)) = true) →
      ∃ w : List Byte, (p.fetchWindow c m d off n).1 =
        ((List.range k).map fun j => m.read (p.physical c m d (p.linear .cs (off + BitVec.ofNat 32 j)))) ++ w := by
  intro n
  induction n with
  | zero => intro off k hk _; obtain rfl : k = 0 := by omega
            exact ⟨[], rfl⟩
  | succ n ih =>
    intro off k hk hw
    cases k with
    | zero => exact ⟨_, rfl⟩
    | succ k =>
      have h0 := hw 0 (by omega)
      simp only [BitVec.add_zero] at h0
      obtain ⟨w, hw'⟩ := ih (off + 1#32) k (by omega) fun j hj => by rw [offset_add_succ]; exact hw (j + 1) (by omega)
      refine ⟨w, ?_⟩
      rw [Proc.fetchWindow, if_pos h0, Proc.faultyWalk_of_not_walks (Proc.walks_of_untranslated hu)]
      simp only [hw', List.range_succ_eq_map, List.map_cons, List.map_map, List.cons_append, Function.comp_def, offset_add_succ]
      simp

/-- What ends a fetch as faulty is an illegal PDPE (R74). -/
theorem Proc.illegal_of_fetchWindow {c : Params} {p : Proc} {m : Memory} {d : Nat} :
    ∀ (n : Nat) (off : Word) (pdpe : Quad), (p.fetchWindow c m d off n).2 = some pdpe → Config.pdpeIllegal pdpe = true := by
  intro n
  induction n with
  | zero => intro off pdpe h; cases h
  | succ n ih =>
    intro off pdpe h
    rw [Proc.fetchWindow] at h
    split at h
    · split at h
      · rename_i hx
        cases h
        exact List.find?_some hx
      · exact ih _ _ h
    · cases h

end Sys2Proof.Machine
end

