-- ==== Sys2Proof/Laws/State.lean ====
section
/-! SUPPORT. The small lemmas of the state: what each update leaves and changes, field by field, so that no later proof unfolds a
record update. -/

namespace Sys2Proof.Machine

/-! ### A processor put in its place -/

@[simp] theorem State.setProc_params (s : State) (q : ProcId) (p : Proc) : (s.setProc q p).params = s.params := by
  cases q <;> rfl

@[simp] theorem State.setProc_cur (s : State) (q : ProcId) (p : Proc) : (s.setProc q p).cur = s.cur := by
  cases q <;> rfl

@[simp] theorem State.setProc_mem (s : State) (q : ProcId) (p : Proc) : (s.setProc q p).mem = s.mem := by
  cases q <;> rfl

@[simp] theorem State.setProc_mcs (s : State) (q : ProcId) (p : Proc) : (s.setProc q p).mcs = s.mcs := by
  cases q <;> rfl

@[simp] theorem State.setProc_skinitLatch (s : State) (q : ProcId) (p : Proc) :
    (s.setProc q p).skinitLatch = s.skinitLatch := by
  cases q <;> rfl

@[simp] theorem State.setProc_skinit (s : State) (q : ProcId) (p : Proc) : (s.setProc q p).skinit = s.skinit := by
  cases q <;> rfl

@[simp] theorem State.setProc_tpm (s : State) (q : ProcId) (p : Proc) : (s.setProc q p).tpm = s.tpm := by
  cases q <;> rfl

@[simp] theorem State.setProc_ipis (s : State) (q : ProcId) (p : Proc) : (s.setProc q p).ipis = s.ipis := by
  cases q <;> rfl

@[simp] theorem State.setProc_device (s : State) (q : ProcId) (p : Proc) : (s.setProc q p).device = s.device := by
  cases q <;> rfl

@[simp] theorem State.setProc_lastRead (s : State) (q : ProcId) (p : Proc) : (s.setProc q p).lastRead = s.lastRead := by
  cases q <;> rfl

@[simp] theorem State.setProc_agenda (s : State) (q : ProcId) (p : Proc) : (s.setProc q p).agenda = s.agenda := by
  cases q <;> rfl

@[simp] theorem State.setProc_draws (s : State) (q : ProcId) (p : Proc) : (s.setProc q p).draws = s.draws := by
  cases q <;> rfl

@[simp] theorem State.setProc_aps_length (s : State) (q : ProcId) (p : Proc) :
    (s.setProc q p).aps.length = s.aps.length := by
  cases q <;> simp [State.setProc]

/-- The processor put in is there, if there was one. -/
@[simp] theorem State.proc?_setProc_same (s : State) (q : ProcId) (p : Proc) :
    (s.setProc q p).proc? q = (s.proc? q).map fun _ => p := by
  cases q with
  | bsp => rfl
  | ap i =>
    simp only [State.proc?, State.setProc, List.getElem?_set_self']
    cases s.aps[i]? <;> rfl

theorem State.proc?_setProc_of_some {s : State} {q : ProcId} {p : Proc} (h : s.proc? q = some p) (p' : Proc) :
    (s.setProc q p').proc? q = some p' := by
  simp [h]

/-- Every other processor is as it was. -/
theorem State.proc?_setProc_other (s : State) {q q' : ProcId} (p : Proc) (h : q' ≠ q) :
    (s.setProc q p).proc? q' = s.proc? q' := by
  cases q <;> cases q' <;> simp_all [State.proc?, State.setProc]
  exact List.getElem?_set_ne (fun e => h e.symm)

/-- A processor of the changed state is the one put in, or it is another and as it was. -/
theorem State.proc?_setProc_cases {s : State} {q q' : ProcId} {p p' : Proc} (h : (s.setProc q p).proc? q' = some p') :
    (q' = q ∧ p' = p) ∨ (q' ≠ q ∧ s.proc? q' = some p') := by
  by_cases e : q' = q
  · subst e
    rw [State.proc?_setProc_same] at h
    cases hq : s.proc? q' <;> simp_all
  · exact .inr ⟨e, by rwa [State.proc?_setProc_other _ _ e] at h⟩

@[simp] theorem State.setProc_proc (s : State) {q : ProcId} {p : Proc} (h : s.proc? q = some p) : s.setProc q p = s := by
  cases q with
  | bsp =>
    simp only [State.proc?, Option.some.injEq] at h
    subst h
    rfl
  | ap i =>
    obtain ⟨hi, rfl⟩ := List.getElem?_eq_some_iff.1 h
    simp [State.setProc]

@[simp] theorem State.midSkinit_setProc (s : State) (q q' : ProcId) (p : Proc) :
    (s.setProc q p).midSkinit q' = s.midSkinit q' := by
  cases q' <;> simp [State.midSkinit]

/-! ### Bytes pushed -/

@[simp] theorem State.push_params (s : State) (l : List Host.Cell) : (s.push l).params = s.params := rfl
@[simp] theorem State.push_cur (s : State) (l : List Host.Cell) : (s.push l).cur = s.cur := rfl
@[simp] theorem State.push_bsp (s : State) (l : List Host.Cell) : (s.push l).bsp = s.bsp := rfl
@[simp] theorem State.push_aps (s : State) (l : List Host.Cell) : (s.push l).aps = s.aps := rfl
@[simp] theorem State.push_mcs (s : State) (l : List Host.Cell) : (s.push l).mcs = s.mcs := rfl
@[simp] theorem State.push_skinit (s : State) (l : List Host.Cell) : (s.push l).skinit = s.skinit := rfl
@[simp] theorem State.push_tpm (s : State) (l : List Host.Cell) : (s.push l).tpm = s.tpm := rfl
@[simp] theorem State.push_agenda (s : State) (l : List Host.Cell) : (s.push l).agenda = s.agenda := rfl
@[simp] theorem State.push_skinitLatch (s : State) (l : List Host.Cell) : (s.push l).skinitLatch = s.skinitLatch := rfl
@[simp] theorem State.push_ipis (s : State) (l : List Host.Cell) : (s.push l).ipis = s.ipis := rfl
@[simp] theorem State.push_device (s : State) (l : List Host.Cell) : (s.push l).device = s.device := rfl
@[simp] theorem State.push_lastRead (s : State) (l : List Host.Cell) : (s.push l).lastRead = s.lastRead := rfl
@[simp] theorem State.push_draws (s : State) (l : List Host.Cell) : (s.push l).draws = s.draws := rfl
@[simp] theorem State.push_proc? (s : State) (l : List Host.Cell) (q : ProcId) : (s.push l).proc? q = s.proc? q := by
  cases q <;> rfl

/-! ### The busy indication and the count of R166 -/

/-- The count of R166 is kept or started again, and started where the busy indication clears. -/
structure Proc.Timed (p p' : Proc) : Prop where
  kept : p'.sinceClear = p.sinceClear ∨ p'.sinceClear = some 0
  started : p.apicBusy = true → p'.apicBusy = false → p'.sinceClear = some 0

theorem Proc.Timed.of_eq {p p' : Proc} (h : p'.sinceClear = p.sinceClear) (hb : p'.apicBusy = p.apicBusy) : p.Timed p' :=
  ⟨.inl h, fun h1 h2 => by rw [hb, h1] at h2; cases h2⟩

theorem Proc.Timed.trans {p q r : Proc} (h : p.Timed q) (k : q.Timed r) : p.Timed r where
  kept := k.kept.elim (fun e => h.kept.imp (e.trans ·) (e.trans ·)) .inr
  started hp hr := by
    cases hq : q.apicBusy with
    | true => exact k.started hq hr
    | false => exact k.kept.elim (·.trans (h.started hp hq)) id

theorem Proc.withBusy_sinceClear (p : Proc) (b : Bool) :
    (p.withBusy b).sinceClear = if p.apicBusy && !b then some 0 else p.sinceClear := rfl

theorem Proc.timed_withBusy (p : Proc) (b : Bool) : p.Timed (p.withBusy b) where
  kept := by simp only [Proc.withBusy_sinceClear]; split <;> simp
  started h1 h2 := by
    obtain rfl : b = false := h2
    simp [Proc.withBusy_sinceClear, h1]

theorem Proc.timed_delivered (p : Proc) (d : DeliverImage) : p.Timed (p.delivered d) :=
  (p.timed_withBusy d.apicBusy).trans (.of_eq rfl rfl)

theorem Proc.timed_initState (p : Proc) : p.Timed p.initState :=
  (p.timed_withBusy (Config.initImage p).apicBusy).trans (.of_eq rfl rfl)

theorem Proc.timed_resetTo (p p0 : Proc) : p.Timed (p.resetTo p0) :=
  (p.timed_withBusy p0.apicBusy).trans (.of_eq rfl rfl)

/-! ### INIT IPIs accepted: the senders settle -/

/-- A sender that settles changes its busy indication and the wait, or nothing. -/
theorem Proc.settle_eq (p : Proc) (before after : List Ipi) (q : ProcId) :
    p.settle before after q = p ∨ p.settle before after q = { p with apicBusy := false, sinceClear := some 0 } := by
  unfold Proc.settle
  split
  · exact .inr rfl
  · exact .inl rfl

/-- Who has an IPI in flight afterwards does not settle, nor does who had none before. -/
theorem Proc.settle_of_mem {after : List Ipi} {q : ProcId} {i : Ipi} (hi : i ∈ after) (hq : i.sender = q) (p : Proc)
    (before : List Ipi) : p.settle before after q = p := by
  have : (after.any fun i => decide (i.sender = q)) = true := List.any_eq_true.2 ⟨i, hi, by simp [hq]⟩
  simp [Proc.settle, this]

theorem Proc.settle_of_forall_not_mem {before : List Ipi} {q : ProcId} (h : ∀ i ∈ before, i.sender ≠ q) (p : Proc)
    (after : List Ipi) : p.settle before after q = p := by
  have : (before.any fun i => decide (i.sender = q)) = false := by
    rw [List.any_eq_false]
    intro i hi
    simp [h i hi]
  simp [Proc.settle, this]

theorem Proc.settle_of_subset {before after : List Ipi} (h : ∀ i ∈ before, ∃ j ∈ after, j.sender = i.sender) (p : Proc)
    (q : ProcId) : p.settle before after q = p := by
  by_cases hq : ∃ i ∈ before, i.sender = q
  · obtain ⟨i, hi, rfl⟩ := hq
    obtain ⟨j, hj, e⟩ := h i hi
    exact Proc.settle_of_mem hj e p before
  · exact Proc.settle_of_forall_not_mem (fun i hi e => hq ⟨i, hi, e⟩) p after

/-- Where no sender loses its last IPI, only the list of those in flight changes. -/
theorem State.retire_of_subset {s : State} {after : List Ipi} (h : ∀ i ∈ s.ipis, ∃ j ∈ after, j.sender = i.sender) :
    s.retire after = { s with ipis := after } := by
  simp only [State.retire, Proc.settle_of_subset h]
  congr 1
  exact List.ext_getElem (by simp) (by simp)

@[simp] theorem State.retire_self (s : State) : s.retire s.ipis = s :=
  State.retire_of_subset fun i hi => ⟨i, hi, rfl⟩

@[simp] theorem State.retire_params (s : State) (l : List Ipi) : (s.retire l).params = s.params := rfl
@[simp] theorem State.retire_cur (s : State) (l : List Ipi) : (s.retire l).cur = s.cur := rfl
@[simp] theorem State.retire_mem (s : State) (l : List Ipi) : (s.retire l).mem = s.mem := rfl
@[simp] theorem State.retire_mcs (s : State) (l : List Ipi) : (s.retire l).mcs = s.mcs := rfl
@[simp] theorem State.retire_skinitLatch (s : State) (l : List Ipi) : (s.retire l).skinitLatch = s.skinitLatch := rfl
@[simp] theorem State.retire_skinit (s : State) (l : List Ipi) : (s.retire l).skinit = s.skinit := rfl
@[simp] theorem State.retire_tpm (s : State) (l : List Ipi) : (s.retire l).tpm = s.tpm := rfl
@[simp] theorem State.retire_ipis (s : State) (l : List Ipi) : (s.retire l).ipis = l := rfl
@[simp] theorem State.retire_device (s : State) (l : List Ipi) : (s.retire l).device = s.device := rfl
@[simp] theorem State.retire_lastRead (s : State) (l : List Ipi) : (s.retire l).lastRead = s.lastRead := rfl
@[simp] theorem State.retire_agenda (s : State) (l : List Ipi) : (s.retire l).agenda = s.agenda := rfl
@[simp] theorem State.retire_draws (s : State) (l : List Ipi) : (s.retire l).draws = s.draws := rfl
@[simp] theorem State.retire_bsp (s : State) (l : List Ipi) : (s.retire l).bsp = s.bsp.settle s.ipis l .bsp := rfl
@[simp] theorem State.retire_aps_length (s : State) (l : List Ipi) : (s.retire l).aps.length = s.aps.length := by
  simp [State.retire]

/-- Every processor settles. -/
@[simp] theorem State.retire_proc? (s : State) (l : List Ipi) (q : ProcId) :
    (s.retire l).proc? q = (s.proc? q).map fun p => p.settle s.ipis l q := by
  cases q with
  | bsp => rfl
  | ap i => simp [State.proc?, State.retire]

@[simp] theorem State.midSkinit_retire (s : State) (l : List Ipi) (q : ProcId) : (s.retire l).midSkinit q = s.midSkinit q := by
  cases q <;> rfl

/-! ### A processor's own updates: what each keeps -/

@[simp] theorem Proc.hold_pending (p : Proc) (e : Event) : (p.hold e).pending = p.pending.hold e := rfl
@[simp] theorem Proc.hold_gif (p : Proc) (e : Event) : (p.hold e).gif = p.gif := rfl
@[simp] theorem Proc.hold_msrs (p : Proc) (e : Event) : (p.hold e).msrs = p.msrs := rfl
@[simp] theorem Proc.hold_run (p : Proc) (e : Event) : (p.hold e).run = p.run := rfl
@[simp] theorem Proc.hold_fpctl (p : Proc) (e : Event) : (p.hold e).fpctl = p.fpctl := rfl

@[simp] theorem Proc.drop_pending (p : Proc) (e : Event) : (p.drop e).pending = p.pending.drop e := rfl
@[simp] theorem Proc.drop_gif (p : Proc) (e : Event) : (p.drop e).gif = p.gif := rfl
@[simp] theorem Proc.drop_msrs (p : Proc) (e : Event) : (p.drop e).msrs = p.msrs := rfl
@[simp] theorem Proc.drop_run (p : Proc) (e : Event) : (p.drop e).run = p.run := rfl
@[simp] theorem Proc.drop_fpctl (p : Proc) (e : Event) : (p.drop e).fpctl = p.fpctl := rfl
@[simp] theorem Proc.drop_excs (p : Proc) (e : Event) : (p.drop e).excs = p.excs := rfl

@[simp] theorem Proc.delivered_pending (p : Proc) (d : DeliverImage) : (p.delivered d).pending = p.pending := rfl
@[simp] theorem Proc.delivered_gif (p : Proc) (d : DeliverImage) : (p.delivered d).gif = p.gif := rfl
@[simp] theorem Proc.delivered_vmcr (p : Proc) (d : DeliverImage) : (p.delivered d).msrs.vmcr = p.msrs.vmcr := rfl
@[simp] theorem Proc.delivered_fpctl (p : Proc) (d : DeliverImage) : (p.delivered d).fpctl = p.fpctl := rfl
@[simp] theorem Proc.delivered_excs (p : Proc) (d : DeliverImage) : (p.delivered d).excs = p.excs := rfl
@[simp] theorem Proc.delivered_eferWidth (p : Proc) (d : DeliverImage) :
    (p.delivered d).msrs.efer.width = p.msrs.efer.width := rfl
@[simp] theorem Proc.delivered_run (p : Proc) (d : DeliverImage) :
    (p.delivered d).run = if d.shutdown then .shutdown else p.run := rfl

@[simp] theorem Proc.initState_pending (p : Proc) : p.initState.pending = p.pending := rfl
@[simp] theorem Proc.initState_gif (p : Proc) : p.initState.gif = p.gif := rfl
@[simp] theorem Proc.initState_vmcr (p : Proc) : p.initState.msrs.vmcr = p.msrs.vmcr := rfl
@[simp] theorem Proc.initState_fpctl (p : Proc) : p.initState.fpctl = p.fpctl := rfl
@[simp] theorem Proc.initState_eferWidth (p : Proc) : p.initState.msrs.efer.width = p.msrs.efer.width := rfl
@[simp] theorem Proc.initState_breakpoints (p : Proc) : p.initState.breakpoints = [] := rfl
@[simp] theorem Proc.initState_trap (p : Proc) : p.initState.eflags.trap = false := rfl
@[simp] theorem Proc.initState_run (p : Proc) : p.initState.run = p.run := rfl
@[simp] theorem Proc.initState_excs (p : Proc) : p.initState.excs = p.excs := rfl

@[simp] theorem Proc.initHalt_pending (p : Proc) : p.initHalt.pending = p.pending := rfl
@[simp] theorem Proc.initHalt_gif (p : Proc) : p.initHalt.gif = p.gif := rfl
@[simp] theorem Proc.initHalt_vmcr (p : Proc) : p.initHalt.msrs.vmcr = p.msrs.vmcr := rfl
@[simp] theorem Proc.initHalt_fpctl (p : Proc) : p.initHalt.fpctl = p.fpctl := rfl
@[simp] theorem Proc.initHalt_run (p : Proc) : p.initHalt.run = .initHalted := rfl

@[simp] theorem Proc.startup_pending (p : Proc) (l : Bool) (v : Byte) (d : Nat) :
    (p.startup l v d).pending = p.pending := by
  cases l <;> rfl

@[simp] theorem Proc.startup_run (p : Proc) (l : Bool) (v : Byte) (d : Nat) : (p.startup l v d).run = .running := by
  cases l <;> rfl

@[simp] theorem Proc.startup_gif (p : Proc) (l : Bool) (v : Byte) (d : Nat) :
    (p.startup l v d).gif = (p.gif && !l) := by
  cases l <;> simp [Proc.startup, Proc.secureStartup, Proc.ordinaryStartup]

@[simp] theorem Proc.startup_efer (p : Proc) (l : Bool) (v : Byte) (d : Nat) :
    (p.startup l v d).msrs.efer = p.msrs.efer := by
  cases l <;> rfl

@[simp] theorem Proc.startup_vmcr (p : Proc) (l : Bool) (v : Byte) (d : Nat) :
    (p.startup l v d).msrs.vmcr = if l then p.msrs.vmcr.secured else p.msrs.vmcr := by
  cases l <;> rfl

@[simp] theorem Params.procAtReset_pending (c : Params) (q : ProcId) :
    (c.procAtReset q).pending = c.resetProc.pending := by
  cases q <;> rfl

/-! ### Held sets -/

/-- Holding keeps the canonical form; so does dropping. -/
theorem Pending.wf_hold {h : Pending} (e : Event) (w : h.wf = true) : (h.hold e).wf = true := by
  rcases e with v | _ | _ | s
  · exact ascending_insertAscending w
  · exact w
  · exact w
  · cases hi : h.init <;> simp only [Pending.hold, hi] <;> exact w

theorem Pending.wf_drop {h : Pending} (e : Event) (w : h.wf = true) : (h.drop e).wf = true := by
  rcases e with v | _ | _ | s
  · exact ascending_removeAscending w
  · exact w
  · exact w
  · exact w

theorem InitOrigin.cameBy_join (o : InitOrigin) (src src' : InitSource) :
    (o.join src).cameBy src' = (o.cameBy src' || decide (src' = src)) := by
  cases o <;> cases src <;> cases src' <;> rfl

theorem InitSource.cameBy_origin (src src' : InitSource) : src.origin.cameBy src' = decide (src' = src) := by
  cases src <;> cases src' <;> rfl

/-- An event held is in the set. -/
theorem Pending.has_hold_same (h : Pending) (e : Event) : (h.hold e).has e = true := by
  rcases e with v | _ | _ | s
  · simp [Pending.hold, Pending.has, mem_insertAscending]
  · rfl
  · rfl
  · cases hi : h.init <;> simp [Pending.hold, Pending.has, hi, InitOrigin.cameBy_join, InitSource.cameBy_origin]

/-- Holding an event loses none. -/
theorem Pending.has_hold_of_has {h : Pending} {e' : Event} (e : Event) (w : h.has e' = true) :
    (h.hold e).has e' = true := by
  rcases e with v | _ | _ | s <;> rcases e' with v' | _ | _ | s' <;> cases hi : h.init <;>
    simp_all [Pending.hold, Pending.has, mem_insertAscending, InitOrigin.cameBy_join]

/-- An event dropped from a canonical set is not in it. -/
theorem Pending.has_drop_same {h : Pending} (e : Event) (w : h.wf = true) : (h.drop e).has e = false := by
  rcases e with v | _ | _ | s
  · simpa [Pending.drop, Pending.has] using not_mem_removeAscending w
  · rfl
  · rfl
  · rfl

/-- There is one held INIT: once it is taken none is held (R30). -/
theorem Pending.has_drop_init (h : Pending) (src src' : InitSource) : (h.drop (.init src)).has (.init src') = false := rfl

/-! ### Exceptions that are not `#SX` -/

/-- The vector of `#SX` is passed over (R111). -/
theorem ExcRecord.notSx_vector_ne (e : ExcRecord) : e.notSx.vector ≠ 30 := by
  show (if e.vector < 30 then e.vector else e.vector + 1) ≠ 30
  split_ifs <;> omega

/-! ### Words -/

theorem alignedSlb_slbBlock (h : Half) : alignedSlb (h ++ 0#16) = true := by
  have : (h ++ 0#16 : Word) &&& 0xFFFF#32 = 0#32 := by
    apply BitVec.eq_of_getLsbD_eq
    intro i hi
    simp only [BitVec.getLsbD_and, BitVec.getLsbD_append, BitVec.getLsbD_zero]
    rcases Nat.lt_or_ge i 16 with h16 | h16
    · simp [h16]
    · have : (0xFFFF#32 : Word).getLsbD i = false := by
        have : i < 32 := hi
        interval_cases i <;> decide
      simp [this]
  simp [alignedSlb, this]

end Sys2Proof.Machine
end

