-- ==== Sys2Proof/Laws/Ops.lean ====
section
/-! SUPPORT. What the shared operations do, said once each: the gates of delivery, `VM_CR` bit by bit, device protection, the
existence of addresses. -/

namespace Sys2Proof.Machine

/-! ### Delivery -/

/-- With `GIF` clear nothing is deliverable. -/
theorem State.not_deliverable_of_gif (s : State) (q : ProcId) {p : Proc} (e : Event) (h : p.gif = false) :
    s.deliverable q p e = false := by
  cases e <;> simp [State.deliverable, Proc.gateOpen, h]

/-- Away from a boundary nothing is. -/
theorem State.not_deliverable_of_boundary {s : State} {q : ProcId} {p : Proc} (e : Event) (h : s.atBoundary q p = false) :
    s.deliverable q p e = false := by
  simp [State.deliverable, h]

/-- Holding an INIT IPI at its target changes no sender. -/
theorem holdAt_senders {k : Nat} {i : Ipi} {l : List Ipi} (hi : l[k]? = some i) :
    ∀ j ∈ l, ∃ j' ∈ holdAt k i l, j'.sender = j.sender := by
  intro j hj
  obtain ⟨n, hn, rfl⟩ := List.getElem_of_mem hj
  obtain ⟨hk, rfl⟩ := List.getElem?_eq_some_iff.1 hi
  refine ⟨(holdAt k l[k] l)[n]'(by simpa [holdAt] using hn), List.getElem_mem _, ?_⟩
  simp only [holdAt, List.getElem_set]
  split_ifs with h
  · subst h
    rfl
  · rfl

/-! ### `VM_CR`, bit by bit -/

theorem getLsbD_bitMask (i : Fin 64) (k : Nat) : (bitMask i).getLsbD k = decide (k = i.val) := by
  have := i.isLt
  simp only [bitMask, BitVec.getLsbD_twoPow]
  by_cases h : k = i.val
  · simp [h]
  · have h' : ¬ i.val = k := fun e => h e.symm
    simp [h, h']

theorem Params.getLsbD_vmCrFlagMask (c : Params) (k : Nat) :
    c.vmCrFlagMask.getLsbD k = (decide (k = c.dpdBit.val) || decide (k = c.rInitBit.val) || decide (k = c.disA20mBit.val)) := by
  simp [Params.vmCrFlagMask, BitVec.getLsbD_or, getLsbD_bitMask]

theorem VmCr.getLsbD_toBits (c : Params) (r : VmCr) (k : Nat) :
    (r.toBits c).getLsbD k =
      (r.other.getLsbD k || (r.dpd && decide (k = c.dpdBit.val)) || (r.rInit && decide (k = c.rInitBit.val)) ||
        (r.disA20m && decide (k = c.disA20mBit.val))) := by
  simp only [VmCr.toBits, BitVec.getLsbD_or]
  cases r.dpd <;> cases r.rInit <;> cases r.disA20m <;> simp [getLsbD_bitMask]

/-- The register's contents read back as the contents they were written as, whatever the bits. -/
theorem VmCr.toBits_ofBits (c : Params) (v : Quad) : (VmCr.ofBits c v).toBits c = v := by
  apply BitVec.eq_of_getLsbD_eq
  intro k hk
  rw [VmCr.getLsbD_toBits]
  simp only [VmCr.ofBits, BitVec.getLsbD_and, BitVec.getLsbD_not, Params.getLsbD_vmCrFlagMask, hk, decide_true, Bool.true_and]
  have at_ : ∀ i : Nat, (v.getLsbD i && decide (k = i)) = (v.getLsbD k && decide (k = i)) := fun i => by
    by_cases h : k = i <;> simp [h]
  rw [at_, at_, at_]
  generalize v.getLsbD k = b, decide (k = c.dpdBit.val) = b1, decide (k = c.rInitBit.val) = b2,
    decide (k = c.disA20mBit.val) = b3
  revert b b1 b2 b3
  decide

/-! ### Device protection and addresses -/

theorem MemCtl.blocks_iff {m : MemCtl} {a n : Nat} :
    m.blocks a n = true ↔ m.en = true ∧ 0 < n ∧ a < m.base.toNat + 0x10000 ∧ m.base.toNat < a + n := by
  rw [MemCtl.blocks, Bool.and_eq_true, Bool.and_eq_true, Bool.and_eq_true, decide_eq_true_iff, decide_eq_true_iff,
    decide_eq_true_iff, MemCtl.top, and_assoc, and_assoc]

theorem Params.allExist_range {c : Params} {a n : Nat} (h : a + n ≤ c.paSpace) :
    c.allExist ((List.range n).map (a + ·)) = true := by
  simp only [Params.allExist, List.all_eq_true, decide_eq_true_eq]
  intro x hx
  obtain ⟨k, hk, rfl⟩ := List.mem_map.1 hx
  rw [List.mem_range] at hk
  omega

/-! ### `MEMCTL` at reset -/

theorem le_foldl_max (l : List Nat) (a : Nat) : a ≤ l.foldl max a ∧ ∀ x ∈ l, x ≤ l.foldl max a := by
  induction l generalizing a with
  | nil => simp
  | cons b l ih =>
    obtain ⟨h1, h2⟩ := ih (max a b)
    refine ⟨(le_max_left a b).trans h1, fun x hx => ?_⟩
    rcases List.mem_cons.1 hx with rfl | hx
    · exact (le_max_right a x).trans h1
    · exact h2 x hx

end Sys2Proof.Machine
end

