-- ==== Sys2Proof/Laws/PerInstr.lean ====
section
/-! SUPPORT. Statements made of every instruction, one lemma per constructor. -/

namespace Sys2Proof.Laws

/-- The instruction is well formed, fits with its prefix in the longest instruction's bytes, and its encoding decodes to it
whatever bytes follow, after one SS override prefix too (R66 to R69). -/
def DecodeEncode.Statement (i : Instr) : Prop :=
  i.wf = true ∧ i.size + 1 ≤ maxInstrBytes ∧
    ∀ rest : List Byte, decode (encode i ++ rest) = .ok (i, rest) ∧ decode (ssOverride :: (encode i ++ rest)) = .ok (i, rest)

theorem DecodeEncode.skinit : DecodeEncode.Statement .skinit :=
  ⟨rfl, by decide, fun _ => ⟨rfl, rfl⟩⟩

theorem DecodeEncode.cpuid : DecodeEncode.Statement .cpuid :=
  ⟨rfl, by decide, fun _ => ⟨rfl, rfl⟩⟩

end Sys2Proof.Laws
end

