-- ==== Sys2Proof/Laws/Skinit.lean ====
section
/-! SUPPORT. SKINIT: what its steps keep, said once, and how they run on. -/

namespace Sys2Proof.Machine

theorem alignedSlb_slbBase (a : Word) : alignedSlb (slbBase a) = true := by
  have : slbBase a &&& 0xFFFF#32 = 0#32 := by
    rw [slbBase, BitVec.and_assoc]
    have : (0xFFFF0000#32 &&& 0xFFFF#32 : Word) = 0#32 := by decide
    rw [this, BitVec.and_zero]
  simp [alignedSlb, this]

/-- The operand with bits 15:0 cleared, as a number. -/
theorem toNat_slbBase (a : Word) : (slbBase a).toNat = a.toNat / 65536 * 65536 := by
  have h : slbBase a = (a >>> 16) <<< 16 := by
    apply BitVec.eq_of_getLsbD_eq
    intro i hi
    simp only [slbBase, BitVec.getLsbD_and, BitVec.getLsbD_shiftLeft, BitVec.getLsbD_ushiftRight]
    rcases Nat.lt_or_ge i 16 with h16 | h16
    · have : (0xFFFF0000#32 : Word).getLsbD i = false := by interval_cases i <;> decide
      simp [this, h16]
    · have : (0xFFFF0000#32 : Word).getLsbD i = true := by
        have : i < 32 := hi
        interval_cases i <;> decide
      have h16' : ¬ i < 16 := by omega
      have : 16 + (i - 16) = i := by omega
      simp_all
  have := a.isLt
  rw [h, BitVec.toNat_shiftLeft, BitVec.toNat_ushiftRight, Nat.shiftLeft_eq, Nat.shiftRight_eq_div_pow]
  omega

/-- What SKINIT, at whatever step it stands, has kept of the BSP and made of it. -/
structure Proc.SkinitOf (p p' : Proc) : Prop where
  pending : p'.pending = p.pending
  fpctl : p'.fpctl = p.fpctl
  other : p'.msrs.vmcr.other = p.msrs.vmcr.other
  eferWidth : p'.msrs.efer.width = p.msrs.efer.width
  timed : p.Timed p'
  ctx : p'.ctx = p.ctx ∨ p'.ctx = .host
  a20m : p'.a20m = p.a20m
  excs : p'.excs = p.excs
  gif : p'.gif = true → p.gif = true
  run : p'.run = p.run ∨ p'.run = .running

theorem Proc.SkinitOf.refl (p : Proc) : p.SkinitOf p :=
  ⟨rfl, rfl, rfl, rfl, .of_eq rfl rfl, .inl rfl, rfl, rfl, id, .inl rfl⟩

theorem Proc.SkinitOf.trans {p q r : Proc} (h : p.SkinitOf q) (k : q.SkinitOf r) : p.SkinitOf r where
  pending := k.pending.trans h.pending
  fpctl := k.fpctl.trans h.fpctl
  other := k.other.trans h.other
  eferWidth := k.eferWidth.trans h.eferWidth
  timed := h.timed.trans k.timed
  ctx := k.ctx.elim (fun e => h.ctx.imp (e.trans ·) (e.trans ·)) .inr
  a20m := k.a20m.trans h.a20m
  excs := k.excs.trans h.excs
  gif e := h.gif (k.gif e)
  run := k.run.elim (fun e => h.run.imp (e.trans ·) (e.trans ·)) .inr

/-- What SKINIT, at whatever step it stands, has kept of the whole machine and made of it. -/
structure State.SkinitOf (s t : State) : Prop where
  params : t.params = s.params
  aps : t.aps = s.aps
  cur : t.cur = s.cur
  mem : t.mem = s.mem
  ipis : t.ipis = s.ipis
  device : t.device = s.device
  lastRead : t.lastRead = s.lastRead
  agenda : t.agenda = s.agenda
  mcsLength : t.mcs.length = s.mcs.length
  latch : s.skinitLatch = true → t.skinitLatch = true
  bsp : s.bsp.SkinitOf t.bsp

theorem State.SkinitOf.refl (s : State) : s.SkinitOf s :=
  ⟨rfl, rfl, rfl, rfl, rfl, rfl, rfl, rfl, rfl, id, .refl _⟩

theorem State.SkinitOf.trans {s t u : State} (h : s.SkinitOf t) (k : t.SkinitOf u) : s.SkinitOf u where
  params := k.params.trans h.params
  aps := k.aps.trans h.aps
  cur := k.cur.trans h.cur
  mem := k.mem.trans h.mem
  ipis := k.ipis.trans h.ipis
  device := k.device.trans h.device
  lastRead := k.lastRead.trans h.lastRead
  agenda := k.agenda.trans h.agenda
  mcsLength := k.mcsLength.trans h.mcsLength
  latch e := k.latch (h.latch e)
  bsp := h.bsp.trans k.bsp

theorem State.skinitStep1_of (s : State) : s.SkinitOf s.skinitStep1 :=
  ⟨rfl, rfl, rfl, rfl, rfl, rfl, rfl, rfl, rfl, id,
    ⟨rfl, rfl, rfl, rfl, s.bsp.timed_initState.trans (.of_eq rfl rfl), .inr rfl, rfl, rfl, id, .inl rfl⟩⟩

/-- Steps that change nothing of the BSP but EAX, ESP, `GIF` or `pc`. -/
theorem State.skinitStep_of (s : State) (ph : SkinitPhase) : s.SkinitOf (s.skinitStep ph) := by
  cases ph with
  | step2 kept =>
    simp only [State.skinitStep, State.skinitStep2]
    generalize slbBase s.bsp.x.eax = slb
    exact ⟨rfl, rfl, rfl, rfl, rfl, rfl, rfl, rfl, by simp, id, ⟨rfl, rfl, rfl, rfl, .of_eq rfl rfl, .inl rfl, rfl, rfl, id, .inl rfl⟩⟩
  | step3 slb kept => exact ⟨rfl, rfl, rfl, rfl, rfl, rfl, rfl, rfl, rfl, fun _ => rfl, .refl _⟩
  | step4 slb hsOk => exact ⟨rfl, rfl, rfl, rfl, rfl, rfl, rfl, rfl, rfl, id, .refl _⟩
  | step5 slb hsOk => exact ⟨rfl, rfl, rfl, rfl, rfl, rfl, rfl, rfl, rfl, id, .refl _⟩
  | step6 slb => exact ⟨rfl, rfl, rfl, rfl, rfl, rfl, rfl, rfl, rfl, id,
      ⟨rfl, rfl, rfl, rfl, .of_eq rfl rfl, .inl rfl, rfl, rfl, fun h => absurd h Bool.false_ne_true, .inl rfl⟩⟩
  | step7 slb =>
    simp only [State.skinitStep, State.skinitStep7]
    generalize slb + 0x10000#32 = top
    exact ⟨rfl, rfl, rfl, rfl, rfl, rfl, rfl, rfl, rfl, id, ⟨rfl, rfl, rfl, rfl, .of_eq rfl rfl, .inl rfl, rfl, rfl, id, .inl rfl⟩⟩
  | step8 slb => exact ⟨rfl, rfl, rfl, rfl, rfl, rfl, rfl, rfl, rfl, id,
      ⟨rfl, rfl, rfl, rfl, .of_eq rfl rfl, .inl rfl, rfl, rfl, id, .inr rfl⟩⟩

/-- Whatever each further step keeps, a run of them keeps. -/
theorem State.skinitRun_induct {P : State → Prop} (hstep : ∀ s ph, P s → s.skinit = some ph → P (s.skinitStep ph))
    {s : State} (h : P s) (n : Nat) : P (s.skinitRun n) := by
  induction n generalizing s with
  | zero => exact h
  | succ n ih =>
    unfold State.skinitRun
    split
    · exact h
    · rename_i ph hph
      split
      · exact ih (hstep s ph h hph)
      · exact h

theorem State.skinitRun_of (s : State) (n : Nat) : s.SkinitOf (s.skinitRun n) :=
  State.skinitRun_induct (P := fun t => s.SkinitOf t) (fun t ph h _ => h.trans (t.skinitStep_of ph)) (.refl s) n

theorem State.skinitResume_of (s : State) (ph : SkinitPhase) : s.SkinitOf (s.skinitResume ph) :=
  (s.skinitStep_of ph).trans (State.skinitRun_of _ 7)

/-- The busy indication and the count of R166 change at step 1 alone. -/
theorem State.skinitRun_timer (s : State) (n : Nat) :
    (s.skinitRun n).bsp.apicBusy = s.bsp.apicBusy ∧ (s.skinitRun n).bsp.sinceClear = s.bsp.sinceClear :=
  State.skinitRun_induct (P := fun t => t.bsp.apicBusy = s.bsp.apicBusy ∧ t.bsp.sinceClear = s.bsp.sinceClear)
    (fun t ph h _ => by
      cases ph <;> simpa [State.skinitStep, State.skinitStep2, State.skinitStep3, State.skinitStep4, State.skinitStep5,
        State.skinitStep6, State.skinitStep7, State.skinitStep8] using h) ⟨rfl, rfl⟩ n

/-- Where another agent has a move to make, no further step runs. -/
theorem State.skinitRun_of_agenda {s : State} (h : s.agenda ≠ []) (n : Nat) : s.skinitRun n = s := by
  cases n with
  | zero => rfl
  | succ n =>
    unfold State.skinitRun
    split
    · rfl
    · rw [if_neg (by simpa using h)]

/-- What SKINIT answers where it answers a next state: it is executed within its use, and this is the state (R82, D7). -/
theorem execSkinit_eq_next {s t : State} :
    execSkinit s = .next t ↔
      s.cur = .bsp ∧ s.bsp.ctx = .host ∧ s.bsp.pe = true ∧ s.bsp.privileged = true ∧
        t = s.skinitStep1.skinitRun 7 := by
  unfold execSkinit
  cases hcur : s.cur with
  | ap i => simp
  | bsp => cases hctx : s.bsp.ctx <;> cases hpe : s.bsp.pe <;> cases hpr : s.bsp.privileged <;>
      simp [Context.isGuest, eq_comm (a := t)]

/-- SKINIT at whatever step it stands, from the state before it. -/
theorem execSkinit_of {s t : State} (h : execSkinit s = .next t) : s.SkinitOf t := by
  obtain ⟨-, -, -, -, rfl⟩ := execSkinit_eq_next.1 h
  exact s.skinitStep1_of.trans (State.skinitRun_of _ 7)

/-- With nobody else moving, the seven further steps follow step 1. -/
theorem State.skinitRun_whole {s : State} (h : s.agenda = []) :
    s.skinitStep1.skinitRun 7 =
      let s1 := s.skinitStep1
      let slb := slbBase s1.bsp.x.eax
      let kept := s.bsp.delayKept s.params
      let s2 := s1.skinitStep2 kept
      let hsOk := s2.handshake kept
      (((((s2.skinitStep3 slb kept).skinitStep4 slb hsOk).skinitStep5 slb hsOk).skinitStep6 slb).skinitStep7 slb).skinitStep8 slb := by
  simp [State.skinitRun, State.skinitStep, State.skinitStep1, State.skinitStep2, State.skinitStep3, State.skinitStep4,
    State.skinitStep5, State.skinitStep6, State.skinitStep7, State.skinitStep8, h]

end Sys2Proof.Machine
end

