-- ==== Sys2Proof/Laws/Step.lean ====
section
/-! SUPPORT. What a step can do, said once: to a processor (`ProcChange`), and to the rest of the machine (`MoveEffect`,
`TransitionEffect`). Statements about the whole machine follow by cases on these. -/

namespace Sys2Proof.Machine

/-! ### The shape of a step -/

@[simp] theorem State.proc?_agenda (s : State) (l : List Move) (q : ProcId) :
    ({ s with agenda := l } : State).proc? q = s.proc? q := by
  cases q <;> rfl

@[simp] theorem State.midSkinit_agenda (s : State) (l : List Move) (q : ProcId) :
    ({ s with agenda := l } : State).midSkinit q = s.midSkinit q := by
  cases q <;> rfl

/-- With no agenda a step is the executing processor's transition. -/
theorem step_of_nil {s : State} (h : s.agenda = []) : step s = s.procStep := by
  simp [step, State.advance, h]

/-- With an agenda a step is its first move. -/
theorem step_of_cons {s : State} {m : Move} {rest : List Move} (h : s.agenda = m :: rest) :
    step s = ({ s with agenda := rest } : State).doMove m := by
  simp [step, State.advance, h]

/-- A run whose first step gives a next state goes on from there. -/
theorem core_run_succ {s t : State} (h : step s = .next t) (n : Nat) :
    Sys2Proof.core.run (n + 1) s = Sys2Proof.core.run n t := by
  have h' : Sys2Proof.core.step s = .next t := h
  simp only [Host.Core.run, h']

/-- And one that ends in a state began so. -/
theorem core_run_succ_eq_next {s t : State} {n : Nat} (h : Sys2Proof.core.run (n + 1) s = .next t) :
    ∃ u, step s = .next u ∧ Sys2Proof.core.run n u = .next t := by
  simp only [Host.Core.run] at h
  split at h
  · rename_i u hu
    exact ⟨u, hu, h⟩
  · cases h
  · cases h

/-! ### The shape of a move of a named processor -/

theorem State.onProc_eq_next {s t : State} {q : ProcId} {f : Proc → Result} :
    s.onProc q f = .next t ↔ ∃ p, s.proc? q = some p ∧ f p = .next t := by
  unfold State.onProc
  cases s.proc? q <;> simp

theorem State.onProc_of_some {s : State} {q : ProcId} {p : Proc} (h : s.proc? q = some p) (f : Proc → Result) :
    s.onProc q f = f p := by
  simp [State.onProc, h]

/-- A software action answers a next state by its own effect at a boundary, or has no effect. -/
theorem State.bySoftware_eq_next {s t : State} {q : ProcId} {f : Proc → Result} (h : s.bySoftware q f = .next t) :
    t = s ∨ ∃ p, s.proc? q = some p ∧ s.atBoundary q p = true ∧ f p = .next t := by
  obtain ⟨p, hp, h⟩ := State.onProc_eq_next.1 h
  split at h
  · rename_i hb
    split at h
    · cases h
    · exact .inr ⟨p, hp, hb, h⟩
  · exact .inl (by cases h; rfl)

theorem State.atBoundary_iff {s : State} {q : ProcId} {p : Proc} :
    s.atBoundary q p = true ↔ p.run = .running ∧ s.midSkinit q = false := by
  simp [State.atBoundary, Proc.isRunning]

theorem State.bySoftware_of_boundary {s : State} {q : ProcId} {p : Proc} (h : s.proc? q = some p)
    (hr : p.run = .running) (hm : s.midSkinit q = false) (hn : p.nestedUnsupported s.params = false) (f : Proc → Result) :
    s.bySoftware q f = f p := by
  rw [State.bySoftware, State.onProc_of_some h, if_pos (State.atBoundary_iff.2 ⟨hr, hm⟩), if_neg (by simp [hn])]

/-- The same, for the state a step leaves the agenda of. -/
theorem State.onProc_agenda {s : State} {q : ProcId} {p : Proc} (h : s.proc? q = some p) (l : List Move) (f : Proc → Result) :
    ({ s with agenda := l } : State).onProc q f = f p :=
  State.onProc_of_some (by simpa using h) f

theorem State.bySoftware_agenda {s : State} {q : ProcId} {p : Proc} (h : s.proc? q = some p) (hr : p.run = .running)
    (hm : s.midSkinit q = false) (hn : p.nestedUnsupported s.params = false) (l : List Move) (f : Proc → Result) :
    ({ s with agenda := l } : State).bySoftware q f = f p :=
  State.bySoftware_of_boundary (s := { s with agenda := l }) (by simpa using h) hr (by simpa using hm) hn f

/-- A running processor outside SKINIT runs the instruction at its `pc`. -/
theorem State.procStep_of_running {s : State} {p : Proc} (hm : s.midSkinit s.cur = false) (hp : s.proc? s.cur = some p)
    (hr : p.run = .running) : s.procStep = s.runInstr p := by
  simp [State.procStep, State.onProc_of_some hp, hm, Proc.isRunning, hr]

/-! ### What one step can make of a processor -/

/-- `p0` is `p` after its INIT IPIs in flight changed: as it was, or its busy indication clear and the wait of R166 begun. -/
def Proc.Settled (p p0 : Proc) : Prop := p0 = p ∨ p0 = { p with apicBusy := false, sinceClear := some 0 }

theorem Proc.settled_settle (p : Proc) (before after : List Ipi) (q : ProcId) : p.Settled (p.settle before after q) :=
  p.settle_eq before after q

theorem Proc.Settled.timed {p p0 : Proc} (h : p.Settled p0) : p.Timed p0 := by
  rcases h with rfl | rfl
  · exact .of_eq rfl rfl
  · exact ⟨.inr rfl, fun _ _ => rfl⟩

/-- The move `m` of a step that begins in `s` takes an INIT at `q`, whose state is `p`. -/
def State.takesInitBy (s : State) (m : Option Move) (q : ProcId) (p : Proc) : Prop :=
  (∃ src, m = some (.deliver q (.init src)) ∧ p.pending.has (.init src) = true) ∨
    ∃ k i, m = some (.acceptInitIpi k) ∧ s.ipis[k]? = some i ∧ i.target = q

/-- Everything a step that begins in `s` with the next move `m` (`none`: an empty agenda) can make of the processor `p` that `q`
names. -/
inductive ProcChange (s : State) (m : Option Move) (q : ProcId) (p : Proc) : Proc → Prop where
  /-- Nothing, or INIT IPIs of this processor were accepted. -/
  | settled (p0 : Proc) (h : p.Settled p0) : ProcChange s m q p p0
  /-- An event asserted. -/
  | hold (e : Event) : ProcChange s m q p (p.hold e)
  /-- The platform input. -/
  | a20m (l : Bool) : ProcChange s m q p { p with a20m := l }
  /-- RESET. -/
  | reset (h : m = some (.reset q)) : ProcChange s m q p (p.resetTo (s.params.procAtReset q))
  /-- A Startup IPI taken. -/
  | startup (v : Byte) (h : m = some (.startupIpi q v)) (hr : p.run = .initHalted) (hm : s.midSkinit q = false) :
      ProcChange s m q p (p.startup s.skinitLatch v s.draws)
  /-- An event delivered. -/
  | event (e : Event) (d : DeliverImage) (h : m = some (.deliver q e)) (hb : s.atBoundary q p = true)
      (hp : p.pending.has e = true) (hg : p.gateOpen e = true) : ProcChange s m q p ((p.drop e).delivered d)
  /-- A redirected INIT. -/
  | redirected (src : InitSource) (d : DeliverImage) (p0 : Proc) (ht : s.takesInitBy m q p) (h : p.Settled p0)
      (hb : s.atBoundary q p = true) (hg : p.gif = true) (hr : p.msrs.vmcr.rInit = true) :
      ProcChange s m q p
        { (p0.drop (.init src)).delivered d with excs := { vector := 30, code := some 1, savedPc := p.pc } :: p.excs }
  /-- An INIT taken as such. -/
  | initSignal (p0 : Proc) (ht : s.takesInitBy m q p) (h : p.Settled p0) (hb : s.atBoundary q p = true) (hg : p.gif = true) :
      ProcChange s m q p (p0.drop (.init .signal)).initState
  | initIpi (p0 : Proc) (ht : s.takesInitBy m q p) (h : p.Settled p0) (hb : s.atBoundary q p = true) (hg : p.gif = true) :
      ProcChange s m q p (p0.drop (.init .ipi)).initHalt
  /-- An exception taken at a boundary: a debug trap or a signalled PDPE. -/
  | raised (d : DeliverImage) (e : ExcRecord) (hb : s.atBoundary q p = true) (he : e.vector ≠ 30) :
      ProcChange s m q p { p.delivered d with excs := e :: p.excs }
  /-- A return from a handler. -/
  | returned (d : DeliverImage) (e : ExcRecord) (l : List ExcRecord) (h : p.excs = e :: l) (hb : s.atBoundary q p = true) :
      ProcChange s m q p { p.delivered { d with shutdown := false } with pc := e.savedPc, excs := l }
  /-- Shutdown. -/
  | shutdown (hb : s.atBoundary q p = true) : ProcChange s m q p { p with run := .shutdown }
  /-- Software's own actions. -/
  | gif (h : m = some (.setGif q)) (hb : s.atBoundary q p = true) : ProcChange s m q p { p with gif := true }
  | vmcr (v : Quad) (h : m = some (.writeVmcr q v)) (hb : s.atBoundary q p = true) :
      ProcChange s m q p { p with msrs := { p.msrs with vmcr := VmCr.ofBits s.params v } }
  | busy (b : Bool) (h : p.apicBusy = true → b = true) (hb : s.atBoundary q p = true) : ProcChange s m q p { p with apicBusy := b }
  | waited (n : Option Nat) (hb : s.atBoundary q p = true) : ProcChange s m q p { p with sinceClear := n }
  | segment (g : Segs) (hb : s.atBoundary q p = true) : ProcChange s m q p { p with segs := g }
  | gdtr (v : Quad) (hb : s.atBoundary q p = true) : ProcChange s m q p { p with gdtr := v }
  | mode (pe pg pdpe : Bool) (hb : s.atBoundary q p = true) :
      ProcChange s m q p { p with pe := pe, pg := pg, pdpePaging := pdpe }
  | privilege (b : Bool) (hb : s.atBoundary q p = true) : ProcChange s m q p { p with privileged := b }
  | gpr (r : Gpr) (v : Word) (hb : s.atBoundary q p = true) : ProcChange s m q p { p with x := p.x.set r v }
  | flags (intr trap : Bool) (hb : s.atBoundary q p = true) :
      ProcChange s m q p { p with eflags := { p.eflags with intr := intr, trap := trap } }
  | efer (v : Nat) (hb : s.atBoundary q p = true) :
      ProcChange s m q p { p with msrs := { p.msrs with efer := p.msrs.efer.set v } }
  | cr3 (v : Quad) (l : Option (List Quad)) (hb : s.atBoundary q p = true) :
      ProcChange s m q p { p with cr3 := v, pdpeCopy := l }
  | breakpoints (l : List Breakpoint) (hb : s.atBoundary q p = true) : ProcChange s m q p { p with breakpoints := l }
  /-- `CPUID`, after a prefix or not, and a trace trap after it. -/
  | cpuid (pc : Word) (n : Nat) (hb : s.atBoundary q p = true) : ProcChange s m q p ({ p with pc := pc }.cpuid s.params n)
  | cpuidTraced (pc : Word) (n : Nat) (d : DeliverImage) (e : ExcRecord) (hb : s.atBoundary q p = true) (he : e.vector ≠ 30) :
      ProcChange s m q p { ({ p with pc := pc }.cpuid s.params n).delivered d with excs := e :: p.excs }
  /-- SKINIT, at whatever step. -/
  | skinit (p' : Proc) (hq : q = .bsp) (hm : m = none ∧ s.cur = .bsp ∨ m = some (.proc .bsp)) (hs : s.skinitNext)
      (h : p.SkinitOf p') : ProcChange s m q p p'

theorem ProcChange.same {s : State} {m : Option Move} {q : ProcId} {p : Proc} : ProcChange s m q p p := .settled p (.inl rfl)

/-- Whatever a step does to a processor, where it clears the busy indication the count of R166 starts. -/
theorem ProcChange.started {s : State} {m : Option Move} {q : ProcId} {p p' : Proc} (h : ProcChange s m q p p')
    (h1 : p.apicBusy = true) (h2 : p'.apicBusy = false) : p'.sinceClear = some 0 := by
  have same : ∀ p1 : Proc, p1.apicBusy = p.apicBusy → p'.apicBusy = p1.apicBusy → p'.sinceClear = some 0 :=
    fun p1 e1 e2 => by rw [e2, e1, h1] at h2; cases h2
  cases h with
  | settled _ h => exact h.timed.started h1 h2
  | reset _ => exact (p.timed_resetTo _).started h1 h2
  | startup v _ _ _ => exact same p rfl (by unfold Proc.startup; split <;> rfl)
  | event e d _ _ _ _ => exact ((p.drop e).timed_delivered d).started h1 h2
  | redirected src d p0 _ h _ _ _ =>
    exact (h.timed.trans ((Proc.Timed.of_eq rfl rfl : p0.Timed (p0.drop (.init src))).trans
      (Proc.timed_delivered _ d))).started h1 h2
  | initSignal p0 _ h _ _ =>
    exact (h.timed.trans ((Proc.Timed.of_eq rfl rfl : p0.Timed (p0.drop (.init .signal))).trans
      (Proc.timed_initState _))).started h1 h2
  | initIpi p0 _ h _ _ =>
    exact (h.timed.trans ((Proc.Timed.of_eq rfl rfl : p0.Timed (p0.drop (.init .ipi))).trans
      (Proc.timed_initState _))).started h1 h2
  | raised d _ _ _ => exact (p.timed_delivered d).started h1 h2
  | returned d _ _ _ _ => exact (p.timed_delivered { d with shutdown := false }).started h1 h2
  | cpuidTraced pc n d _ _ _ => exact (({ p with pc := pc }.cpuid s.params n).timed_delivered d).started h1 h2
  | busy b h _ => cases (h h1).symm.trans h2
  | skinit _ _ _ _ h => exact h.timed.started h1 h2
  | hold _ | a20m _ | shutdown _ | gif _ _ | vmcr _ _ _ | waited _ _ | segment _ _ | gdtr _ _ | mode _ _ _ _ | privilege _ _
  | gpr _ _ _ | flags _ _ _ | efer _ _ | cr3 _ _ _ | breakpoints _ _ | cpuid _ _ _ => exact same p rfl rfl

/-! ### What one step can make of the rest -/

/-- The next move of a state, if its agenda holds one. -/
def State.nextMove (s : State) : Option Move := s.agenda.head?

theorem State.nextMoveIs_of_nextMove {s : State} {m : Move} (h : s.nextMove = some m) : s.nextMoveIs m := by
  unfold State.nextMove at h
  cases ha : s.agenda with
  | nil => simp [ha] at h
  | cons a l =>
    rw [ha, List.head?_cons, Option.some.injEq] at h
    exact ⟨l, by rw [ha, h]⟩

theorem State.takesInit_of_takesInitBy {s : State} {q : ProcId} {p : Proc} (h : s.takesInitBy s.nextMove q p) : s.takesInit q p :=
  h.imp (fun ⟨src, h, hp⟩ => ⟨src, State.nextMoveIs_of_nextMove h, hp⟩)
    fun ⟨k, i, h, hi⟩ => ⟨k, i, State.nextMoveIs_of_nextMove h, hi⟩

theorem State.agenda_of_nextMove {s : State} (h : s.nextMove = none) : s.agenda = [] := by
  simpa [State.nextMove] using h

/-- A state with one processor put in, bytes stored, another draw counter and another value read last. -/
def State.withProc (s : State) (q : ProcId) (p : Proc) (cells : List Host.Cell) (n r : Nat) : State :=
  { s.setProc q p with mem := s.mem.writeCells cells, draws := n, lastRead := r }

@[simp] theorem State.withProc_proc? (s : State) (q q' : ProcId) (p : Proc) (l : List Host.Cell) (n r : Nat) :
    (s.withProc q p l n r).proc? q' = (s.setProc q p).proc? q' := by
  cases q' <;> rfl

@[simp] theorem State.withProc_params (s : State) (q : ProcId) (p : Proc) (l : List Host.Cell) (n r : Nat) :
    (s.withProc q p l n r).params = s.params := s.setProc_params q p

@[simp] theorem State.withProc_mcs (s : State) (q : ProcId) (p : Proc) (l : List Host.Cell) (n r : Nat) :
    (s.withProc q p l n r).mcs = s.mcs := s.setProc_mcs q p

@[simp] theorem State.withProc_tpm (s : State) (q : ProcId) (p : Proc) (l : List Host.Cell) (n r : Nat) :
    (s.withProc q p l n r).tpm = s.tpm := s.setProc_tpm q p

@[simp] theorem State.withProc_skinit (s : State) (q : ProcId) (p : Proc) (l : List Host.Cell) (n r : Nat) :
    (s.withProc q p l n r).skinit = s.skinit := s.setProc_skinit q p

@[simp] theorem State.withProc_skinitLatch (s : State) (q : ProcId) (p : Proc) (l : List Host.Cell) (n r : Nat) :
    (s.withProc q p l n r).skinitLatch = s.skinitLatch := s.setProc_skinitLatch q p

@[simp] theorem State.withProc_cur (s : State) (q : ProcId) (p : Proc) (l : List Host.Cell) (n r : Nat) :
    (s.withProc q p l n r).cur = s.cur := s.setProc_cur q p

@[simp] theorem State.withProc_aps_length (s : State) (q : ProcId) (p : Proc) (l : List Host.Cell) (n r : Nat) :
    (s.withProc q p l n r).aps.length = s.aps.length := s.setProc_aps_length q p

theorem State.setProc_eq_withProc (s : State) (q : ProcId) (p : Proc) : s.setProc q p = s.withProc q p [] s.draws s.lastRead := by
  cases q <;> rfl

theorem State.eq_withProc {s : State} {q : ProcId} {p : Proc} (h : s.proc? q = some p) (l : List Host.Cell) (n r : Nat) :
    ({ s with mem := s.mem.writeCells l, draws := n, lastRead := r } : State) = s.withProc q p l n r := by
  rw [State.withProc, State.setProc_proc s h]

theorem State.withProc_draws (s : State) (d : Nat) (q : ProcId) (p : Proc) (l : List Host.Cell) (n r : Nat) :
    ({ s with draws := d } : State).withProc q p l n r = s.withProc q p l n r := by
  cases q <;> rfl

theorem Memory.writeCells_append (m : Memory) (l l' : List Host.Cell) :
    m.writeCells (l ++ l') = (m.writeCells l).writeCells l' := by
  induction l generalizing m with
  | nil => rfl
  | cons c l ih => exact ih _

/-- The processor put in last is the one that stays. -/
theorem State.withProc_withProc (s : State) (q : ProcId) (p p' : Proc) (l l' : List Host.Cell) (n n' r r' : Nat) :
    (s.withProc q p l n r).withProc q p' l' n' r' = s.withProc q p' (l ++ l') n' r' := by
  cases q <;> simp [State.withProc, State.setProc, Memory.writeCells_append]

theorem State.setProc_setProc (s : State) (d n : Nat) (q : ProcId) (p p' : Proc) :
    ({ ({ s with draws := d } : State).setProc q p with draws := n } : State).setProc q p' = s.withProc q p' [] n s.lastRead := by
  cases q <;> simp [State.withProc, State.setProc, Memory.writeCells]

/-- Everything a move that is no transition of a processor can do. -/
inductive MoveEffect (s : State) (m : Move) : State → Prop where
  /-- Nothing, but that INIT IPIs in flight are accepted or added. -/
  | retired (after : List Ipi) : MoveEffect s m (s.retire after)
  /-- The same, and one processor changes; bytes may be stored at physical addresses; the counters move. -/
  | proc (after : List Ipi) (q : ProcId) (p p' : Proc) (cells : List Host.Cell) (n r : Nat) (hp : s.proc? q = some p)
      (hc : ProcChange s (some m) q p p') (ha : ∀ c ∈ cells, c.1 < s.params.paSpace)
      (hb : cells = [] ∨ s.atBoundary q p = true) :
      MoveEffect s m ((s.retire after).withProc q p' cells n r)
  | reset (q : ProcId) (p : Proc) (h : m = .reset q) (hp : s.proc? q = some p) : MoveEffect s m (s.resetAt q p)
  | cleared (q : ProcId) (p : Proc) (i : Nat) (c : MemCtl) (h : m = .clearSlDevEn q i) (hp : s.proc? q = some p)
      (hb : s.atBoundary q p = true) (hc : s.mcs[i]? = some c) :
      MoveEffect s m { s with mcs := s.mcs.set i { c with en := false } }
  | device (cells : List Host.Cell) (v : DeviceView) (n : Nat) (ha : ∀ c ∈ cells, c.1 < s.params.paSpace)
      (hd : ∀ c ∈ cells, ∃ mc ∈ s.mcs, mc.en = true → c.1 < mc.base.toNat ∨ mc.top ≤ c.1) :
      MoveEffect s m { s with mem := s.mem.writeCells cells, device := v, draws := n }

theorem MoveEffect.none {s : State} {m : Move} : MoveEffect s m s := by
  simpa using MoveEffect.retired (s := s) (m := m) s.ipis

theorem Params.allExist_iff {c : Params} {l : List Nat} : c.allExist l = true ↔ ∀ a ∈ l, a < c.paSpace := by
  simp [Params.allExist]

theorem Params.paSpace_pos (c : Params) : 0 < c.paSpace := Nat.two_pow_pos _

/-- The bytes a delivery pushes are at physical addresses. -/
theorem State.push_cells_lt {c : Params} (l : List Host.Cell) : ∀ x ∈ l.map fun b => (b.1 % c.paSpace, b.2), x.1 < c.paSpace := by
  intro x hx
  obtain ⟨b, -, rfl⟩ := List.mem_map.1 hx
  exact Nat.mod_lt _ c.paSpace_pos

/-- The shape of taking an exception. -/
theorem State.raise_eq (s : State) (q : ProcId) (p : Proc) (e : ExcRecord) :
    ∃ (d : DeliverImage) (cells : List Host.Cell), (∀ c ∈ cells, c.1 < s.params.paSpace) ∧
      s.raise q p e = s.withProc q { p.delivered d with excs := e :: p.excs } cells s.draws s.lastRead :=
  ⟨Config.excDeliver p s.mem e, _, State.push_cells_lt _, by cases q <;> rfl⟩

/-- The shape of delivering an event. -/
theorem State.deliverEvent_eq (s : State) (q : ProcId) (p : Proc) (e : Event) :
    ∃ (d : DeliverImage) (cells : List Host.Cell), (∀ c ∈ cells, c.1 < s.params.paSpace) ∧
      s.deliverEvent q p e = s.withProc q (p.delivered d) cells s.draws s.lastRead :=
  ⟨Config.eventDeliver p s.mem e, _, State.push_cells_lt _, by cases q <;> rfl⟩

/-- One processor changed, with what was accepted. -/
theorem MoveEffect.ofRetired {s : State} {m : Move} {q : ProcId} {p p' : Proc} (after : List Ipi) (hp : s.proc? q = some p)
    (hc : ProcChange s (some m) q p p') : MoveEffect s m ((s.retire after).setProc q p') := by
  rw [State.setProc_eq_withProc]
  exact .proc after q p p' [] _ _ hp hc (by simp) (.inl rfl)

/-- One processor changed and nothing else. -/
theorem MoveEffect.ofProc {s : State} {m : Move} {q : ProcId} {p p' : Proc} (hp : s.proc? q = some p)
    (hc : ProcChange s (some m) q p p') : MoveEffect s m (s.setProc q p') := by
  simpa using MoveEffect.ofRetired s.ipis hp hc

/-- Bytes stored, draws made, a value read, and an exception taken after. -/
theorem MoveEffect.ofRaise {s : State} {m : Move} {q : ProcId} {p p0 : Proc} {e : ExcRecord} (after : List Ipi)
    (cells : List Host.Cell) (n r : Nat) (ha : ∀ c ∈ cells, c.1 < s.params.paSpace) (hp : s.proc? q = some p)
    (hb : s.atBoundary q p = true)
    (hc : ∀ d, ProcChange s (some m) q p { p0.delivered d with excs := e :: p0.excs }) :
    MoveEffect s m
      (({ s.retire after with mem := s.mem.writeCells cells, draws := n, lastRead := r } : State).raise q p0 e) := by
  obtain ⟨d, pushed, hl, h⟩ :=
    ({ s.retire after with mem := s.mem.writeCells cells, draws := n, lastRead := r } : State).raise_eq q p0 e
  rw [h]
  have := MoveEffect.proc after q p _ (cells ++ pushed) n r hp (hc d) (fun c h => (List.mem_append.1 h).elim (ha c) (hl c))
    (.inr hb)
  convert this using 1
  cases q <;> simp [State.withProc, State.setProc, Memory.writeCells_append]

theorem MoveEffect.ofEvent {s : State} {q : ProcId} {p : Proc} (e : Event) (hp : s.proc? q = some p)
    (hd : s.deliverable q p e = true) : MoveEffect s (.deliver q e) (s.deliverEvent q (p.drop e) e) := by
  obtain ⟨d, cells, ha, h⟩ := s.deliverEvent_eq q (p.drop e) e
  simp only [State.deliverable, Bool.and_eq_true] at hd
  rw [h]
  have := MoveEffect.proc (m := .deliver q e) s.ipis q p _ cells s.draws s.lastRead hp (.event e d rfl hd.1.1 hd.1.2 hd.2) ha
    (.inr hd.1.1)
  simpa using this

/-- An INIT taken, with what was accepted. -/
theorem State.takeInit_effect {s t : State} {m : Move} {q : ProcId} {p : Proc} {src : InitSource} {after : List Ipi}
    (hp : s.proc? q = some p) (ht : s.takesInitBy (some m) q p) (hb : s.atBoundary q p = true) (hg : p.gif = true)
    (h : s.takeInit q p src after = .next t) : MoveEffect s m t := by
  have hs := p.settled_settle s.ipis after q
  generalize hp0 : p.settle s.ipis after q = p0 at hs
  have same : p0.pc = p.pc ∧ p0.excs = p.excs ∧ p0.msrs = p.msrs := by rcases hs with rfl | rfl <;> exact ⟨rfl, rfl, rfl⟩
  simp only [State.takeInit, hp0, State.deliverInit] at h
  split at h
  · cases h
  · split at h
    · rename_i hr
      cases h
      refine MoveEffect.ofRaise (cells := []) (n := s.draws) (r := s.lastRead) after (by simp) hp hb fun d => ?_
      have := ProcChange.redirected (m := some m) src d p0 ht hs hb hg (by rw [← same.2.2]; exact hr)
      rw [← same.1, ← same.2.1] at this
      exact this
    · cases src with
      | signal => cases h; exact .ofRetired after hp (.initSignal p0 ht hs hb hg)
      | ipi => cases h; exact .ofRetired after hp (.initIpi p0 ht hs hb hg)

/-- Delivery. -/
theorem State.deliver_effect {s t : State} {q : ProcId} {e : Event} (h : s.deliver q e = .next t) :
    MoveEffect s (.deliver q e) t := by
  obtain ⟨p, hp, h⟩ := State.onProc_eq_next.1 h
  split at h
  · rename_i hd
    have hd' := hd
    simp only [State.deliverable, Bool.and_eq_true] at hd'
    have gated : ∀ e, s.deliverable q p e = true → s.deliverGated q p e = .next t → MoveEffect s (.deliver q e) t := by
      intro e hd h
      unfold State.deliverGated at h
      split at h
      · cases h
      · cases h; exact .ofEvent _ hp hd
    cases e with
    | device v => exact gated _ hd h
    | nmi => exact gated _ hd h
    | smi => exact gated _ hd h
    | init src => exact State.takeInit_effect hp (.inl ⟨src, rfl, hd'.1.2⟩) hd'.1.1 hd'.2 h
  · cases h; exact .none

/-- An access of software's: bytes stored and a value read, or an exception taken. -/
theorem State.accessMove_effect {s t : State} {m : Move} {q : ProcId} {store : Bool} {r : DataRef} {n : Nat}
    {f : State → List Nat → State} {cells : List Nat → List Host.Cell} {v : State → List Nat → Nat}
    (hf : ∀ u l, f u l = { u with mem := u.mem.writeCells (cells l), lastRead := v u l })
    (hcells : ∀ l, ∀ c ∈ cells l, c.1 ∈ l) (h : s.accessMove q store r n f = .next t) : MoveEffect s m t := by
  obtain rfl | ⟨p, hp, hb, h⟩ := State.bySoftware_eq_next h
  · exact .none
  · split at h
    · cases h
    · rename_i pdpe _
      cases h
      have := MoveEffect.ofRaise (m := m) (e := p.pdpeRecord pdpe) s.ipis [] (s.walked p).draws s.lastRead (by simp) hp
        hb fun d => .raised d _ hb (ExcRecord.notSx_vector_ne _)
      simp only [State.retire_self] at this
      exact this
    · rename_i l _
      split at h
      · rename_i hex
        have hall : ∀ c ∈ cells l, c.1 < s.params.paSpace := fun c hc => Params.allExist_iff.1 hex _ (hcells l c hc)
        simp only [hf, Host.Outcome.next.injEq] at h
        split at h
        · subst h
          have := MoveEffect.ofRaise (m := m) s.ipis (cells l) (s.walked p).draws (v (s.walked p) l) hall hp
            hb fun d => .raised d (Config.dataTrap p).notSx hb (ExcRecord.notSx_vector_ne _)
          simp only [State.retire_self] at this
          exact this
        · subst h
          have := MoveEffect.proc (m := m) s.ipis q p p (cells l) (s.walked p).draws (v (s.walked p) l) hp .same hall (.inr hb)
          rw [State.retire_self, ← State.eq_withProc hp] at this
          exact this
      · cases h

/-- Every move that is no transition of a processor has one of these effects. -/
theorem State.doMove_effect {s t : State} {m : Move} (hm : ∀ q, m ≠ .proc q) (h : s.doMove m = .next t) :
    MoveEffect s m t := by
  cases m with
  | proc q => exact absurd rfl (hm q)
  | assertEvent q e =>
    obtain ⟨p, hp, h⟩ := State.onProc_eq_next.1 h
    cases h; exact .ofProc hp (.hold e)
  | deliver q e => exact State.deliver_effect h
  | reset q =>
    obtain ⟨p, hp, h⟩ := State.onProc_eq_next.1 h
    cases h; exact .reset q p rfl hp
  | shutdown q =>
    obtain rfl | ⟨p, hp, hb, h⟩ := State.bySoftware_eq_next h
    · exact .none
    · cases h; exact .ofProc hp (.shutdown hb)
  | setGif q =>
    obtain rfl | ⟨p, hp, hb, h⟩ := State.bySoftware_eq_next h
    · exact .none
    · cases h; exact .ofProc hp (.gif rfl hb)
  | writeVmcr q v =>
    obtain rfl | ⟨p, hp, hb, h⟩ := State.bySoftware_eq_next h
    · exact .none
    · cases h; exact .ofProc hp (.vmcr v rfl hb)
  | clearSlDevEn q i =>
    obtain rfl | ⟨p, hp, hb, h⟩ := State.bySoftware_eq_next h
    · exact .none
    · split at h
      · cases h
      · rename_i c hc
        cases h; exact .cleared q p i c rfl hp hb hc
  | memWrite q r n v =>
    refine State.accessMove_effect (cells := fun l => l.zip (littleEndianBytes n v)) (v := fun u _ => u.lastRead)
      (fun u l => rfl) (fun l c hc => (List.of_mem_zip (a := c.1) (b := c.2) hc).1) h
  | memRead q r n =>
    exact State.accessMove_effect (cells := fun _ => []) (v := fun u l => leValue (l.map u.mem.read))
      (fun u l => rfl) (by simp) h
  | loadSeg q r sel =>
    obtain rfl | ⟨p, hp, hb, h⟩ := State.bySoftware_eq_next h
    · exact .none
    · split at h
      · cases h
      · cases h; exact .ofProc hp (.segment _ hb)
  | loadGdtr q v =>
    obtain rfl | ⟨p, hp, hb, h⟩ := State.bySoftware_eq_next h
    · exact .none
    · cases h; exact .ofProc hp (.gdtr v hb)
  | setMode q pe pg pdpe =>
    obtain rfl | ⟨p, hp, hb, h⟩ := State.bySoftware_eq_next h
    · exact .none
    · split at h
      · cases h
      · cases h; exact .ofProc hp (.mode pe pg pdpe hb)
  | setPrivilege q b =>
    obtain rfl | ⟨p, hp, hb, h⟩ := State.bySoftware_eq_next h
    · exact .none
    · cases h; exact .ofProc hp (.privilege b hb)
  | writeGpr q r v =>
    obtain rfl | ⟨p, hp, hb, h⟩ := State.bySoftware_eq_next h
    · exact .none
    · cases h; exact .ofProc hp (.gpr r v hb)
  | writeFlags q i t =>
    obtain rfl | ⟨p, hp, hb, h⟩ := State.bySoftware_eq_next h
    · exact .none
    · cases h; exact .ofProc hp (.flags i t hb)
  | writeEfer q v =>
    obtain rfl | ⟨p, hp, hb, h⟩ := State.bySoftware_eq_next h
    · exact .none
    · cases h; exact .ofProc hp (.efer v hb)
  | writeCr3 q v =>
    obtain rfl | ⟨p, hp, hb, h⟩ := State.bySoftware_eq_next h
    · exact .none
    · split at h
      · cases h; exact .ofProc hp (.cr3 v p.pdpeCopy hb)
      · split at h
        · rename_i bad _
          cases h
          have := MoveEffect.ofRaise (m := .writeCr3 q v) (e := p.pdpeRecord bad) s.ipis [] s.draws s.lastRead (by simp) hp
            hb fun d => .raised d _ hb (ExcRecord.notSx_vector_ne _)
          simp only [State.retire_self] at this
          exact this
        · cases h; exact .ofProc hp (.cr3 v _ hb)
  | walkPdpe q i =>
    obtain rfl | ⟨p, hp, hb, h⟩ := State.bySoftware_eq_next h
    · exact .none
    · split at h
      · cases h; exact .none
      · simp only [Host.Outcome.next.injEq] at h
        split at h
        · subst h
          have := MoveEffect.ofRaise (m := .walkPdpe q i) (e := p.pdpeRecord (p.walkedPdpe s.params s.mem s.draws i)) s.ipis []
            (s.walked p).draws s.lastRead (by simp) hp hb fun d => .raised d _ hb (ExcRecord.notSx_vector_ne _)
          simp only [State.retire_self] at this
          exact this
        · subst h
          have := MoveEffect.proc (m := .walkPdpe q i) s.ipis q p p [] (s.walked p).draws s.lastRead hp .same (by simp) (.inl rfl)
          rw [State.retire_self, ← State.eq_withProc hp] at this
          exact this
  | setBreakpoints q bps =>
    obtain rfl | ⟨p, hp, hb, h⟩ := State.bySoftware_eq_next h
    · exact .none
    · cases h; exact .ofProc hp (.breakpoints bps hb)
  | returnExc q =>
    obtain rfl | ⟨p, hp, hb, h⟩ := State.bySoftware_eq_next h
    · exact .none
    · simp only [State.returnFromExc, Host.Outcome.next.injEq] at h
      split at h
      · subst h; exact .none
      · rename_i e l he
        subst h; exact .ofProc hp (.returned _ e l he hb)
  | wait q n =>
    obtain rfl | ⟨p, hp, hb, h⟩ := State.bySoftware_eq_next h
    · exact .none
    · simp only [Host.Outcome.next.injEq] at h
      split at h
      · subst h; exact .none
      · subst h; exact .ofProc hp (.waited _ hb)
  | sendInitIpi q ts =>
    obtain rfl | ⟨p, hp, hb, h⟩ := State.bySoftware_eq_next h
    · exact .none
    · cases h
      have := MoveEffect.ofRetired (m := .sendInitIpi q ts) (s.ipis ++ ts.map fun t => Ipi.mk q t false) hp
        (.busy (!ts.isEmpty || p.apicBusy) (by simp +contextual) hb)
      rwa [State.retire_of_subset fun i hi => ⟨i, List.mem_append_left _ hi, rfl⟩] at this
  | acceptInitIpi k =>
    simp only [State.doMove, State.acceptInitIpi] at h
    split at h
    · cases h; exact .none
    · rename_i i hi
      split at h
      · cases h; exact .retired _
      · rename_i p hp
        split at h
        · rename_i hb
          rw [Bool.and_eq_true] at hb
          exact State.takeInit_effect hp (.inr ⟨k, i, rfl, hi, rfl⟩) hb.1 hb.2 h
        · cases h
          have := MoveEffect.ofRetired (m := .acceptInitIpi k) (holdAt k i s.ipis) hp (.hold (.init .ipi))
          rwa [State.retire_of_subset (holdAt_senders hi)] at this
  | startupIpi q v =>
    obtain ⟨p, hp, h⟩ := State.onProc_eq_next.1 h
    split at h
    · rename_i hc
      cases h
      simp only [Proc.isInitHalted, Bool.and_eq_true, decide_eq_true_eq, Bool.not_eq_true'] at hc
      have := MoveEffect.proc (m := .startupIpi q v) s.ipis q p _ [] (s.draws + 1) s.lastRead hp (.startup v rfl hc.1 hc.2)
        (by simp) (.inl rfl)
      rw [State.retire_self] at this
      convert this using 1
      cases q <;> rfl
    · cases h; exact .none
  | driveA20m q l =>
    obtain ⟨p, hp, h⟩ := State.onProc_eq_next.1 h
    cases h; exact .ofProc hp (.a20m l)
  | devRead i a n =>
    simp only [State.doMove, State.devRead] at h
    split at h
    · cases h
    · split at h
      · cases h
      · split at h
        · cases h; exact .device [] _ _ (by simp) (by simp)
        · cases h; exact .device [] _ s.draws (by simp) (by simp)
  | devWrite i a n v =>
    simp only [State.doMove, State.devWrite] at h
    split at h
    · cases h
    · rename_i mc hmc
      split at h
      · cases h
      · rename_i hex
        split at h
        · cases h; exact .device [] _ s.draws (by simp) (by simp)
        · rename_i hbl
          cases h
          have hin : ∀ c ∈ cellsFrom a (littleEndianBytes n v), c.1 ∈ (List.range n).map (a + ·) := fun c hc => by
            have := List.mem_map_of_mem (f := (·.1)) hc
            rwa [map_fst_cellsFrom, length_littleEndianBytes] at this
          refine .device (cellsFrom a (littleEndianBytes n v)) _ s.draws (fun c hc => ?_) fun c hc =>
            ⟨mc, List.mem_of_getElem? hmc, fun hen => ?_⟩
          · have hex' : s.params.allExist ((List.range n).map (a + ·)) = true := by simpa using hex
            exact Params.allExist_iff.1 hex' _ (hin c hc)
          · obtain ⟨k, hk, e⟩ := List.mem_map.1 (hin c hc)
            rw [MemCtl.blocks_iff] at hbl
            rw [MemCtl.top, ← e]
            simp only [List.mem_range] at hk
            by_contra hcon
            exact hbl ⟨hen, by omega, by omega, by omega⟩

/-! ### What a transition of the executing processor can do -/

/-- The state in which an instruction of the executing processor `p` is executed: its fetch drew, and `n` prefix bytes are
passed. -/
def State.fetched (s : State) (p : Proc) (n : Nat) : State := (s.walked p).pastPrefix p n

/-- Everything a transition of the executing processor can do. -/
inductive TransitionEffect (s : State) : State → Prop where
  /-- Nothing: the processor executes nothing. -/
  | idle : TransitionEffect s s
  /-- An instruction other than SKINIT, a debug trap in its place, or a signalled PDPE. -/
  | proc (p p' : Proc) (cells : List Host.Cell) (n : Nat) (hp : s.proc? s.cur = some p)
      (hb : s.atBoundary s.cur p = true) (hc : ∀ m, ProcChange s m s.cur p p') (ha : ∀ c ∈ cells, c.1 < s.params.paSpace) :
      TransitionEffect s (s.withProc s.cur p' cells n s.lastRead)
  /-- SKINIT: begun, or taken up at the step it stands at. -/
  | skinit (t : State) (hcur : s.cur = .bsp) (hs : s.skinitNext) (hr : s.skinit = none → s.bsp.run = .running)
      (h : (s.skinit = none ∧ ∃ n, t = (s.fetched s.bsp n).skinitStep1.skinitRun 7) ∨
        ∃ ph, s.skinit = some ph ∧ t = s.skinitResume ph) : TransitionEffect s t

/-- Fetching and passing a prefix change nothing but `pc` and the draws. -/
theorem State.fetched_eq {s : State} {p : Proc} (hp : s.proc? s.cur = some p) (n : Nat) :
    ∃ pc d, s.fetched p n = ({ s with draws := d } : State).setProc s.cur { p with pc := pc } := by
  unfold State.fetched State.pastPrefix
  split
  · refine ⟨p.pc, (s.walked p).draws, ?_⟩
    have : (s.walked p).proc? s.cur = some p := by
      rw [← hp]
      cases s.cur <;> rfl
    exact ((s.walked p).setProc_proc this).symm
  · exact ⟨_, (s.walked p).draws, rfl⟩

theorem State.fetched_of {s : State} (hcur : s.cur = .bsp) (n : Nat) : s.SkinitOf (s.fetched s.bsp n) := by
  obtain ⟨pc, d, h⟩ := State.fetched_eq (s := s) (p := s.bsp) (by rw [hcur]; rfl) n
  rw [h.trans (congrArg (fun q => State.setProc { s with draws := d } q { s.bsp with pc := pc }) hcur)]
  exact ⟨rfl, rfl, rfl, rfl, rfl, rfl, rfl, rfl, rfl, id, ⟨rfl, rfl, rfl, rfl, .of_eq rfl rfl, .inl rfl, rfl, rfl, id, .inl rfl⟩⟩

theorem TransitionEffect.skinitOf {s t : State} (hcur : s.cur = .bsp)
    (h : (s.skinit = none ∧ ∃ n, t = (s.fetched s.bsp n).skinitStep1.skinitRun 7) ∨
      ∃ ph, s.skinit = some ph ∧ t = s.skinitResume ph) : s.SkinitOf t := by
  rcases h with ⟨-, n, rfl⟩ | ⟨ph, -, rfl⟩
  · exact (State.fetched_of hcur n).trans ((s.fetched s.bsp n).skinitStep1_of.trans (State.skinitRun_of _ 7))
  · exact s.skinitResume_of ph

theorem TransitionEffect.ofRaise {s : State} {p : Proc} {e : ExcRecord} (n : Nat) (hp : s.proc? s.cur = some p)
    (hb : s.atBoundary s.cur p = true) (he : e.vector ≠ 30) :
    TransitionEffect s (({ s with draws := n } : State).raise s.cur p e) := by
  obtain ⟨d, cells, ha, h⟩ := ({ s with draws := n } : State).raise_eq s.cur p e
  rw [h, State.withProc_draws]
  exact .proc p _ cells n hp hb (fun m => .raised d e hb he) ha

/-- What CPUID answers where it answers a next state. -/
theorem execCpuid_eq_next {s t : State} :
    execCpuid s = .next t ↔ ∃ p, s.proc? s.cur = some p ∧
      t = { s with draws := s.draws + 1 }.setProc s.cur (p.cpuid s.params s.draws) := by
  unfold execCpuid
  cases h : s.proc? s.cur with
  | none => simp
  | some p => simp [eq_comm]

/-- CPUID after the fetch. -/
theorem State.execCpuid_fetched {s : State} {p : Proc} (hp : s.proc? s.cur = some p) (n : Nat) :
    ∃ pc d, execCpuid (s.fetched p n) =
      .next (s.withProc s.cur ({ p with pc := pc }.cpuid s.params d) [] (d + 1) s.lastRead) := by
  obtain ⟨pc, d, hf⟩ := State.fetched_eq hp n
  refine ⟨pc, d, ?_⟩
  rw [hf]
  generalize hq : s.cur = q at hp ⊢
  have hp' : ({ s with draws := d } : State).proc? q = some p := by rw [← hp]; cases q <;> rfl
  refine execCpuid_eq_next.2 ⟨{ p with pc := pc }, ?_, ?_⟩
  · rw [State.setProc_cur]
    exact hq ▸ State.proc?_setProc_of_some hp' _
  · rw [← State.setProc_setProc s d (d + 1) q { p with pc := pc }]
    cases q <;> simp [State.setProc, hq]

/-- CPUID as a step executes it, with a trace trap after it where `TF` is set. -/
theorem State.cpuid_effect {s t : State} {p : Proc} (n : Nat) (hp : s.proc? s.cur = some p) (hb : s.atBoundary s.cur p = true)
    (h : (s.walked p).execTraced p .cpuid n = .next t) : TransitionEffect s t := by
  simp only [State.execTraced, Instr.honoursDebugTraps, Bool.not_true, Bool.false_eq_true, if_false] at h
  split at h
  · cases h
    exact .ofRaise (s.walked p).draws hp hb (ExcRecord.notSx_vector_ne _)
  · obtain ⟨pc, d, hf⟩ := State.execCpuid_fetched hp n
    change (match execCpuid (s.fetched p n) with
      | .next t => _
      | .fault r => _
      | .refused r => _) = _ at h
    simp only [hf] at h
    split at h
    · obtain ⟨p', hp1, h⟩ := State.onProc_eq_next.1 h
      change (State.withProc s s.cur _ _ _ _).proc? s.cur = _ at hp1
      rw [State.withProc_proc?, State.proc?_setProc_of_some hp] at hp1
      obtain rfl := Option.some.inj hp1
      simp only [Host.Outcome.next.injEq] at h
      obtain ⟨img, cells, ha, he⟩ := (s.withProc s.cur ({ p with pc := pc }.cpuid s.params d) [] (d + 1) s.lastRead).raise_eq
        s.cur ({ p with pc := pc }.cpuid s.params d) (Config.traceTrap ({ p with pc := pc }.cpuid s.params d)).notSx
      rw [← h]
      change TransitionEffect s (State.raise _ s.cur _ _)
      rw [he, State.withProc_withProc]
      exact .proc p _ cells (d + 1) hp hb (fun m => .cpuidTraced pc d img _ hb (ExcRecord.notSx_vector_ne _))
        (fun c hc => by simpa using ha c hc)
    · cases h
      exact .proc p _ [] (d + 1) hp hb (fun m => .cpuid pc d hb) (by simp)

/-- The executing processor's transition has one of these effects. -/
theorem State.procStep_effect {s t : State} (h : s.procStep = .next t) : TransitionEffect s t := by
  obtain ⟨p, hp, h⟩ := State.onProc_eq_next.1 h
  split at h
  · rename_i ph hph
    split at hph
    · rename_i hmid
      have hcur : s.cur = .bsp := by
        cases hc : s.cur with
        | bsp => rfl
        | ap i => simp [hc, State.midSkinit] at hmid
      cases h
      exact .skinit _ hcur (.inl (by simp [hph])) (by simp [hph]) (.inr ⟨ph, hph, rfl⟩)
    · cases hph
  · rename_i hnone
    split at h
    · rename_i hrun
      have hmid : s.midSkinit s.cur = false := by
        cases hc : s.cur with
        | ap i => rfl
        | bsp =>
          cases hk : s.skinit with
          | none => simp [State.midSkinit, hk]
          | some ph => simp [hc, State.midSkinit, hk] at hnone
      have hb : s.atBoundary s.cur p = true := by simp [State.atBoundary, hrun, hmid]
      simp only [State.runInstr] at h
      split at h
      · cases h
      · split at h
        · rename_i i n hf
          cases i with
          | cpuid => exact State.cpuid_effect n hp hb h
          | skinit =>
            simp only [State.execTraced, Instr.honoursDebugTraps, Bool.not_false, if_true] at h
            obtain ⟨hcur, -, -, -, rfl⟩ := execSkinit_eq_next.1 h
            obtain ⟨pc, d, hfe⟩ := State.fetched_eq hp n
            change (s.fetched p n).cur = .bsp at hcur
            rw [hfe, State.setProc_cur] at hcur
            change s.cur = .bsp at hcur
            have hbsp : p = s.bsp := by
              rw [hcur] at hp
              exact (Option.some.inj hp).symm
            subst hbsp
            have hk : s.skinit = none := by simpa [hcur, State.midSkinit] using hmid
            exact .skinit _ hcur (.inr ⟨hrun, n, hf⟩) (fun _ => by simpa [Proc.isRunning] using hrun) (.inl ⟨hk, n, rfl⟩)
        · cases h
          exact .ofRaise (s.walked p).draws hp hb (ExcRecord.notSx_vector_ne _)
        · cases h
    · cases h; exact .idle

/-! ### A step -/

/-- Everything a step can do: the effect of the next move, or of a transition of a processor. -/
inductive StepEffect (s t : State) : Prop where
  | move (m : Move) (rest : List Move) (hm : ∀ q, m ≠ .proc q) (ha : s.agenda = m :: rest)
      (h : MoveEffect { s with agenda := rest } m t) : StepEffect s t
  | turn (ha : s.agenda = []) (h : TransitionEffect s t) : StepEffect s t
  | named (q : ProcId) (p : Proc) (rest : List Move) (ha : s.agenda = .proc q :: rest) (hp : s.proc? q = some p)
      (h : TransitionEffect { s with agenda := rest, cur := q } t) : StepEffect s t

theorem step_effect {s t : State} (h : step s = .next t) : StepEffect s t := by
  simp only [step, State.advance] at h
  split at h
  · rename_i ha
    exact .turn ha (State.procStep_effect h)
  · rename_i m rest ha
    by_cases hm : ∃ q, m = .proc q
    · obtain ⟨q, rfl⟩ := hm
      obtain ⟨p, hp, h⟩ := State.onProc_eq_next.1 h
      have hp' : s.proc? q = some p := by
        cases q <;> exact hp
      exact .named q p rest ha hp' (State.procStep_effect h)
    · exact .move m rest (fun q e => hm ⟨q, e⟩) ha (State.doMove_effect (fun q e => hm ⟨q, e⟩) h)

/-- What `ProcChange` reads of the state is neither the agenda nor, but for SKINIT, the executing processor. -/
theorem ProcChange.mono {s u : State} {m : Option Move} {q : ProcId} {p p' : Proc} (h : ProcChange u m q p p')
    (hipis : u.ipis = s.ipis) (hpar : u.params = s.params) (hlatch : u.skinitLatch = s.skinitLatch) (hdraws : u.draws = s.draws)
    (hmid : ∀ q, u.midSkinit q = s.midSkinit q) (hcur : m = none → u.cur = s.cur) (hnext : u.skinitNext → s.skinitNext) :
    ProcChange s m q p p' := by
  have hb' : u.atBoundary q p = s.atBoundary q p := by simp [State.atBoundary, hmid]
  have ht' : u.takesInitBy m q p = s.takesInitBy m q p := by simp [State.takesInitBy, hipis]
  cases h with
  | settled _ h => exact .settled _ h
  | hold e => exact .hold e
  | a20m l => exact .a20m l
  | reset h => rw [hpar]; exact .reset h
  | startup v h hr hm => rw [hlatch, hdraws]; exact .startup v h hr (hmid q ▸ hm)
  | event e d h hb hp hg => exact .event e d h (hb' ▸ hb) hp hg
  | redirected src d p0 ht h hb hg hr => exact .redirected src d p0 (ht' ▸ ht) h (hb' ▸ hb) hg hr
  | initSignal p0 ht h hb hg => exact .initSignal p0 (ht' ▸ ht) h (hb' ▸ hb) hg
  | initIpi p0 ht h hb hg => exact .initIpi p0 (ht' ▸ ht) h (hb' ▸ hb) hg
  | raised d e hb he => exact .raised d e (hb' ▸ hb) he
  | returned d e l h hb => exact .returned d e l h (hb' ▸ hb)
  | shutdown hb => exact .shutdown (hb' ▸ hb)
  | gif h hb => exact .gif h (hb' ▸ hb)
  | vmcr v h hb => rw [hpar]; exact .vmcr v h (hb' ▸ hb)
  | busy b h hb => exact .busy b h (hb' ▸ hb)
  | waited n hb => exact .waited n (hb' ▸ hb)
  | segment g hb => exact .segment g (hb' ▸ hb)
  | gdtr v hb => exact .gdtr v (hb' ▸ hb)
  | mode pe pg pdpe hb => exact .mode pe pg pdpe (hb' ▸ hb)
  | privilege b hb => exact .privilege b (hb' ▸ hb)
  | gpr r v hb => exact .gpr r v (hb' ▸ hb)
  | flags i t hb => exact .flags i t (hb' ▸ hb)
  | efer v hb => exact .efer v (hb' ▸ hb)
  | cr3 v l hb => exact .cr3 v l (hb' ▸ hb)
  | breakpoints l hb => exact .breakpoints l (hb' ▸ hb)
  | cpuid pc n hb => rw [hpar]; exact .cpuid pc n (hb' ▸ hb)
  | cpuidTraced pc n d e hb he => rw [hpar]; exact .cpuidTraced pc n d e (hb' ▸ hb) he
  | skinit _ hq hm hs h => exact .skinit _ hq (hm.imp (fun ⟨e, hc⟩ => ⟨e, (hcur e) ▸ hc⟩) id) (hnext hs) h

/-- A transition of the executing processor changes a processor as its own move, and no other processor. -/
theorem TransitionEffect.procChange {s t : State} (h : TransitionEffect s t) {m : Option Move}
    (hm : m = none ∨ m = some (.proc s.cur)) {q : ProcId} {p p' : Proc} (hp : s.proc? q = some p) (hp' : t.proc? q = some p') :
    ProcChange s m q p p' := by
  cases h with
  | idle =>
    rw [hp] at hp'
    cases hp'
    exact .same
  | proc p1 p1' cells n hp1 _ hc _ =>
    rw [State.withProc_proc?] at hp'
    rcases State.proc?_setProc_cases hp' with ⟨rfl, rfl⟩ | ⟨hne, hp'⟩
    · rw [hp] at hp1
      cases hp1
      exact hc _
    · rw [hp] at hp'
      cases hp'
      exact .same
  | skinit _ hcur hs _ hk =>
    have hof := TransitionEffect.skinitOf hcur hk
    cases q with
    | bsp =>
      cases hp
      cases hp'
      exact .skinit _ rfl (hm.imp (fun e => ⟨e, hcur⟩) fun e => by rw [e, hcur]) hs hof.bsp
    | ap i =>
      simp only [State.proc?, hof.aps] at hp'
      rw [show s.aps[i]? = some p from hp] at hp'
      cases hp'
      exact .same

/-- A processor of a state whose INIT IPIs in flight changed is the one it was, settled. -/
theorem State.settled_of_retire {s : State} {after : List Ipi} {q : ProcId} {p p' : Proc} (hp : s.proc? q = some p)
    (hp' : (s.retire after).proc? q = some p') : p.Settled p' := by
  rw [State.retire_proc?, hp] at hp'
  cases hp'
  exact p.settled_settle _ _ _

/-- What a move makes of a processor. -/
theorem MoveEffect.procChange {s t : State} {m : Move} (h : MoveEffect s m t) {q : ProcId} {p p' : Proc}
    (hp : s.proc? q = some p) (hp' : t.proc? q = some p') : ProcChange s (some m) q p p' := by
  cases h with
  | retired after => exact .settled _ (State.settled_of_retire hp hp')
  | proc after q1 p1 p1' cells n r hp1 hc _ _ =>
    rw [State.withProc_proc?] at hp'
    rcases State.proc?_setProc_cases hp' with ⟨rfl, rfl⟩ | ⟨hne, hp'⟩
    · rw [hp] at hp1
      cases hp1
      exact hc
    · exact .settled _ (State.settled_of_retire hp hp')
  | reset q1 p1 hm hp1 =>
    subst hm
    have : (s.resetAt q1 p1).proc? q =
        ((s.retire (s.withoutHeldAt q1)).setProc q1 (p1.resetTo (s.params.procAtReset q1))).proc? q := by
      cases q <;> rfl
    rw [this] at hp'
    rcases State.proc?_setProc_cases hp' with ⟨rfl, rfl⟩ | ⟨hne, hp'⟩
    · rw [hp] at hp1
      cases hp1
      exact .reset rfl
    · exact .settled _ (State.settled_of_retire hp hp')
  | cleared _ _ i c _ _ _ _ =>
    have : p' = p := Option.some.inj ((hp'.symm.trans (by cases q <;> rfl)).trans hp)
    subst this
    exact .same
  | device cells v n _ _ =>
    have : p' = p := Option.some.inj ((hp'.symm.trans (by cases q <;> rfl)).trans hp)
    subst this
    exact .same

/-- What a step makes of a processor, said once. -/
theorem step_procChange {s t : State} {q : ProcId} {p p' : Proc} (h : step s = .next t) (hp : s.proc? q = some p)
    (hp' : t.proc? q = some p') : ProcChange s s.nextMove q p p' := by
  rcases step_effect h with ⟨m, rest, -, ha, he⟩ | ⟨ha, he⟩ | ⟨c, pc, rest, ha, hpc, he⟩
  · rw [show s.nextMove = some m by simp [State.nextMove, ha]]
    exact (he.procChange (by simpa using hp) hp').mono rfl rfl rfl rfl (State.midSkinit_agenda s rest) (fun _ => rfl) id
  · rw [show s.nextMove = none by simp [State.nextMove, ha]]
    exact he.procChange (.inl rfl) hp hp'
  · rw [show s.nextMove = some (.proc c) by simp [State.nextMove, ha]]
    have hpq : ({ s with agenda := rest, cur := c } : State).proc? q = some p := by
      rw [← hp]
      cases q <;> rfl
    exact (he.procChange (.inr rfl) hpq hp').mono rfl rfl rfl rfl (fun q => by cases q <;> rfl) (fun e => by cases e) id

end Sys2Proof.Machine
end

