-- ==== Sys2Proof/Tests/Slice0.lean ====
section
/-! SUPPORT. The model's own tests, each expected value from spec/ (a vector of 95_test_vectors.md or a rule), and for every
statement of Certificates/Slice0/Obligations.lean that has hypotheses a witness: a state and operands that meet all of them, one
for each clause. Where a hypothesis is about an opaque constant, the witness says that one of the two clauses' hypotheses holds. -/

namespace Sys2Proof.Tests

open Sys2Proof Sys2Proof.Machine

/-! ### Small states -/

/-- One implementation: the numbers of items GK3 and GK10, a BSP and one AP with a memory controller each. -/
def params : Params :=
  { npSupported := true, cpuSignature := 0x00100F80#32, debugFeatures := [1], senseDelay := 3, paExtra := 0, eferWidth := 64
    vmCrAddr := 0xC0010114, dpdBit := 0, rInitBit := 1, disA20mBit := 2
    npFn := 0x8000000A#32, npReg := .edx, npBit := 0, bspCtl := 0, apCtls := [1]
    resetProc := .familyReset 0x00100F80#32 64 }

/-- Right after RESET: the BSP running in real mode, the AP halted. -/
def base : State := .resetOf params

/-- The BSP of `base`. -/
def bsp : Proc := base.bsp

/-- That BSP in protected mode, where `SKINIT` has its meaning. -/
def prot : Proc := { bsp with pe := true }

/-- The AP of `base`. -/
def ap : Proc := params.resetProc

/-- Another BSP. -/
def withBsp (p : Proc) : State := { base with bsp := p }

/-- `base` with moves to come. -/
def moving (l : List Move) : State := { base with agenda := l }

/-- Another BSP, with one move to come. -/
def moved (p : Proc) (m : Move) : State := { base with bsp := p, agenda := [m] }

/-- Bytes placed at another BSP's `pc`. -/
def placedAt (p : Proc) (bs : List Byte) : State := (withBsp p).placeAtPc bs

/-- Bytes placed at the BSP's `pc`. -/
def placed (bs : List Byte) : State := base.placeAtPc bs

/-- `SKINIT` may run. -/
def ready : State := withBsp prot

/-- `SKINIT` about to run with this operand, and these bytes at this address. -/
def slAt (eax : Word) (a : Nat) (bs : List Byte) : State :=
  { base with
    bsp := { prot with x := { bsp.x with eax := eax, ebx := 0xDEADBEEF#32, edx := 0x12345678#32 } }
    mem := Memory.writeCells [] (cellsFrom a bs) }

/-- What a field of the next state is, where there is a next state. -/
def field {α : Type} (r : Result) (f : State → α) : Option α :=
  match r with
  | .next t => some (f t)
  | .fault _ => none
  | .refused _ => none

/-! ### Decoding: words written out from R67, R68 and item GK7 -/

theorem test_decode_skinit :
    decode [0b00001111#8, 0b00000001#8, 0b11011110#8, 0x90#8] = .ok (.skinit, [0x90#8]) := rfl
theorem test_decode_cpuid : decode [0b00001111#8, 0b10100010#8] = .ok (.cpuid, []) := rfl
theorem test_decode_prefixed :
    decode [0b00110110#8, 0b00001111#8, 0b10100010#8] = .ok (.cpuid, []) ∧ prefixBytes [0x36#8, 0x0F#8, 0xA2#8] = 1 := ⟨rfl, rfl⟩
theorem test_decode_table : decodeTableWord 24 0x0F01DE = some .skinit ∧ decodeTableWord 16 0x0FA2 = some .cpuid := ⟨rfl, rfl⟩
theorem test_decode_names_what_it_refuses :
    decode [0x0F#8, 0x01#8] = .error .truncated ∧ decode [0x36#8, 0x36#8, 0x0F#8, 0xA2#8] = .error .segmentOverride ∧
      decode [0x90#8] = .error (.firstByte 0x90#8) ∧ decode [0x0F#8, 0x30#8] = .error (.secondByte 0x30#8) ∧
      decode [0x0F#8, 0x01#8, 0xDC#8] = .error (.thirdByte 0xDC#8) := ⟨rfl, rfl, rfl, rfl, rfl⟩

/-! ### WellFormed: a term each check refuses -/

theorem test_wf_instructions : Instr.wf .skinit = true ∧ Instr.wf .cpuid = true := ⟨rfl, rfl⟩
theorem test_wf_ascending_refuses : ascending [1, 1] = false ∧ ascending [2, 1] = false ∧ ascending [1, 2] = true := by decide
theorem test_wf_pending_refuses : Pending.wf { Pending.empty with device := [7, 3] } = false := by decide
theorem test_wf_bits_refuse : Params.bitsDistinct { params with rInitBit := 0 } = false ∧ params.bitsDistinct = true := by decide
theorem test_wf_memctl_refuses :
    Params.memCtlOk params 1 1 = false ∧ Params.memCtlOk params 2 2 = false ∧ Params.memCtlOk params 1 2 = true := by decide
theorem test_wf_block_refuses : MemCtl.wf { en := true, base := 0x00120001#32 } = false ∧ alignedSlb 0xFFFF0000#32 = true := by
  decide
theorem test_wf_phase_refuses : SkinitPhase.wf (.step4 0x00123456#32 true) = false := by decide
theorem test_wf_memory_refuses : Memory.wf [(3, 1#8), (2, 1#8)] = false ∧ Memory.wf [(2, 0#8)] = false := by decide

/-! ### SKINIT: vectors A1 and A4 with B1, B2, B9 (V-A, V-B) -/

theorem test_skinit_a1 :
    field (exec .skinit (slAt 0x00123456#32 0x00120000 [0x40#8, 0x00#8, 0x00#8, 0x10#8]))
      (fun t => (t.bsp.x.eax, t.bsp.x.esp, t.bsp.pc, t.bsp.x.ebx, t.bsp.x.edx, t.bsp.gif)) =
      some (0x00120000#32, 0x00130000#32, 0x00120040#32, 0#32, 0x00100F80#32, false) := rfl
theorem test_skinit_a4 :
    field (exec .skinit (slAt 0xFFFFFFFF#32 0xFFFF0000 [0x00#8, 0x01#8, 0xFF#8, 0xFF#8]))
      (fun t => (t.bsp.x.eax, t.bsp.x.esp, t.bsp.pc)) = some (0xFFFF0000#32, 0#32, 0xFFFF0100#32) := rfl

/-! ### CPUID: the worked example of R79, and its `pc` -/

theorem test_cpuid_bit :
    field (exec .cpuid (withBsp { bsp with x := { bsp.x with eax := 0x8000000A#32 } })) (fun t => t.bsp.x.edx.getLsbD 0) =
      some true := by
  show some ((setBit (Config.freeWord 0 3) 0 true).getLsbD 0) = some true
  simp [setBit]
/-- From the reset state itself, the byte `36h` before it (R69). -/
theorem test_cpuid_prefixed_from_reset :
    field (step (State.reset.placeAtPc [0x36#8, 0x0F#8, 0xA2#8])) (fun t => t.bsp.pc) = some 0xFFF3#32 := rfl
theorem test_cpuid_pc : field (exec .cpuid base) (fun t => (t.bsp.pc, t.bsp.x.esp)) = some (0xFFF2#32, 0#32) := rfl

/-! ### A Startup IPI (V-C rows C3, C5) and a held INIT (V-D row D8) -/

theorem test_startup_c3 :
    field (step { moving [.startupIpi (.ap 0) 0x9A#8] with skinitLatch := true })
      (fun t => t.aps.map fun p => (p.segs.cs.base, p.segs.cs.sel, p.pc, p.gif, p.msrs.vmcr.rInit, p.pe)) =
      some [(0x9A000#32, 0x9A00#16, 0#32, false, true, false)] := rfl
theorem test_sx_record :
    field (step { moving [.deliver .bsp (.init .signal)] with
      bsp := { bsp with pending := { Pending.empty with init := some .signal }, msrs.vmcr.rInit := true } })
      (fun t => (t.bsp.excs, t.bsp.pending.init)) =
      some ([{ vector := 30, code := some 1, savedPc := 0xFFF0#32 }], none) := rfl

/-! ### Real mode (R44, GK12), SL_DEV rows E5 and E6, busy indication of R132 with P3 row 2 -/

theorem test_real_mode_offsets :
    bsp.linear .ds 0x12345#32 = 0x2345#32 ∧ ({ bsp with pc := 0xFFFE#32 }.cpuid params 0 : Proc).pc = 0#32 ∧
      ({ prot with pc := 0xFFFE#32 }.cpuid params 0 : Proc).pc = 0x10000#32 := ⟨rfl, rfl, rfl⟩
theorem test_load_seg_real : field (step (moving [.loadSeg .bsp .ds 0x1234#16])) (fun t => t.bsp.segs.ds.base) = some 0x12340#32 := rfl
/-- Step 3 of R172, and single-step re-armed in the SL (R173). -/
theorem test_write_gpr : field (step (moving [.writeGpr .bsp .eax 0x00120000#32])) (fun t => (t.bsp.x.eax, t.bsp.x.ebx)) =
    some (0x00120000#32, 0#32) := rfl
theorem test_write_flags : field (step (moving [.writeFlags .bsp false true])) (·.bsp.eflags) =
    some { intr := false, trap := true, other := 2#32 } := rfl
theorem test_mem_read_little_endian :
    field (step { moving [.memRead .bsp (.phys 0x10) 4] with mem := [(0x10, 0x78#8), (0x11, 0x56#8), (0x13, 0x12#8)] })
      (fun t => t.lastRead) = some 0x12005678 := rfl
theorem test_mem_write_little_endian :
    field (step (moving [.memWrite .bsp (.phys 0x10) 2 0xA2B1])) (fun t => t.mem) = some [(0x10, 0xB1#8), (0x11, 0xA2#8)] := rfl
/-- An INIT that asserts in a guest is held (log 34), one delivered there is refused (R130). -/
theorem test_init_in_guest :
    field (step (moved { bsp with ctx := .guest true } (.assertEvent .bsp (.init .signal)))) (fun t => t.bsp.pending.init) =
        some (some .signal) ∧
      step (moved { bsp with ctx := .guest true, pending.init := some .signal } (.deliver .bsp (.init .signal))) =
        .refused .initInGuest := ⟨rfl, rfl⟩
theorem test_init_ipi_taken_at_once :
    field (step { moving [.acceptInitIpi 0] with
        aps := [{ ap with run := .running }], ipis := [{ sender := .bsp, target := .ap 0, held := false }]
        bsp := { bsp with apicBusy := true } })
      (fun t => (t.aps.map (·.run), t.ipis, t.bsp.apicBusy, t.bsp.sinceClear)) = some ([.initHalted], [], false, some 0) := rfl
theorem test_init_ipi_held_keeps_busy :
    field (step { moving [.acceptInitIpi 0] with
        aps := [{ ap with run := .running, gif := false }], ipis := [{ sender := .bsp, target := .ap 0, held := false }]
        bsp := { bsp with apicBusy := true } })
      (fun t => (t.aps.map (·.run), t.ipis.map (·.held), t.bsp.apicBusy)) = some ([.running], [true], true) := rfl

/-! ### Witnesses: encoding and steps -/

/-- The last byte of the longest instruction at the limit of `CS`, in protected mode. -/
def atLimit : Proc := { prot with pc := 0xFFFC#32 }

theorem witness_PlacedEncodingIsFetchedAndRun (i : Instr) :
    (withBsp atLimit).agenda = [] ∧ (withBsp atLimit).midSkinit (withBsp atLimit).cur = false ∧
      (withBsp atLimit).proc? (withBsp atLimit).cur = some atLimit ∧ atLimit.run = .running ∧ atLimit.untranslated = true ∧
      (∀ k < [0x36#8].length + i.size, atLimit.segs.cs.within (atLimit.offset (atLimit.pc + BitVec.ofNat 32 k)) = true) ∧
      ∀ k < ([] : List Byte).length + i.size, bsp.segs.cs.within (bsp.offset (bsp.pc + BitVec.ofNat 32 k)) = true := by
  cases i <;> decide

/-- What a step that runs the instruction at `pc` takes, of a BSP and the bytes at its `pc`, `n` of them a prefix. -/
def RunsAt (p : Proc) (s : State) (i : Instr) (n : Nat) : Prop :=
  s.agenda = [] ∧ s.midSkinit s.cur = false ∧ s.proc? s.cur = some p ∧ p.run = .running ∧
    p.nestedUnsupported s.params = false ∧ p.fetch s.params s.mem s.draws = .ok (i, n)

theorem witness_StepRunsDecodedInstruction :
    RunsAt bsp (placed [0x0F#8, 0xA2#8]) .cpuid 0 ∧ RunsAt prot (placedAt prot [0x36#8, 0x0F#8, 0x01#8, 0xDE#8]) .skinit 1 ∧
      bsp.hitsInstructionBreakpoint = false ∧ bsp.eflags.trap = false ∧ bsp.walks = false :=
  ⟨⟨rfl, rfl, rfl, rfl, rfl, rfl⟩, ⟨rfl, rfl, rfl, rfl, rfl, rfl⟩, rfl, rfl, rfl⟩

/-- A breakpoint on the instruction at `pc`. -/
def onBreakpoint : Proc := { bsp with breakpoints := [{ kind := .instruction, addr := 0xFFFFFFF0 }] }

/-- Single-stepping. -/
def stepping : Proc := { bsp with eflags := { bsp.eflags with trap := true } }

theorem witness_CpuidTakesDebugTraps :
    (RunsAt onBreakpoint (placedAt onBreakpoint [0x0F#8, 0xA2#8]) .cpuid 0 ∧ onBreakpoint.hitsInstructionBreakpoint = true) ∧
      RunsAt stepping (placedAt stepping [0x36#8, 0x0F#8, 0xA2#8]) .cpuid 1 ∧ stepping.hitsInstructionBreakpoint = false ∧
      stepping.eflags.trap = true :=
  ⟨⟨⟨rfl, rfl, rfl, rfl, rfl, rfl⟩, rfl⟩, ⟨rfl, rfl, rfl, rfl, rfl, rfl⟩, rfl, rfl⟩

/-- The hypotheses of the statements about a completing `SKINIT`. -/
theorem witness_skinitAllowed : ready.skinitAllowed ∧ ready.agenda = [] := ⟨⟨rfl, rfl, rfl, rfl⟩, rfl⟩

/-- A breakpoint on SKINIT and single-stepping at once (V-B row B14). -/
def trapped : Proc := { prot with breakpoints := onBreakpoint.breakpoints, eflags := stepping.eflags }

theorem witness_SkinitHonoursNoDebugTrap :
    ∃ s : State, s.skinitAllowed ∧ s.agenda = [] ∧ s.skinit = none ∧ s.bsp.run = .running ∧
      s.bsp.fetch s.params s.mem s.draws = .ok (.skinit, 1) ∧ s.bsp.hitsInstructionBreakpoint = true ∧ s.bsp.eflags.trap = true :=
  ⟨placedAt trapped [0x36#8, 0x0F#8, 0x01#8, 0xDE#8], ⟨rfl, rfl, rfl, rfl⟩, rfl, rfl, rfl, rfl, rfl, rfl⟩

theorem witness_OtherBytesAreRefused :
    bsp.fetch params base.mem 0 = .error (.undecodable (.firstByte 0#8)) ∧
      bsp.fetch params (placed [0x36#8, 0x36#8]).mem 0 = .error (.undecodable .segmentOverride) ∧
      Proc.fetch params { prot with pc := 0xFFFF#32 } (Memory.writeCells [] [(0xFFFFFFFF, 0x0F#8)]) 0 =
        .error (.undecodable .truncated) ∧
      base.agenda = [] ∧ base.midSkinit .bsp = false ∧ base.proc? .bsp = some bsp ∧ bsp.run = .running ∧
      bsp.nestedUnsupported params = false :=
  ⟨rfl, rfl, rfl, rfl, rfl, rfl, rfl, rfl⟩

/-- The machine with a halted, and with a shut down, executing processor. -/
def onAp : State := { base with cur := .ap 0 }

/-- A BSP shut down with `GIF` clear. -/
def shutBsp : Proc := { bsp with run := .shutdown, gif := false }

theorem witness_HaltedProcessorExecutesNothing :
    onAp.agenda = [] ∧ onAp.midSkinit onAp.cur = false ∧ onAp.proc? onAp.cur = some ap ∧ ap.run ≠ .running ∧
      (withBsp shutBsp).proc? .bsp = some shutBsp ∧ shutBsp.run ≠ .running := by decide

/-! ### Witnesses: reset, INIT and the invariant -/

theorem witness_ResetClearsLatchAndRunsBsp :
    (moving [.reset .bsp]).agenda = [.reset .bsp] ∧ base.proc? .bsp = some bsp ∧
      (moving [.reset (.ap 0)]).agenda = [.reset (.ap 0)] ∧ base.proc? (.ap 0) = some ap := by decide

theorem witness_ResetSatisfiesInvariant :
    params.resetProc.pending.wf = true ∧ params.resetProc.msrs.efer.width = params.eferWidth := ⟨rfl, rfl⟩

/-- The invariant of the small states of this file: `base` with another BSP, agenda, SKINIT phase. -/
theorem inv_of (p : Proc) (hp : p.pending.wf = true) (he : p.msrs.efer.width = 64) (l : List Move) :
    ({ base with bsp := p, agenda := l } : State).Inv where
  memCanonical := rfl
  memInSpace _ h := nomatch h
  curExists := ⟨p, rfl⟩
  pendingCanonical q p' h := by
    cases q with
    | bsp => cases h; exact hp
    | ap i =>
      match i, h with
      | 0, h => cases h; rfl
      | _ + 1, h => cases h
  resetPendingCanonical := rfl
  slDevAligned m h := by
    obtain ⟨-, rfl⟩ := List.mem_replicate.1 h
    decide
  skinitAligned _ h := nomatch h
  skinitRunning h := nomatch h
  memCtlNamed := rfl
  verdictOfReceived h := nomatch h
  eferWidth q p' h := by
    cases q with
    | bsp => cases h; exact he
    | ap i =>
      match i, h with
      | 0, h => cases h; rfl
      | _ + 1, h => cases h
  resetEferWidth := rfl

theorem witness_StepKeepsInvariant :
    (moving [.assertEvent .bsp .nmi]).Inv ∧ ∃ t, step (moving [.assertEvent .bsp .nmi]) = .next t :=
  ⟨inv_of bsp rfl rfl _, _, rfl⟩

theorem witness_StepKeepsParameters : ∃ t, step (moving [.clearSlDevEn .bsp 1]) = .next t := ⟨_, rfl⟩

theorem witness_InitStateKeeps : (SegReg.gs ≠ .cs ∧ SegReg.gs ≠ .ss) ∧ ∃ n, n ∉ Config.initMsrs :=
  ⟨by decide, (Infinite.exists_notMem_finset Config.initMsrs.toFinset).imp fun _ h => by simpa using h⟩

/-! ### Witnesses: SKINIT -/

/-- A machine of one processor. -/
def alone : State := { State.resetOf { params with apCtls := [] } with bsp := prot }

/-- The BSP's APIC just no longer busy, and a cycle short of and at the delay of R166. -/
def early : State := withBsp { prot with sinceClear := some 2 }
def onTime : State := withBsp { prot with sinceClear := some 3 }

theorem witness_SkinitHandshakeReachesTpm :
    (alone.skinitAllowed ∧ alone.agenda = [] ∧ alone.aps = []) ∧
      (onTime.skinitAllowed ∧ onTime.agenda = [] ∧ onTime.aps ≠ [] ∧ onTime.bsp.delayKept onTime.params = true) ∧
      (early.skinitAllowed ∧ early.agenda = [] ∧ early.aps ≠ [] ∧ early.bsp.delayKept early.params = false) :=
  ⟨⟨⟨rfl, rfl, rfl, rfl⟩, rfl, rfl⟩, ⟨⟨rfl, rfl, rfl, rfl⟩, rfl, by decide, rfl⟩,
    ⟨⟨rfl, rfl, rfl, rfl⟩, rfl, by decide, rfl⟩⟩

theorem witness_SkinitClearsGifKeepsPending :
    ({ bsp with pending := { Pending.empty with device := [5] } } : Proc).pending.has (.device 5) = true := rfl

theorem witness_SkinitFrame :
    (∃ t, exec .skinit ready = .next t) ∧ ∃ t, exec .skinit { ready with agenda := [.setGif .bsp] } = .next t := ⟨⟨_, rfl⟩, _, rfl⟩

/-- A BSP that runs a guest. -/
def inGuest : Proc := { bsp with ctx := .guest true }

/-- `SKINIT`'s use but for the privilege. -/
def unprivileged : State := withBsp { prot with privileged := false }

/-- What software's loss of the privilege makes of it (D7). -/
theorem test_skinit_unprivileged :
    field (step { withBsp prot with agenda := [.setPrivilege .bsp false] }) (fun t => t.bsp.privileged) = some false ∧
      exec .skinit unprivileged = .refused .skinitUnprivileged := ⟨rfl, rfl⟩

theorem witness_SkinitRefusedOutsideItsUse :
    onAp.cur = .ap 0 ∧ ((withBsp inGuest).cur = .bsp ∧ (withBsp inGuest).bsp.ctx = .guest true) ∧
      (base.cur = .bsp ∧ base.bsp.ctx = .host ∧ base.bsp.pe = false) ∧
      unprivileged.cur = .bsp ∧ unprivileged.bsp.ctx = .host ∧ unprivileged.bsp.pe = true ∧ unprivileged.bsp.privileged = false := by
  decide

theorem witness_SkinitStepwiseEqualsWhole :
    ready.skinitAllowed ∧ ready.agenda = [] ∧ (∃ t, exec .skinit ready = .next t) ∧
      ∃ u, exec .skinit { ready with agenda := List.replicate 7 (.proc .bsp) } = .next u :=
  ⟨⟨rfl, rfl, rfl, rfl⟩, rfl, ⟨_, rfl⟩, _, rfl⟩

/-- In the middle of SKINIT. -/
def midway (l : List Move) : State :=
  { moving l with skinit := some (.step4 0x00120000#32 true), tpm := { base.tpm with done := true } }

theorem witness_NothingDeliveredDuringSkinit :
    (midway [.assertEvent .bsp .nmi]).skinit = some (.step4 0x00120000#32 true) ∧
      (midway [.assertEvent .bsp .nmi]).agenda = [.assertEvent .bsp .nmi] ∧
      (midway [.deliver .bsp .nmi]).agenda = [.deliver .bsp .nmi] := by decide

/-- Both controllers protect the block at `0012_0000h`. -/
def protectedState (l : List Move) : State :=
  { moving l with mcs := List.replicate 2 { en := true, base := 0x00120000#32 } }

/-- What two devices do one after the other. -/
def deviceMoves : List Move := [.devWrite 0 0x0012FFFF 2 0x201, .devRead 1 0x00120000 4]

theorem witness_DevicesCannotChangeProtectedImage :
    (∀ m ∈ deviceMoves, (∃ c a n, m = .devRead c a n) ∨ ∃ c a n v, m = .devWrite c a n v) ∧
      (protectedState deviceMoves).protects 0x00120000#32 ∧
      ∃ t, Sys2Proof.core.run 2 (protectedState deviceMoves) = .next t := by
  refine ⟨fun m h => ?_, fun m h => ?_, _, rfl⟩
  · rcases List.mem_cons.1 h with rfl | h
    · exact .inr ⟨_, _, _, _, rfl⟩
    · rw [List.mem_singleton] at h
      exact .inl ⟨_, _, _, h⟩
  · obtain ⟨-, rfl⟩ := List.mem_replicate.1 h
    exact ⟨rfl, rfl⟩

/-- Between two steps of SKINIT, the AP halted, every controller protecting the block. -/
def midProtected (l : List Move) : State := { protectedState l with skinit := some (.step4 0x00120000#32 true) }

/-- Software would open the controller, or the BSP is about to take its next step. -/
theorem witness_DevicesCannotChangeProtectedImage_steps (l : List Move)
    (hl : l = [.clearSlDevEn .bsp 0] ∨ l = [.proc .bsp, .setGif .bsp]) :
    (midProtected l).skinit = some (.step4 0x00120000#32 true) ∧
      (SkinitPhase.step4 0x00120000#32 true).block = some 0x00120000#32 ∧ (midProtected l).protects 0x00120000#32 ∧
      (midProtected l).apsHalted ∧ (∀ q, ¬ (midProtected l).nextMoveIs (.reset q)) ∧
      (∀ q v, ¬ (midProtected l).nextMoveIs (.startupIpi q v)) ∧ ∃ t, step (midProtected l) = .next t := by
  refine ⟨rfl, rfl, fun c h => ?_, fun p h => ?_, ?_⟩
  · obtain ⟨-, rfl⟩ := List.mem_replicate.1 h
    exact ⟨rfl, rfl⟩
  · obtain rfl : p = ap := List.mem_singleton.1 h
    rfl
  · rcases hl with rfl | rfl <;> exact ⟨fun _ ⟨_, h⟩ => (nomatch h), fun _ _ ⟨_, h⟩ => (nomatch h), _, rfl⟩

/-- In the middle of `SKINIT`, with the AP halted, nobody runs software that could open the controller (R55). -/
theorem test_no_clear_sl_dev_en_during_skinit :
    field (step (midProtected [.clearSlDevEn .bsp 0])) (·.mcs) = some (midProtected []).mcs ∧
      field (step (midProtected [.clearSlDevEn (.ap 0) 0])) (·.mcs) = some (midProtected []).mcs := ⟨rfl, rfl⟩

theorem witness_OnlySkinitReachesTpm :
    ∃ t, step (midway [.proc .bsp, .setGif .bsp]) = .next t ∧ t.tpm ≠ (midway [.proc .bsp, .setGif .bsp]).tpm :=
  ⟨_, rfl, fun h => nomatch congrArg Tpm.done h⟩

/-- Before the handshake. -/
def beforeHandshake : State :=
  { moving [.proc .bsp, .setGif .bsp] with skinit := some (.step3 0x00120000#32 true) }

theorem witness_LatchSetBySkinitClearedByReset :
    (∃ t, step beforeHandshake = .next t ∧ beforeHandshake.skinitLatch = false ∧ t.skinitLatch = true) ∧
      (∃ t, step { moving [.reset .bsp] with skinitLatch := true } = .next t ∧ t.skinitLatch = false) ∧
      ∃ t, step (protectedState [.clearSlDevEn .bsp 1]) = .next t ∧ t.mcs ≠ (protectedState [.clearSlDevEn .bsp 1]).mcs :=
  ⟨⟨_, rfl, rfl, rfl⟩, ⟨_, rfl, rfl⟩, _, rfl, by decide⟩

/-! ### Witnesses: CPUID -/

/-- `NP_FN` in EAX. -/
def npAsked : Proc := { bsp with x := { bsp.x with eax := 0x8000000A#32 } }

theorem witness_CpuidReportsNestedPaging :
    ((withBsp npAsked).proc? .bsp = some npAsked ∧ npAsked.x.eax = params.npFn) ∧
      (base.proc? .bsp = some bsp ∧ bsp.x.eax ≠ params.npFn) ∧ CpuidReg.ecx ≠ params.npReg ∧ 31 ≠ params.npBit.val := by decide

theorem witness_CpuidFrame : base.proc? base.cur = some bsp ∧ ∃ t, exec .cpuid base = .next t := ⟨rfl, _, rfl⟩

/-! ### Witnesses: events -/

/-- A BSP with `GIF` clear and an NMI held. -/
def gifClear : Proc := { bsp with gif := false, pending := { Pending.empty with nmi := true } }

theorem witness_ClearGifHoldsEvents :
    (withBsp gifClear).proc? .bsp = some gifClear ∧ gifClear.gif = false ∧
      (moving [.deliver .bsp .nmi]).agenda = [.deliver .bsp .nmi] ∧
      (moving [.assertEvent .bsp .smi]).agenda = [.assertEvent .bsp .smi] := by decide

theorem witness_HeldEventsAreNotLost :
    ∃ t p', step { withBsp gifClear with agenda := [.deliver .bsp .nmi] } = .next t ∧
      (withBsp gifClear).proc? .bsp = some gifClear ∧ t.proc? .bsp = some p' ∧ gifClear.gif = false ∧
      gifClear.pending.has .nmi = true ∧
      ¬ ({ withBsp gifClear with agenda := [.deliver .bsp .nmi] } : State).nextMoveIs (.reset .bsp) :=
  ⟨_, _, rfl, rfl, rfl, rfl, rfl, fun ⟨_, h⟩ => nomatch h⟩

/-- Every kind of event held, `GIF` set, `IF` clear or set. -/
def holding (intr : Bool) : Proc :=
  { bsp with
    eflags := { bsp.eflags with intr := intr }
    pending := { device := [7], nmi := true, smi := true, init := some .both } }

/-- A BSP that runs between two instructions with `GIF` set, and one move to come. -/
def Boundary (s : State) (p : Proc) (m : Move) : Prop :=
  s.proc? .bsp = some p ∧ p.run = .running ∧ s.midSkinit .bsp = false ∧ p.gif = true ∧ s.agenda = [m] ∧
    p.nestedUnsupported s.params = false

theorem witness_DeviceInterruptsGatedByIf :
    (∃ s p, Boundary s p (.deliver .bsp (.device 7)) ∧ p.eflags.intr = false) ∧
      (∃ s p, Boundary s p (.deliver .bsp (.device 7)) ∧ p.eflags.intr = true ∧ p.pending.has (.device 7) = true) ∧
      (∃ s p, Boundary s p (.deliver .bsp .nmi) ∧ p.pending.nmi = true) ∧
      ∃ s p, Boundary s p (.deliver .bsp .smi) ∧ p.pending.smi = true :=
  ⟨⟨moved (holding false) _, holding false, ⟨rfl, rfl, rfl, rfl, rfl, rfl⟩, rfl⟩,
    ⟨moved (holding true) _, holding true, ⟨rfl, rfl, rfl, rfl, rfl, rfl⟩, rfl, rfl⟩,
    ⟨moved (holding false) _, holding false, ⟨rfl, rfl, rfl, rfl, rfl, rfl⟩, rfl⟩,
    ⟨moved (holding false) _, holding false, ⟨rfl, rfl, rfl, rfl, rfl, rfl⟩, rfl⟩⟩

/-- The same in a guest that uses nested paging. -/
def holdingGuest : Proc := { holding true with ctx := .guest true }

/-- The same with INIT redirected. -/
def redirecting : Proc := { holding false with msrs := { bsp.msrs with vmcr := { bsp.msrs.vmcr with rInit := true } } }

theorem witness_RedirectedInitRaisesSx (src : InitSource) :
    ∃ (s : State) (p : Proc), s.agenda = [.deliver .bsp (.init src)] ∧ s.proc? .bsp = some p ∧ p.run = .running ∧
      s.midSkinit .bsp = false ∧ p.gif = true ∧ p.ctx = .host ∧ p.pending.has (.init src) = true ∧
      p.msrs.vmcr.rInit = true :=
  ⟨moved redirecting (.deliver .bsp (.init src)), redirecting, by cases src <;> decide⟩

/-- The second clause: a step that adds an `#SX` to the record. -/
theorem witness_RedirectedInitRaisesSx_cause :
    ∃ t p' e, step (moved redirecting (.deliver .bsp (.init .ipi))) = .next t ∧
      (moved redirecting (.deliver .bsp (.init .ipi))).proc? .bsp = some redirecting ∧ t.proc? .bsp = some p' ∧
      p'.excs = e :: redirecting.excs ∧ e.vector = 30 ∧
      ¬ (moved redirecting (.deliver .bsp (.init .ipi))).nextMoveIs (.reset .bsp) :=
  ⟨_, _, _, rfl, rfl, rfl, rfl, rfl, fun ⟨_, h⟩ => nomatch h⟩

/-- An INIT IPI on its way to a processor that redirects it. -/
def redirectedIpi : State :=
  { moved redirecting (.acceptInitIpi 0) with ipis := [{ sender := .ap 0, target := .bsp, held := false }] }

/-- The same by an INIT IPI that reaches it. -/
theorem witness_RedirectedInitRaisesSx_ipi :
    ∃ t p' e, step redirectedIpi = .next t ∧ redirectedIpi.proc? .bsp = some redirecting ∧ t.proc? .bsp = some p' ∧
      p'.excs = e :: redirecting.excs ∧ e.vector = 30 ∧ ¬ redirectedIpi.nextMoveIs (.reset .bsp) :=
  ⟨_, _, _, rfl, rfl, rfl, rfl, rfl, fun ⟨_, h⟩ => nomatch h⟩

theorem witness_UnredirectedInitReinitialises (src : InitSource) :
    ∃ (s : State) (p : Proc), s.agenda = [.deliver .bsp (.init src)] ∧ s.proc? .bsp = some p ∧ p.run = .running ∧
      s.midSkinit .bsp = false ∧ p.gif = true ∧ p.ctx = .host ∧ p.pending.has (.init src) = true ∧
      p.msrs.vmcr.rInit = false ∧ (∀ i ∈ s.ipis, i.sender ≠ .bsp) ∧ ProcId.ap 0 ≠ .bsp :=
  ⟨moved (holding false) (.deliver .bsp (.init src)), holding false, by cases src <;> decide⟩

theorem witness_InitInGuestIsRefused (src : InitSource) (n : Bool) :
    ∃ (s : State) (p : Proc), s.agenda = [.deliver .bsp (.init src)] ∧ s.proc? .bsp = some p ∧ p.run = .running ∧
      s.midSkinit .bsp = false ∧ p.gif = true ∧ p.ctx = .guest n ∧ p.pending.has (.init src) = true :=
  ⟨moved { holding false with ctx := .guest n } (.deliver .bsp (.init src)), { holding false with ctx := .guest n },
    by cases src <;> cases n <;> decide⟩

/-- The second clause: an INIT IPI that reaches a running guest. -/
theorem witness_InitInGuestIsRefused_ipi (n : Bool) :
    ∃ (s : State) (p : Proc) (i : Ipi), s.agenda = [.acceptInitIpi 0] ∧ s.ipis[0]? = some i ∧ i.target = .bsp ∧
      s.proc? .bsp = some p ∧ p.run = .running ∧ s.midSkinit .bsp = false ∧ p.gif = true ∧ p.ctx = .guest n :=
  ⟨{ moved { bsp with ctx := .guest n } (.acceptInitIpi 0) with ipis := [{ sender := .ap 0, target := .bsp, held := false }] },
    { bsp with ctx := .guest n }, _, rfl, rfl, rfl, rfl, rfl, rfl, rfl, rfl⟩

/-- A BSP in the handler of `#SX`. -/
def inHandler : Proc := { bsp with excs := [{ vector := 30, code := some 1, savedPc := 0x40#32 }] }

theorem witness_ReturnResumesAtSavedPc :
    ∃ (s : State) (p : Proc), s.agenda = [.returnExc .bsp] ∧ s.proc? .bsp = some p ∧ p.run = .running ∧
      s.midSkinit .bsp = false ∧ p.nestedUnsupported s.params = false ∧
      p.excs.head? = some { vector := 30, code := some 1, savedPc := 0x40#32 } :=
  ⟨moved inHandler (.returnExc .bsp), inHandler, by decide⟩

theorem witness_GifSetOnlyBySoftwareOrReset :
    ∃ t p', step { withBsp gifClear with agenda := [.setGif .bsp] } = .next t ∧ t.proc? .bsp = some p' ∧
      gifClear.gif = false ∧ p'.gif = true :=
  ⟨_, _, rfl, rfl, rfl, rfl⟩

theorem witness_VmCrWritersAreListed :
    ∃ t p', step (moving [.writeVmcr .bsp 1#64]) = .next t ∧ t.proc? .bsp = some p' ∧ p'.msrs.vmcr ≠ bsp.msrs.vmcr :=
  ⟨_, _, rfl, rfl, by decide⟩

theorem witness_ShutdownLeftOnlyByReset :
    ({ withBsp shutBsp with agenda := [.assertEvent .bsp .nmi] } : State).Inv ∧
      ∃ t p', step { withBsp shutBsp with agenda := [.assertEvent .bsp .nmi] } = .next t ∧ t.proc? .bsp = some p' ∧
        shutBsp.run = .shutdown ∧ shutBsp.gif = false ∧
        ¬ ({ withBsp shutBsp with agenda := [.assertEvent .bsp .nmi] } : State).nextMoveIs (.reset .bsp) :=
  ⟨inv_of shutBsp rfl rfl _, _, _, rfl, rfl, rfl, rfl, fun ⟨_, h⟩ => nomatch h⟩

theorem witness_InitStateLeftOnlyByStartupIpi :
    (moving [.assertEvent (.ap 0) .nmi]).Inv ∧
      ∃ t p', step (moving [.assertEvent (.ap 0) .nmi]) = .next t ∧ t.proc? (.ap 0) = some p' ∧ ap.run = .initHalted ∧
        (∀ v, ¬ (moving [.assertEvent (.ap 0) .nmi]).nextMoveIs (.startupIpi (.ap 0) v)) ∧
        ¬ (moving [.assertEvent (.ap 0) .nmi]).nextMoveIs (.reset (.ap 0)) :=
  ⟨inv_of bsp rfl rfl _, _, _, rfl, rfl, rfl, (fun _ ⟨_, h⟩ => nomatch h), (fun ⟨_, h⟩ => nomatch h)⟩

/-! ### Witnesses: multiprocessor start -/

/-- An INIT IPI from the BSP to a second AP that runs, another one to the first AP still on its way or not. -/
def ipiState (p : Proc) (more : List Ipi) : State :=
  { moving [.acceptInitIpi 0] with aps := [ap, p], ipis := { sender := .bsp, target := .ap 1, held := false } :: more }

/-- An AP that runs, with `R_INIT` clear or set. -/
def runningAp (rInit : Bool) : Proc :=
  { ap with run := .running, msrs := { ap.msrs with vmcr := { ap.msrs.vmcr with rInit := rInit } } }

/-- A busy BSP, its INIT IPI on the way to a second AP. -/
def ipiClearing (m : Move) : State :=
  { ipiState (runningAp false) [] with agenda := [m], bsp := { bsp with apicBusy := true } }

/-- The first clause: an INIT IPI for two targets. -/
theorem witness_InitIpiAndBusyIndication_issue :
    ∃ s : State, s.agenda = [.sendInitIpi .bsp [.ap 0, .ap 1]] ∧ s.proc? .bsp = some bsp ∧ bsp.run = .running ∧
      s.midSkinit .bsp = false ∧ bsp.nestedUnsupported s.params = false ∧ [ProcId.ap 0, .ap 1] ≠ [] :=
  ⟨moving [.sendInitIpi .bsp [.ap 0, .ap 1]], by decide⟩

/-- The second: accepted, with `R_INIT` either way; while another one of the sender is in flight, and while none is. -/
theorem witness_InitIpiAndBusyIndication_accept (rInit : Bool) (more : List Ipi) :
    ∃ (s : State) (i : Ipi), s.agenda = [.acceptInitIpi 0] ∧ s.ipis[0]? = some i ∧ s.proc? i.sender = some bsp ∧
      s.proc? i.target = some (runningAp rInit) ∧ (runningAp rInit).run = .running ∧ s.midSkinit i.target = false ∧
      (runningAp rInit).gif = true ∧ (runningAp rInit).ctx = .host ∧ (runningAp rInit).msrs.vmcr.rInit = rInit ∧
      i.sender ≠ i.target ∧ s.ipis.eraseIdx 0 = more :=
  ⟨ipiState (runningAp rInit) more, _, rfl, rfl, rfl, rfl, rfl, rfl, rfl, rfl, rfl, by simp, rfl⟩

/-- The same, what is in flight afterwards named. -/
theorem witness_InitIpiAndBusyIndication_others :
    (∃ j ∈ (ipiState (runningAp false) [{ sender := .bsp, target := .ap 0, held := true }]).ipis.eraseIdx 0, j.sender = .bsp ∧
      ¬ (j.held = true ∧ j.target = .ap 1)) ∧
      (ipiState (runningAp false) []).ipis.eraseIdx 0 = [] := by decide

/-- The third: a target that is halted, one in the middle of `SKINIT`, one with `GIF` clear. -/
theorem witness_InitIpiAndBusyIndication_held :
    ((ipiState ap []).proc? (.ap 1) = some ap ∧ ap.run ≠ .running) ∧
      ({ midway [.acceptInitIpi 0] with ipis := [{ sender := .ap 0, target := .bsp, held := false }] } : State).midSkinit .bsp =
        true ∧
      (ipiState { runningAp true with gif := false } []).proc? (.ap 1) = some { runningAp true with gif := false } := by decide

/-- The fourth: steps that clear a busy indication, an acceptance and a RESET at the sender. -/
theorem witness_InitIpiAndBusyIndication_cleared :
    (∃ t p', step (ipiClearing (.acceptInitIpi 0)) = .next t ∧ t.proc? .bsp = some p' ∧ p'.apicBusy = false) ∧
      (∃ t p', step (ipiClearing (.reset .bsp)) = .next t ∧ t.proc? .bsp = some p' ∧ p'.apicBusy = false) ∧
      ∀ m, (ipiClearing m).bsp.apicBusy = true :=
  ⟨⟨_, _, rfl, rfl, rfl⟩, ⟨_, _, rfl, rfl, rfl⟩, fun _ => rfl⟩

/-- A RESET of a busy sender leaves the driver the whole wait of R166. -/
theorem test_reset_of_busy_sender_starts_count :
    field (step (ipiClearing (.reset .bsp))) (fun t => (t.bsp.apicBusy, t.bsp.sinceClear, t.bsp.delayKept t.params)) =
      some (false, some 0, false) := rfl

theorem witness_StartupIpi (latch : Bool) :
    ∃ s : State, s.agenda = [.startupIpi (.ap 0) 0xFF#8] ∧ s.proc? (.ap 0) = some ap ∧ ap.run = .initHalted ∧
      s.midSkinit (.ap 0) = false ∧ s.skinitLatch = latch ∧ ProcId.bsp ≠ .ap 0 :=
  ⟨{ moving [.startupIpi (.ap 0) 0xFF#8] with skinitLatch := latch }, by cases latch <;> decide⟩

theorem witness_StartupIpiIgnoredElsewhere :
    (moving [.startupIpi .bsp 0#8]).agenda = [.startupIpi .bsp 0#8] ∧ base.proc? .bsp = some bsp ∧ bsp.run ≠ .initHalted := by
  decide

/-! ### Witnesses: device protection -/

theorem witness_SlDevRefusesDeviceWrite :
    ∃ (s : State) (c : MemCtl), s.agenda = [.devWrite 1 0x0011FFFF 2 0x201] ∧ s.mcs[1]? = some c ∧ c.en = true ∧
      0x0011FFFF + 2 ≤ s.params.paSpace ∧ inBlock c.base (0x0011FFFF + 1) ∧ inBlock c.base 0x0012FFFF :=
  ⟨protectedState [.devWrite 1 0x0011FFFF 2 0x201], _, rfl, rfl, rfl, by decide, ⟨by decide, by decide⟩, by decide,
    by decide⟩

/-- The last byte below the region and the first above (V-E rows E3, E4), and a controller with `SL_DEV_EN` clear (E8). -/
theorem witness_DeviceWriteOutsideRegionIsDone :
    (∃ (s : State) (c : MemCtl), s.mem.wf = true ∧ s.agenda = [.devWrite 0 0x0011FFFF 1 7] ∧ s.mcs[0]? = some c ∧
      (∀ k < 1, ¬ inBlock c.base (0x0011FFFF + k)) ∧ (∀ k < 1, ¬ inBlock c.base (0x00130000 + k)) ∧
      0x00130000 + 1 ≤ s.params.paSpace) ∧
      (∃ (s : State) (c : MemCtl), s.agenda = [.devRead 0 0x00130000 1] ∧ s.mcs[0]? = some c) ∧
      ∃ (s : State) (c : MemCtl), s.mem.wf = true ∧ s.agenda = [.devWrite 0 0 1 7] ∧ s.mcs[0]? = some c ∧ c.en = false := by
  refine ⟨⟨protectedState [.devWrite 0 0x0011FFFF 1 7], _, rfl, rfl, rfl, fun k hk h => ?_, fun k hk h => ?_, by decide⟩,
    ⟨protectedState [.devRead 0 0x00130000 1], _, rfl, rfl⟩, moving [.devWrite 0 0 1 7], _, rfl, rfl, rfl, rfl⟩
  · obtain rfl : k = 0 := by omega
    exact absurd h.1 (by decide)
  · obtain rfl : k = 0 := by omega
    exact absurd h.2 (by decide)

theorem witness_RefusedDeviceReadLeaksNothing :
    (protectedState [.devRead 0 0x0011FFFF 2]).agenda = [.devRead 0 0x0011FFFF 2] ∧
      (protectedState []).mcs[0]? = some { en := true, base := 0x00120000#32 } ∧
      0x0011FFFF + 2 ≤ params.paSpace ∧ inBlock 0x00120000#32 (0x0011FFFF + 1) := by
  refine ⟨rfl, rfl, by decide, by decide, by decide⟩

/-- What a software action on this BSP takes. -/
def ActsOn (s : State) (p : Proc) (m : Move) : Prop :=
  s.agenda = [m] ∧ s.proc? .bsp = some p ∧ p.run = .running ∧ s.midSkinit .bsp = false ∧ p.nestedUnsupported s.params = false

/-- Paging on, its top level a set of PDPEs, with an in-processor copy or none. -/
def paged (copies : Option (List Quad)) : Proc := { prot with pg := true, pdpePaging := true, pdpeCopy := copies }

/-- A store inside the protected block, to a physical address and through `SS` with a breakpoint on it; a store a segment does not
allow (`CS`); a read through `DS`. -/
theorem witness_ProcessorStoresIgnoreSlDev :
    (ActsOn (protectedState [.memWrite .bsp (.phys 0x00120000) 2 0x201]) bsp (.memWrite .bsp (.phys 0x00120000) 2 0x201) ∧
      (protectedState []).mem.wf = true ∧
      bsp.accessAddrs params [] 0 true (.phys 0x00120000) 2 = .addrs [0x00120000, 0x00120001] ∧
      (∀ a ∈ [0x00120000, 0x00120001], a < params.paSpace)) ∧
      (bsp.accessAddrs params [] 0 true (.seg (some .ss) 0x40#32) 2 = .addrs [0x40, 0x41] ∧
        ({ bsp with breakpoints := [{ kind := .data, addr := 0x41 }] } : Proc).hitsDataBreakpoint [0x40, 0x41] = true) ∧
      bsp.accessAddrs params [] 0 true (.seg (some .cs) 0x40#32) 1 = .violation ∧
      bsp.accessAddrs params [] 0 false (.seg none 0x40#32) 1 = .addrs [0x40] ∧ bsp.hitsDataBreakpoint [0x40] = false :=
  ⟨⟨⟨rfl, rfl, rfl, rfl, rfl⟩, rfl, rfl, by decide⟩, ⟨rfl, rfl⟩, rfl, rfl, rfl⟩

/-- A BSP that watches a byte. -/
def watching : Proc := { bsp with breakpoints := [{ kind := .data, addr := 0x41 }] }

/-- The second part: a read that hits a breakpoint, and one beyond the limit of `DS`. -/
theorem witness_ProcessorStoresIgnoreSlDev_read :
    (ActsOn (moved watching (.memRead .bsp (.seg none 0x40#32) 2)) watching (.memRead .bsp (.seg none 0x40#32) 2) ∧
      watching.accessAddrs params [] 0 false (.seg none 0x40#32) 2 = .addrs [0x40, 0x41] ∧
      watching.hitsDataBreakpoint [0x40, 0x41] = true ∧ (∀ a ∈ [0x40, 0x41], a < params.paSpace)) ∧
      ActsOn (moved prot (.memRead .bsp (.seg none 0x10000#32) 1)) prot (.memRead .bsp (.seg none 0x10000#32) 1) ∧
      prot.accessAddrs params [] 0 false (.seg none 0x10000#32) 1 = .violation :=
  ⟨⟨⟨rfl, rfl, rfl, rfl, rfl⟩, rfl, rfl, by decide⟩, ⟨rfl, rfl, rfl, rfl, rfl⟩, rfl⟩

/-- The third part: the forms of an access through a segment, allowed and not (expand-down, not writable, beyond the limit). -/
theorem witness_ProcessorStoresIgnoreSlDev_forms :
    bsp.ctx.isNested = false ∧ bsp.untranslated = true ∧ bsp.segs.ss.attr.expandUp = true ∧ bsp.segs.ss.attr.writable = true ∧
      (∀ k < 2, bsp.segs.ss.within (bsp.offset (0xFFFE#32 + BitVec.ofNat 32 k)) = true) ∧
      ({ bsp.segs.ss with attr.expandUp := false } : Seg).attr.expandUp = false ∧ bsp.segs.cs.attr.writable = false ∧
      prot.segs.ss.within (prot.offset (0xFFFF#32 + BitVec.ofNat 32 1)) = false := by decide

/-- A store and a read whose walk meets a faulty PDPE are such: which bits are illegal is open. -/
theorem witness_ProcessorStoresIgnoreSlDev_signalled (store : Bool) :
    ∃ e : Quad, (paged none).accessAddrs params [] 0 store (.seg none 0x40#32) 1 = .signalled e ∨ Config.pdpeIllegal e = false := by
  refine ⟨(paged none).walkedPdpe params [] 0 (Config.pdpeIndex 0x40#32), ?_⟩
  cases h : Config.pdpeIllegal ((paged none).walkedPdpe params [] 0 (Config.pdpeIndex 0x40#32)) with
  | false => exact .inr rfl
  | true =>
    left
    cases store <;>
    show (match ([(paged none).walkedPdpe params [] 0 (Config.pdpeIndex 0x40#32)] : List Quad).find? Config.pdpeIllegal with
      | some pdpe => Access.signalled pdpe
      | none => _) = _ <;>
    rw [List.find?_cons_of_pos h]

/-! ### Witnesses: software's actions -/

theorem witness_SetGifSetsOnlyGif :
    ∃ s : State, ActsOn s gifClear (.setGif .bsp) ∧ ProcId.ap 0 ≠ .bsp :=
  ⟨moved gifClear (.setGif .bsp), ⟨rfl, rfl, rfl, rfl, rfl⟩, by decide⟩

/-- All three flags set. -/
def securedBsp : Proc := { bsp with msrs := { bsp.msrs with vmcr := { bsp.msrs.vmcr.secured with other := 0x18#64 } } }

theorem witness_WriteVmCrWritesFields :
    (∃ s : State, ActsOn s securedBsp (.writeVmcr .bsp 0x1E#64)) ∧
      params.dpdBit.val = 0 ∧ (1#64).getLsbD params.dpdBit.val = true ∧ params.bitsDistinct = true ∧
      securedBsp.msrs.vmcr.other &&& params.vmCrFlagMask = 0#64 ∧
      0x1E#64 = securedBsp.msrs.vmcr.toBits params &&& ~~~ bitMask params.dpdBit :=
  ⟨⟨moved securedBsp _, rfl, rfl, rfl, rfl, rfl⟩, by decide⟩

/-- The actions in the order of the list and in another (P4 of 95_test_vectors.md). -/
theorem witness_AbortRestoresNormalOperation :
    ∃ s : State, s.Inv ∧ s.proc? .bsp = some securedBsp ∧ securedBsp.run = .running ∧ s.midSkinit .bsp = false ∧
      securedBsp.nestedUnsupported s.params = false ∧ s.agenda.Perm (s.abortMoves .bsp) ∧
      [Move.writeVmcr .bsp 0#64, .setGif .bsp, .clearSlDevEn .bsp 0].Perm (s.abortMoves .bsp) :=
  ⟨_, inv_of securedBsp rfl rfl [.writeVmcr .bsp 0#64, .setGif .bsp, .clearSlDevEn .bsp 0], rfl, rfl, rfl, rfl, .swap _ _ _, .swap _ _ _⟩

/-! ### Witnesses: nested paging, A20 -/

theorem witness_NestedCr3WriteSignalsNothing :
    ∃ s : State, s.agenda = [.writeCr3 .bsp 5#64] ∧ s.proc? .bsp = some inGuest ∧ inGuest.run = .running ∧
      s.midSkinit .bsp = false ∧ inGuest.ctx = .guest true ∧ s.params.npSupported = true ∧ ProcId.ap 0 ≠ .bsp :=
  ⟨moved inGuest (.writeCr3 .bsp 5#64), by decide⟩

/-- A walk with a copy and without; whether the PDPE is illegal is open. -/
theorem witness_WalkSignalsFaultyPdpe (copies : Option (List Quad)) (e : Quad) :
    (∃ s : State, ActsOn s (paged copies) (.walkPdpe .bsp 3) ∧ (paged copies).walks = true ∧ (paged copies).pdpeCopy = copies) ∧
      (Config.pdpeIllegal e = true ∨ Config.pdpeIllegal e = false) :=
  ⟨⟨moved (paged copies) _, ⟨rfl, rfl, rfl, rfl, rfl⟩, rfl, rfl⟩, (Bool.eq_false_or_eq_true _)⟩

/-- In a guest under nested paging, with a copy an earlier mode left. -/
theorem witness_WalkSignalsFaultyPdpe_nested (copies : Option (List Quad)) :
    ∃ s : State, ActsOn s { paged copies with ctx := .guest true } (.walkPdpe .bsp 3) ∧
      ({ paged copies with ctx := .guest true } : Proc).walks = true :=
  ⟨moved { paged copies with ctx := .guest true } _, ⟨rfl, rfl, rfl, rfl, rfl⟩, rfl⟩

/-- V-F row F3: after a nested guest wrote `CR3`, a walk reads memory, though the host left a copy. -/
theorem test_nested_walk_after_cr3_write (copies : Option (List Quad)) (i : Fin 4) :
    field (step (moved { paged copies with ctx := .guest true } (.writeCr3 .bsp 5#64)))
        (fun t => t.bsp.walkedPdpe t.params t.mem t.draws i) =
      some (({ paged copies with ctx := .guest true } : Proc).pdpeInMemory params [] 5#64 i) := rfl

/-- A fetch whose walk meets a faulty PDPE, where the PDPE it goes through is one. -/
theorem witness_WalkSignalsFaultyPdpe_fetch :
    ∃ (s : State) (e : Quad), s.agenda = [] ∧ s.midSkinit s.cur = false ∧ s.proc? s.cur = some (paged none) ∧
      (paged none).run = .running ∧ (paged none).nestedUnsupported s.params = false ∧
      ((paged none).fetch s.params s.mem s.draws = .error (.signalled e) ∨ Config.pdpeIllegal e = false) := by
  refine ⟨withBsp (paged none), (paged none).walkedPdpe params [] 0 (Config.pdpeIndex ((paged none).linear .cs 0xFFF0#32)), rfl, rfl,
    rfl, rfl, rfl, ?_⟩
  cases h : Config.pdpeIllegal ((paged none).walkedPdpe params [] 0 (Config.pdpeIndex ((paged none).linear .cs 0xFFF0#32))) with
  | false => exact .inr rfl
  | true =>
    left
    have hw : (paged none).fetchWindow params [] 0 0xFFF0#32 4 =
        ([], some ((paged none).walkedPdpe params [] 0 (Config.pdpeIndex ((paged none).linear .cs 0xFFF0#32)))) := by
      have hf : (paged none).faultyWalk params [] 0 [(paged none).linear .cs 0xFFF0#32] =
          some ((paged none).walkedPdpe params [] 0 (Config.pdpeIndex ((paged none).linear .cs 0xFFF0#32))) :=
        List.find?_cons_of_pos h
      rw [Proc.fetchWindow, if_pos (by decide), hf]
    show Proc.fetch params (paged none) [] 0 = _
    rw [Proc.fetch, show (paged none).fetchWindow params [] 0 (paged none).pc maxInstrBytes = _ from hw]
    rfl

theorem witness_NestedPagingUnsupportedIsRefused (m : Move) (e : Event) :
    ∃ s : State, s.proc? .bsp = some holdingGuest ∧ holdingGuest.run = .running ∧ s.midSkinit .bsp = false ∧
      holdingGuest.ctx = .guest true ∧ s.params.npSupported = false ∧ (s.agenda = [] ∧ s.cur = .bsp) ∧
      ({ s with agenda := [.proc .bsp] } : State).agenda = [.proc .bsp] ∧
      ({ s with agenda := [m] } : State).agenda = [m] ∧ ({ s with agenda := [.deliver .bsp e] } : State).agenda = [.deliver .bsp e] :=
  ⟨{ withBsp holdingGuest with params := { params with npSupported := false } }, rfl, rfl, rfl, rfl, rfl, ⟨rfl, rfl⟩, rfl, rfl, rfl⟩

/-- A software action and an event for the clauses above. -/
theorem witness_NestedPagingUnsupportedIsRefused_clauses :
    (Move.setGif .bsp).softwareOf = some .bsp ∧ (Move.memRead .bsp (.phys 0) 4).softwareOf = some .bsp ∧
      holdingGuest.pending.has .nmi = true ∧ holdingGuest.gateOpen .nmi = true ∧ ∀ src, Event.nmi ≠ .init src :=
  ⟨rfl, rfl, rfl, rfl, fun _ h => nomatch h⟩

/-- A host processor with `A20M` asserted, `DIS_A20M` clear or set. -/
def a20 (dis : Bool) : Proc := { bsp with a20m := true, msrs := { bsp.msrs with vmcr := { bsp.msrs.vmcr with disA20m := dis } } }

theorem witness_GuestAddressesKeepBit20 :
    (inGuest.ctx = .guest true ∧ inGuest.pg = false) ∧ ({ inGuest with ctx := .guest false } : Proc).ctx = .guest false ∧
      ((a20 true).ctx = .host ∧ (a20 true).pg = false ∧ (a20 true).msrs.vmcr.disA20m = true) ∧
      ((a20 false).ctx = .host ∧ (a20 false).pg = false ∧ (a20 false).a20m = true ∧ (a20 false).msrs.vmcr.disA20m = false) ∧
      (a20 false).physical params [] 0 0x00112345#32 = 0x00012345 := by
  decide

end Sys2Proof.Tests
end

section
/-! The configuration of the machine (R5, R10, R38): each effect a step can have, as `step_effect` lists them, keeps the parameters
and the numbers of processors and memory controllers. -/

namespace Sys2Proof.Machine

/-- `t` has the parameters and as many processors and memory controllers as `s`: what `Obligations.StepKeepsParameters` concludes,
its parts named. -/
structure State.SameConfig (s t : State) : Prop where
  params : t.params = s.params
  aps : t.aps.length = s.aps.length
  mcs : t.mcs.length = s.mcs.length

/-- SKINIT changes the controllers' protection, not their number. -/
theorem State.SkinitOf.sameConfig {s t : State} (h : s.SkinitOf t) : s.SameConfig t :=
  ⟨h.params, congrArg List.length h.aps, h.mcsLength⟩

theorem State.sameConfig_retire (s : State) (after : List Ipi) : s.SameConfig (s.retire after) :=
  ⟨rfl, s.retire_aps_length after, rfl⟩

theorem State.sameConfig_withProc (s : State) (q : ProcId) (p : Proc) (cells : List Host.Cell) (n r : Nat) :
    s.SameConfig (s.withProc q p cells n r) :=
  ⟨s.withProc_params q p cells n r, s.withProc_aps_length q p cells n r, by rw [State.withProc_mcs]⟩

/-- `RESET` replaces one processor and maps over the controllers (R151). -/
theorem State.sameConfig_resetAt (s : State) (q : ProcId) (p : Proc) : s.SameConfig (s.resetAt q p) where
  params := by simp [State.resetAt]
  aps := by simp [State.resetAt]
  mcs := by simp [State.resetAt]

theorem State.SameConfig.trans {s t u : State} (h : s.SameConfig t) (k : t.SameConfig u) : s.SameConfig u :=
  ⟨k.params.trans h.params, k.aps.trans h.aps, k.mcs.trans h.mcs⟩

theorem MoveEffect.sameConfig {s t : State} {m : Move} (h : MoveEffect s m t) : s.SameConfig t := by
  cases h with
  | retired after => exact s.sameConfig_retire after
  | proc after q p p' cells n r => exact (s.sameConfig_retire after).trans ((s.retire after).sameConfig_withProc q p' cells n r)
  | reset q p => exact s.sameConfig_resetAt q p
  | cleared q p i c => exact ⟨rfl, rfl, List.length_set⟩
  | device => exact ⟨rfl, rfl, rfl⟩

theorem TransitionEffect.sameConfig {s t : State} (h : TransitionEffect s t) : s.SameConfig t := by
  cases h with
  | idle => exact ⟨rfl, rfl, rfl⟩
  | proc p p' cells n => exact s.sameConfig_withProc s.cur p' cells n s.lastRead
  | skinit _ hcur _ _ h => exact (TransitionEffect.skinitOf hcur h).sameConfig

/-- Taking a move off the agenda and naming the processor that executes touch nothing of the configuration, so the effect's own
fact is the step's. -/
theorem step_sameConfig {s t : State} (h : step s = .next t) : s.SameConfig t := by
  cases step_effect h with
  | move m rest _ _ he => exact ⟨he.sameConfig.params, he.sameConfig.aps, he.sameConfig.mcs⟩
  | turn _ he => exact he.sameConfig
  | named q p rest _ _ he => exact ⟨he.sameConfig.params, he.sameConfig.aps, he.sameConfig.mcs⟩

/-- Settles O13, by the effects a step can have (`step_effect`). -/
theorem stepKeepsParameters : Obligations.StepKeepsParameters := fun _ _ h =>
  have ⟨hparams, haps, hmcs⟩ := step_sameConfig h
  ⟨hparams, haps, hmcs⟩

end Sys2Proof.Machine
end

section
/-! The instruction an instruction step runs (R13, R14, R44, R61, R69): what the fetch finds decides the step, bytes placed at `CS:pc`
are what the fetch finds, and the debug traps are the only thing around `exec`. -/

namespace Sys2Proof.Machine

/-! ### A step that fetches an instruction -/

/-- The fetch's one successful answer: the bytes of the window decode. -/
theorem Proc.fetch_of_decode {c : Params} {p : Proc} {m : Memory} {d : Nat} {bs rest : List Byte} {i : Instr}
    (hw : (p.fetchWindow c m d p.pc maxInstrBytes).1 = bs) (h : decode bs = .ok (i, rest)) :
    p.fetch c m d = .ok (i, prefixBytes bs) := by
  simp [Proc.fetch, hw, h]

/-- The step of a running processor with an instruction at its `pc` is that instruction with the debug traps around it. -/
theorem step_of_fetch {s : State} {p : Proc} {i : Instr} {n : Nat} (ha : s.agenda = []) (hm : s.midSkinit s.cur = false)
    (hp : s.proc? s.cur = some p) (hr : p.run = .running) (hn : p.nestedUnsupported s.params = false)
    (hf : p.fetch s.params s.mem s.draws = .ok (i, n)) : step s = (s.walked p).execTraced p i n := by
  rw [step_of_nil ha, State.procStep_of_running hm hp hr]
  simp [State.runInstr, hn, hf]

/-! ### The debug traps around an instruction (log 15) -/

theorem State.execTraced_skinit (s : State) (p : Proc) (n : Nat) :
    s.execTraced p .skinit n = exec .skinit (s.pastPrefix p n) := rfl

/-- An instruction breakpoint is trapped in place of `CPUID`. -/
theorem State.execTraced_cpuid_of_breakpoint {p : Proc} (hb : p.hitsInstructionBreakpoint = true) (s : State) (n : Nat) :
    s.execTraced p .cpuid n = .next (s.raise s.cur p (Config.instructionTrap p).notSx) := by
  simp [State.execTraced, Instr.honoursDebugTraps, hb]

/-- Where no debug trap is due, nothing stands around an instruction. -/
theorem State.execTraced_of_no_trap {p : Proc} (hb : p.hitsInstructionBreakpoint = false) (ht : p.eflags.trap = false) (s : State)
    (i : Instr) (n : Nat) : s.execTraced p i n = exec i (s.pastPrefix p n) := by
  cases i with
  | skinit => rfl
  | cpuid =>
    simp only [State.execTraced, Instr.honoursDebugTraps, hb, ht, Bool.not_true, Bool.false_eq_true, if_false]
    cases exec .cpuid (s.pastPrefix p n) <;> rfl

/-- With `TF` set and no instruction breakpoint, a trace trap follows a completed `CPUID`. -/
theorem State.execTraced_cpuid_of_trap {s t : State} {p p' : Proc} {n : Nat} (hb : p.hitsInstructionBreakpoint = false)
    (ht : p.eflags.trap = true) (he : exec .cpuid (s.pastPrefix p n) = .next t) (hp' : t.proc? s.cur = some p') :
    s.execTraced p .cpuid n = .next (t.raise s.cur p' (Config.traceTrap p').notSx) := by
  simp [State.execTraced, Instr.honoursDebugTraps, hb, ht, he, State.onProc_of_some hp']

/-- `CPUID` after the fetch completes, and the executing processor is still there. -/
theorem State.exec_cpuid_fetched {s : State} {p : Proc} (hp : s.proc? s.cur = some p) (n : Nat) :
    ∃ t p', exec .cpuid ((s.walked p).pastPrefix p n) = .next t ∧ t.proc? s.cur = some p' := by
  obtain ⟨pc, d, he⟩ := State.execCpuid_fetched hp n
  exact ⟨_, _, he, by rw [State.withProc_proc?, State.proc?_setProc_of_some hp]⟩

/-- Settles O4, by what surrounds an instruction where no debug trap is due. -/
theorem stepRunsDecodedInstruction : Obligations.StepRunsDecodedInstruction := by
  intro s p i n ha hm hp hr hn hf hi
  have hstep : step s = exec i ((s.walked p).pastPrefix p n) := by
    rw [step_of_fetch ha hm hp hr hn hf]
    obtain rfl | ⟨hb, ht⟩ := hi
    · exact State.execTraced_skinit ..
    · exact State.execTraced_of_no_trap hb ht ..
  refine ⟨hstep, fun hzero hwalks => ?_⟩
  rw [hstep, State.walked_of_not_walks hwalks, hzero]
  rfl

/-- Settles O5, by the two traps a step can add around `CPUID`. -/
theorem cpuidTakesDebugTraps : Obligations.CpuidTakesDebugTraps := by
  refine ⟨fun s p n ha hm hp hr hn hf => ?_, fun e => ⟨e.notSx_vector_ne, rfl, rfl⟩⟩
  have hstep := step_of_fetch ha hm hp hr hn hf
  refine ⟨fun hb => hstep.trans (State.execTraced_cpuid_of_breakpoint hb _ n), fun hb ht => ?_⟩
  obtain ⟨t, p', he, hp'⟩ := State.exec_cpuid_fetched hp n
  exact ⟨t, p', he, hp', hstep.trans (State.execTraced_cpuid_of_trap hb ht he hp')⟩

/-! ### Bytes placed at `CS:pc` -/

/-- Bytes placed at `pc` are the first the fetch finds, where no translation is on and `CS` reaches them. -/
theorem Proc.fetchWindow_placeBytes {p : Proc} (hu : p.untranslated = true) (c : Params) (m : Memory) (d : Nat) {bs : List Byte}
    (hl : bs.length ≤ maxInstrBytes) (hb : ∀ b ∈ bs, b ≠ unlistedByte)
    (hw : ∀ k < bs.length, p.segs.cs.within (p.offset (p.pc + BitVec.ofNat 32 k)) = true) :
    ∃ w, (p.fetchWindow c (p.placeBytes c d m p.pc bs) d p.pc maxInstrBytes).1 = bs ++ w := by
  obtain ⟨w, h⟩ := Proc.fetchWindow_eq_append hu c (p.placeBytes c d m p.pc bs) d maxInstrBytes p.pc bs.length hl hw
  have hshort : bs.length + 0 < 65536 := by simp only [maxInstrBytes] at hl; omega
  obtain ⟨hread, -⟩ := Proc.read_placeBytes hu c d bs p.pc m (p.placeBytes c d m p.pc bs) d 0 hshort hb
  simp only [BitVec.add_zero, Nat.zero_add] at hread
  refine ⟨w, h.trans (congrArg (· ++ w) (List.ext_getElem (by simp) fun k _ hk => ?_))⟩
  simpa using hread k hk

/-- What may stand before an instruction (R69): nothing, or one SS override byte. -/
def IsPrefix (pre : List Byte) : Prop := pre = [] ∨ pre = [ssOverride]

theorem decodeEncode (i : Instr) : Laws.DecodeEncode.Statement i :=
  match i with
  | .skinit => Laws.DecodeEncode.skinit
  | .cpuid => Laws.DecodeEncode.cpuid

theorem IsPrefix.length_le {pre : List Byte} (h : IsPrefix pre) (i : Instr) : (pre ++ encode i).length ≤ maxInstrBytes := by
  obtain ⟨-, hsize, -⟩ := decodeEncode i
  have hpre : pre.length ≤ 1 := by obtain rfl | rfl := h <;> simp
  rw [Instr.size] at hsize
  rw [List.length_append]
  omega

theorem IsPrefix.decode_encode {pre : List Byte} (h : IsPrefix pre) (i : Instr) (rest : List Byte) :
    decode (pre ++ encode i ++ rest) = .ok (i, rest) := by
  obtain ⟨-, -, hdecode⟩ := decodeEncode i
  obtain rfl | rfl := h
  · exact (hdecode rest).1
  · exact (hdecode rest).2

theorem IsPrefix.prefixBytes_encode {pre : List Byte} (h : IsPrefix pre) (i : Instr) (rest : List Byte) :
    prefixBytes (pre ++ encode i ++ rest) = pre.length := by
  obtain rfl | rfl := h <;> cases i <;> rfl

/-- No byte of an instruction is what an unlisted address reads as, so storing one lists it. -/
theorem IsPrefix.ne_unlistedByte {pre : List Byte} (h : IsPrefix pre) (i : Instr) : ∀ b ∈ pre ++ encode i, b ≠ unlistedByte := by
  obtain rfl | rfl := h <;> cases i <;> decide

/-- An instruction placed at `pc` is the one fetched there. -/
theorem Proc.fetch_placeBytes {p : Proc} (hu : p.untranslated = true) (c : Params) (m : Memory) (d : Nat) {pre : List Byte}
    (hpre : IsPrefix pre) {i : Instr}
    (hw : ∀ k < pre.length + i.size, p.segs.cs.within (p.offset (p.pc + BitVec.ofNat 32 k)) = true) :
    p.fetch c (p.placeBytes c d m p.pc (pre ++ encode i)) d = .ok (i, pre.length) := by
  obtain ⟨w, hwin⟩ := Proc.fetchWindow_placeBytes hu c m d (hpre.length_le i) (hpre.ne_unlistedByte i)
    fun k hk => hw k (by simpa [Instr.size] using hk)
  rw [Proc.fetch_of_decode hwin (hpre.decode_encode i w), hpre.prefixBytes_encode]

theorem State.placeAtPc_of_some {s : State} {p : Proc} (hp : s.proc? s.cur = some p) (bs : List Byte) :
    s.placeAtPc bs = { s with mem := p.placeBytes s.params s.draws s.mem p.pc bs } := by
  simp [State.placeAtPc, hp]

@[simp] theorem State.proc?_mem (s : State) (m : Memory) (q : ProcId) : ({ s with mem := m } : State).proc? q = s.proc? q := by
  cases q <;> rfl

@[simp] theorem State.midSkinit_mem (s : State) (m : Memory) (q : ProcId) :
    ({ s with mem := m } : State).midSkinit q = s.midSkinit q := by
  cases q <;> rfl

/-- Nested paging is on in no untranslated processor, supported or not (R78). -/
theorem Proc.nestedUnsupported_of_untranslated {p : Proc} (h : p.untranslated = true) (c : Params) :
    p.nestedUnsupported c = false := by
  simp only [Proc.untranslated, Bool.and_eq_true, Bool.not_eq_true'] at h
  simp [Proc.nestedUnsupported, h.2]

/-- Settles O3: storing the bytes changes memory alone, the fetch finds them (`Proc.fetch_placeBytes`), and without translation it
draws nothing. -/
theorem placedEncodingIsFetchedAndRun : Obligations.PlacedEncodingIsFetchedAndRun := by
  intro s p i pre ha hm hp hr hu hpre hw
  rw [State.placeAtPc_of_some hp]
  have hfetch := Proc.fetch_placeBytes hu s.params s.mem s.draws hpre hw
  generalize p.placeBytes s.params s.draws s.mem p.pc (pre ++ encode i) = m at hfetch ⊢
  rw [step_of_fetch (s := { s with mem := m }) ha (by simpa using hm) (by simpa using hp) hr
    (Proc.nestedUnsupported_of_untranslated hu _) hfetch, State.walked_of_not_walks (Proc.walks_of_untranslated hu)]

end Sys2Proof.Machine
end

section
/-! Who writes `VM_CR` (R24), the latch (R34) and the memory controllers (R33): the effects a step can have, as `step_procChange`
and `step_effect` list them, sorted by their writer. -/

namespace Sys2Proof.Machine

/-- The next transition is the BSP's own: the agenda is empty and it executes, or its turn is the next move. -/
theorem State.bspMoves_of_nextMove {s : State} (h : s.nextMove = none ∧ s.cur = .bsp ∨ s.nextMove = some (.proc .bsp)) :
    s.bspMoves :=
  h.imp (fun ⟨ha, hcur⟩ => ⟨State.agenda_of_nextMove ha, hcur⟩) State.nextMoveIs_of_nextMove

/-! ### `VM_CR` -/

theorem Proc.Settled.msrs_eq {p p0 : Proc} (h : p.Settled p0) : p0.msrs = p.msrs := by
  obtain rfl | rfl := h <;> rfl

/-- Of the changes a step can make of a processor, four write `VM_CR`. -/
theorem ProcChange.writer_of_vmcr_ne {s : State} {m : Option Move} {q : ProcId} {p p' : Proc} (h : ProcChange s m q p p')
    (hne : p'.msrs.vmcr ≠ p.msrs.vmcr) :
    (∃ v, m = some (.writeVmcr q v)) ∨ (∃ v, m = some (.startupIpi q v)) ∨ m = some (.reset q) ∨
      (q = .bsp ∧ (m = none ∧ s.cur = .bsp ∨ m = some (.proc .bsp)) ∧ s.skinitNext) := by
  cases h with
  | vmcr v hm _ => exact .inl ⟨v, hm⟩
  | startup v hm _ _ => exact .inr (.inl ⟨v, hm⟩)
  | reset hm => exact .inr (.inr (.inl hm))
  | skinit _ hq hm hs _ => exact .inr (.inr (.inr ⟨hq, hm, hs⟩))
  | settled p0 hp0 | redirected _ _ p0 _ hp0 _ _ _ | initSignal p0 _ hp0 _ _ | initIpi p0 _ hp0 _ _ =>
    exact absurd (congrArg Msrs.vmcr hp0.msrs_eq) hne
  | hold _ | a20m _ | event _ _ _ _ _ _ | raised _ _ _ _ | returned _ _ _ _ _ | shutdown _ | gif _ _ | busy _ _ _ | waited _ _
  | segment _ _ | gdtr _ _ | mode _ _ _ _ | privilege _ _ | gpr _ _ _ | flags _ _ _ | efer _ _ | cr3 _ _ _ | breakpoints _ _
  | cpuid _ _ _ | cpuidTraced _ _ _ _ _ _ => exact absurd rfl hne

/-- Settles O43, by the writers among the changes a step can make of a processor (`step_procChange`). -/
theorem vmCrWritersAreListed : Obligations.VmCrWritersAreListed := by
  intro s t q p p' h hp hp' hne
  obtain ⟨v, hm⟩ | ⟨v, hm⟩ | hm | ⟨hq, hm, hs⟩ := (step_procChange h hp hp').writer_of_vmcr_ne hne
  · exact .inl ⟨v, State.nextMoveIs_of_nextMove hm⟩
  · exact .inr (.inl ⟨v, State.nextMoveIs_of_nextMove hm⟩)
  · exact .inr (.inr (.inl (State.nextMoveIs_of_nextMove hm)))
  · exact .inr (.inr (.inr ⟨hq, State.bspMoves_of_nextMove hm, hs⟩))

/-! ### The latch and the memory controllers -/

/-- What a step from `s` to `t` makes of the latch and the memory controllers, by its writer. -/
inductive State.PlatformChange (s t : State) : Prop where
  | kept (hlatch : t.skinitLatch = s.skinitLatch) (hmcs : t.mcs = s.mcs)
  | skinit (hm : s.bspMoves) (hs : s.skinitNext) (hlatch : s.skinitLatch = true → t.skinitLatch = true)
  | cleared (q : ProcId) (i : Nat) (hm : s.nextMoveIs (.clearSlDevEn q i)) (hlatch : t.skinitLatch = s.skinitLatch)
  | reset (q : ProcId) (hm : s.nextMoveIs (.reset q)) (hlatch : t.skinitLatch = false)

theorem MoveEffect.platformChange {s t : State} {m : Move} {rest : List Move} (ha : s.agenda = m :: rest)
    (h : MoveEffect { s with agenda := rest } m t) : s.PlatformChange t := by
  cases h with
  | retired after => exact .kept rfl rfl
  | proc after q p p' cells n r => exact .kept (by simp) (by simp)
  | reset q p hm _ => exact .reset q ⟨rest, hm ▸ ha⟩ rfl
  | cleared q p i c hm _ _ _ => exact .cleared q i ⟨rest, hm ▸ ha⟩ rfl
  | device => exact .kept rfl rfl

/-- A transition of the executing processor, in the state `u` that `s` hands to it: `SKINIT` on the BSP is the one writer. -/
theorem TransitionEffect.platformChange {s u t : State} (h : TransitionEffect u t) (hlatch : u.skinitLatch = s.skinitLatch)
    (hmcs : u.mcs = s.mcs) (hm : u.cur = .bsp → s.bspMoves) (hs : u.skinitNext → s.skinitNext) : s.PlatformChange t := by
  cases h with
  | idle => exact .kept hlatch hmcs
  | proc p p' cells n => exact .kept (by simp [hlatch]) (by simp [hmcs])
  | skinit _ hcur hnext _ hk =>
    exact .skinit (hm hcur) (hs hnext) fun e => (TransitionEffect.skinitOf hcur hk).latch (hlatch.trans e)

theorem step_platformChange {s t : State} (h : step s = .next t) : s.PlatformChange t := by
  cases step_effect h with
  | move m rest _ ha he => exact he.platformChange ha
  | turn ha he => exact he.platformChange rfl rfl (fun hcur => .inl ⟨ha, hcur⟩) id
  | named q p rest ha _ he => exact he.platformChange rfl rfl (fun hcur => .inr ⟨rest, hcur ▸ ha⟩) id

/-- Settles O32, by the writers of the latch and the controllers. -/
theorem latchSetBySkinitClearedByReset : Obligations.LatchSetBySkinitClearedByReset := by
  intro s t h
  cases step_platformChange h with
  | kept hlatch hmcs => exact ⟨by simp_all, by simp_all, fun hne => absurd hmcs hne⟩
  | skinit hm hs hlatch => exact ⟨fun _ _ => ⟨hm, hs⟩, by simp_all, fun _ => .inl ⟨hm, hs⟩⟩
  | cleared q i hm hlatch => exact ⟨by simp_all, by simp_all, fun _ => .inr (.inl ⟨q, i, hm⟩)⟩
  | reset q hm hlatch => exact ⟨by simp_all, fun _ _ => ⟨q, hm⟩, fun _ => .inr (.inr ⟨q, hm⟩)⟩

end Sys2Proof.Machine
end

section
/-! The invariant of the machine (R10, R23, R30, R33, R35, R40, R46, R85), part by part: the effects a step can have, as `step_effect`
and `step_procChange` list them, keep the held sets and `EFER`'s width, the run state, the bytes of memory, the protected blocks, the
phase of `SKINIT` and the TPM's verdict. -/

namespace Sys2Proof.Machine

/-! ### Which processors there are -/

/-- A step brings no processor into being and takes none away (R10). -/
theorem State.SameConfig.exists_proc?_iff {s t : State} (h : s.SameConfig t) (q : ProcId) :
    (∃ p, t.proc? q = some p) ↔ ∃ p, s.proc? q = some p := by
  simp only [← Option.isSome_iff_exists]
  cases q with
  | bsp => exact Iff.rfl
  | ap i => simp [State.proc?, h.aps]

@[simp] theorem State.proc?_agenda_cur (s : State) (l : List Move) (c q : ProcId) :
    ({ s with agenda := l, cur := c } : State).proc? q = s.proc? q := by
  cases q <;> rfl

@[simp] theorem State.atBoundary_agenda (s : State) (l : List Move) (q : ProcId) (p : Proc) :
    ({ s with agenda := l } : State).atBoundary q p = s.atBoundary q p := by
  cases q <;> rfl

@[simp] theorem State.atBoundary_agenda_cur (s : State) (l : List Move) (c q : ProcId) (p : Proc) :
    ({ s with agenda := l, cur := c } : State).atBoundary q p = s.atBoundary q p := by
  cases q <;> rfl

theorem MoveEffect.cur_eq {s t : State} {m : Move} (h : MoveEffect s m t) : t.cur = s.cur := by
  cases h with
  | proc after q p p' cells n r => simp
  | reset q p => simp [State.resetAt]
  | retired | cleared | device => rfl

theorem TransitionEffect.cur_eq {s t : State} (h : TransitionEffect s t) : t.cur = s.cur := by
  cases h with
  | idle => rfl
  | proc p p' cells n => simp
  | skinit _ hcur _ _ h => exact (TransitionEffect.skinitOf hcur h).cur

/-- The processor that executes is another one only where the next move names one that exists. -/
theorem step_cur_exists {s t : State} (h : step s = .next t) (hs : ∃ p, s.proc? s.cur = some p) : ∃ p, s.proc? t.cur = some p := by
  cases step_effect h with
  | move m rest _ _ he => exact he.cur_eq ▸ hs
  | turn _ he => exact he.cur_eq ▸ hs
  | named q p rest _ hp he => exact he.cur_eq ▸ ⟨p, hp⟩

/-! ### What a step keeps of each processor -/

theorem Proc.Settled.pending_eq {p p0 : Proc} (h : p.Settled p0) : p0.pending = p.pending := by
  obtain rfl | rfl := h <;> rfl

theorem Proc.Settled.run_eq {p p0 : Proc} (h : p.Settled p0) : p0.run = p.run := by
  obtain rfl | rfl := h <;> rfl

/-- Held sets stay canonical: events are put in, taken out, or all `RESET_STATE`'s (R30). -/
theorem ProcChange.pending_wf {s : State} {m : Option Move} {q : ProcId} {p p' : Proc} (h : ProcChange s m q p p')
    (hreset : s.params.resetProc.pending.wf = true) (hp : p.pending.wf = true) : p'.pending.wf = true := by
  cases h with
  | hold e => exact Pending.wf_hold e hp
  | event e => exact Pending.wf_drop e hp
  | redirected src _ p0 _ hp0 => exact Pending.wf_drop (.init src) (hp0.pending_eq ▸ hp)
  | initSignal p0 _ hp0 => exact Pending.wf_drop (.init .signal) (hp0.pending_eq ▸ hp)
  | initIpi p0 _ hp0 => exact Pending.wf_drop (.init .ipi) (hp0.pending_eq ▸ hp)
  | settled p0 hp0 => exact hp0.pending_eq ▸ hp
  | reset => exact (s.params.procAtReset_pending q).symm ▸ hreset
  | startup v => exact (p.startup_pending s.skinitLatch v s.draws).symm ▸ hp
  | skinit _ _ _ _ hof => exact hof.pending ▸ hp
  | a20m | raised | returned | shutdown | gif | vmcr | busy | waited | segment | gdtr | mode | privilege | gpr | flags | efer
  | cr3 | breakpoints | cpuid | cpuidTraced => exact hp

theorem Params.procAtReset_msrs (c : Params) (q : ProcId) : (c.procAtReset q).msrs = c.resetProc.msrs := by
  cases q <;> rfl

/-- `EFER` keeps its width (R23), or is `RESET_STATE`'s. -/
theorem ProcChange.eferWidth_eq {s : State} {m : Option Move} {q : ProcId} {p p' : Proc} (h : ProcChange s m q p p') :
    p'.msrs.efer.width = p.msrs.efer.width ∨ p'.msrs.efer.width = s.params.resetProc.msrs.efer.width := by
  cases h with
  | reset => exact .inr (congrArg (·.efer.width) (s.params.procAtReset_msrs q))
  | settled p0 hp0 | redirected _ _ p0 _ hp0 | initSignal p0 _ hp0 | initIpi p0 _ hp0 =>
    exact .inl (congrArg (·.efer.width) hp0.msrs_eq)
  | startup v => exact .inl (congrArg (·.width) (p.startup_efer s.skinitLatch v s.draws))
  | skinit _ _ _ _ hof => exact .inl hof.eferWidth
  | hold | a20m | event | raised | returned | shutdown | gif | vmcr | busy | waited | segment | gdtr | mode | privilege | gpr
  | flags | efer | cr3 | breakpoints | cpuid | cpuidTraced => exact .inl rfl

/-- Away from an instruction boundary the run state is left only by RESET, a Startup IPI and SKINIT (R31, R126, R133). -/
theorem ProcChange.run_of_not_boundary {s : State} {m : Option Move} {q : ProcId} {p p' : Proc} (h : ProcChange s m q p p')
    (hb : s.atBoundary q p = false) :
    p'.run = p.run ∨ (m = some (.reset q) ∧ p'.run = (s.params.procAtReset q).run) ∨
      (∃ v, m = some (.startupIpi q v) ∧ p'.run = .running) ∨ (q = .bsp ∧ p'.run = .running) := by
  cases h with
  | settled p0 hp0 => exact .inl hp0.run_eq
  | hold | a20m => exact .inl rfl
  | reset hm => exact .inr (.inl ⟨hm, rfl⟩)
  | startup v hm => exact .inr (.inr (.inl ⟨v, hm, p.startup_run s.skinitLatch v s.draws⟩))
  | skinit _ hq _ _ hof => exact hof.run.imp_right fun hr => .inr (.inr ⟨hq, hr⟩)
  | event _ _ _ hb' | redirected _ _ _ _ _ hb' | initSignal _ _ _ hb' | initIpi _ _ _ hb' | raised _ _ hb'
  | returned _ _ _ _ hb' | shutdown hb' | gif _ hb' | vmcr _ _ hb' | busy _ _ hb' | waited _ hb' | segment _ hb' | gdtr _ hb'
  | mode _ _ _ hb' | privilege _ hb' | gpr _ _ hb' | flags _ _ hb' | efer _ hb' | cr3 _ _ hb' | breakpoints _ hb' | cpuid _ _ hb'
  | cpuidTraced _ _ _ _ hb' => exact absurd hb' (Bool.eq_false_iff.1 hb)

/-- In the middle of SKINIT there is no instruction boundary on the BSP (R85). -/
theorem State.atBoundary_bsp_of_midSkinit {s : State} (h : s.skinit.isSome = true) (p : Proc) : s.atBoundary .bsp p = false := by
  simp [State.atBoundary, State.midSkinit, h]

/-- So the BSP runs throughout SKINIT: nothing that may happen then stops it (R85; log 27). -/
theorem ProcChange.running_of_midSkinit {s : State} {m : Option Move} {p p' : Proc} (h : ProcChange s m .bsp p p')
    (hmid : s.skinit.isSome = true) (hr : p.run = .running) : p'.run = .running := by
  obtain e | ⟨-, e⟩ | ⟨-, -, e⟩ | ⟨-, e⟩ := h.run_of_not_boundary (State.atBoundary_bsp_of_midSkinit hmid p)
  · exact e.trans hr
  · exact e
  · exact e
  · exact e

/-! ### Memory: what bytes a step stores, and who stores them -/

/-- A byte at `a` may be stored in a step from `s`: it is a physical address, and a processor at an instruction boundary stores it, or
a device through a memory controller whose protection does not cover it (R52). -/
def State.mayStore (s : State) (a : Nat) : Prop :=
  a < s.params.paSpace ∧
    ((∃ q p, s.proc? q = some p ∧ s.atBoundary q p = true) ∨ ∃ mc ∈ s.mcs, mc.en = true → a < mc.base.toNat ∨ mc.top ≤ a)

theorem MoveEffect.mem_eq {s t : State} {m : Move} (h : MoveEffect s m t) :
    ∃ cells, (∀ c ∈ cells, s.mayStore c.1) ∧ t.mem = s.mem.writeCells cells := by
  cases h with
  | proc after q p p' cells n r hp _ hspace hb =>
    refine ⟨cells, fun c hc => ⟨hspace c hc, .inl ⟨q, p, hp, hb.resolve_left fun e => ?_⟩⟩, rfl⟩
    simp [e] at hc
  | device cells v n hspace hctl => exact ⟨cells, fun c hc => ⟨hspace c hc, .inr (hctl c hc)⟩, rfl⟩
  | reset q p => exact ⟨[], by simp, by simp [State.resetAt, Memory.writeCells]⟩
  | retired | cleared => exact ⟨[], by simp, rfl⟩

theorem TransitionEffect.mem_eq {s t : State} (h : TransitionEffect s t) :
    ∃ cells, (∀ c ∈ cells, s.mayStore c.1) ∧ t.mem = s.mem.writeCells cells := by
  cases h with
  | idle => exact ⟨[], by simp, rfl⟩
  | proc p p' cells n hp hb _ hspace => exact ⟨cells, fun c hc => ⟨hspace c hc, .inl ⟨s.cur, p, hp, hb⟩⟩, rfl⟩
  | skinit _ hcur _ _ h => exact ⟨[], by simp, (TransitionEffect.skinitOf hcur h).mem⟩

/-- All a step does to memory. -/
theorem step_mem_eq {s t : State} (h : step s = .next t) :
    ∃ cells, (∀ c ∈ cells, s.mayStore c.1) ∧ t.mem = s.mem.writeCells cells := by
  cases step_effect h with
  | move m rest _ _ he =>
    obtain ⟨cells, hcells, e⟩ := he.mem_eq
    exact ⟨cells, fun c hc => by simpa [State.mayStore] using hcells c hc, e⟩
  | turn _ he => exact he.mem_eq
  | named q p rest _ _ he =>
    obtain ⟨cells, hcells, e⟩ := he.mem_eq
    exact ⟨cells, fun c hc => by simpa [State.mayStore] using hcells c hc, e⟩

/-! ### Controllers, the phase of SKINIT, the TPM -/

/-- The parts of `State.Inv` that speak of what SKINIT writes outside the processors. -/
structure State.PlatformInv (s : State) : Prop where
  controllers : ∀ mc ∈ s.mcs, mc.wf = true
  phase : ∀ ph, s.skinit = some ph → ph.wf = true
  verdict : s.tpm.done = true → s.tpm.validSl = Config.tpmVerdict s.tpm.okSoFar s.tpm.rx

theorem State.PlatformInv.skinitStep1 {s : State} (h : s.PlatformInv) : s.skinitStep1.PlatformInv :=
  ⟨h.controllers, by rintro _ ⟨⟩; rfl, h.verdict⟩

/-- What else changes does not matter. -/
theorem State.PlatformInv.of_eq {s t : State} (h : s.PlatformInv) (hmcs : t.mcs = s.mcs) (hskinit : t.skinit = s.skinit)
    (htpm : t.tpm = s.tpm) : t.PlatformInv :=
  ⟨hmcs ▸ h.controllers, hskinit ▸ h.phase, htpm ▸ h.verdict⟩

/-- Step 2 forms an aligned base, the later steps work on it; the TPM's transfer starts at step 4 and its verdict is step 5's. -/
theorem State.PlatformInv.skinitStep {s : State} {ph : SkinitPhase} (h : s.PlatformInv) (hph : s.skinit = some ph) :
    (s.skinitStep ph).PlatformInv := by
  have haligned := h.phase ph hph
  cases ph with
  | step2 kept =>
    refine ⟨fun mc hmc => ?_, by rintro _ ⟨⟩; exact alignedSlb_slbBase _, h.verdict⟩
    obtain ⟨_, _, rfl⟩ := List.mem_map.1 hmc
    exact alignedSlb_slbBase _
  | step3 slb kept => exact ⟨h.controllers, by rintro _ ⟨⟩; exact haligned, h.verdict⟩
  | step4 slb hsOk => exact ⟨h.controllers, by rintro _ ⟨⟩; exact haligned, fun hdone => by cases hdone⟩
  | step5 slb hsOk => exact ⟨h.controllers, by rintro _ ⟨⟩; exact haligned, fun _ => rfl⟩
  | step6 slb => exact ⟨h.controllers, by rintro _ ⟨⟩; exact haligned, h.verdict⟩
  | step7 slb =>
    simp only [State.skinitStep, State.skinitStep7]
    generalize slb + 0x10000#32 = top
    exact ⟨h.controllers, by rintro _ ⟨⟩; exact haligned, h.verdict⟩
  | step8 slb => exact ⟨h.controllers, nofun, h.verdict⟩

theorem State.PlatformInv.skinitRun {s : State} (h : s.PlatformInv) (n : Nat) : (s.skinitRun n).PlatformInv :=
  State.skinitRun_induct (fun _ _ hu hph => hu.skinitStep hph) h n

theorem State.PlatformInv.fetched {s : State} (h : s.PlatformInv) (p : Proc) (n : Nat) : (s.fetched p n).PlatformInv := by
  unfold State.fetched State.pastPrefix
  split
  · exact h.of_eq rfl rfl rfl
  · exact h.of_eq (State.setProc_mcs ..) (State.setProc_skinit ..) (State.setProc_tpm ..)

/-- `RESET` leaves the controllers with 64-Kbyte blocks (R151) and abandons the SKINIT of the BSP alone (log 22). -/
theorem State.PlatformInv.resetAt {s : State} (h : s.PlatformInv) (q : ProcId) (p : Proc) : (s.resetAt q p).PlatformInv where
  controllers mc hmc := by
    obtain ⟨_, _, rfl⟩ := List.mem_map.1 hmc
    exact alignedSlb_slbBlock _
  phase ph hph := by
    simp only [State.resetAt, State.setProc_skinit, State.retire_skinit] at hph
    split at hph
    · cases hph
    · exact h.phase ph hph
  verdict := by simpa [State.resetAt] using h.verdict

theorem MoveEffect.platformInv {s t : State} {m : Move} (h : MoveEffect s m t) (hs : s.PlatformInv) : t.PlatformInv := by
  cases h with
  | proc after q p p' cells n r => exact hs.of_eq (by simp) (by simp) (by simp)
  | reset q p => exact hs.resetAt q p
  | cleared q p i c _ _ _ hc =>
    refine ⟨fun mc hmc => ?_, hs.phase, hs.verdict⟩
    obtain hmc | rfl := List.mem_or_eq_of_mem_set hmc
    · exact hs.controllers mc hmc
    · exact hs.controllers c (List.mem_of_getElem? hc)
  | retired | device => exact hs.of_eq rfl rfl rfl

theorem TransitionEffect.platformInv {s t : State} (h : TransitionEffect s t) (hs : s.PlatformInv) : t.PlatformInv := by
  cases h with
  | idle => exact hs
  | proc p p' cells n => exact hs.of_eq (by simp) (by simp) (by simp)
  | skinit _ _ _ _ h =>
    obtain ⟨-, n, rfl⟩ | ⟨ph, hph, rfl⟩ := h
    · exact (hs.fetched s.bsp n).skinitStep1.skinitRun 7
    · exact (hs.skinitStep hph).skinitRun 7

theorem step_platformInv {s t : State} (h : step s = .next t) (hs : s.PlatformInv) : t.PlatformInv := by
  cases step_effect h with
  | move m rest _ _ he => exact he.platformInv (hs.of_eq rfl rfl rfl)
  | turn _ he => exact he.platformInv hs
  | named q p rest _ _ he => exact he.platformInv (hs.of_eq rfl rfl rfl)

/-! ### The BSP throughout SKINIT -/

/-- A move of another agent may end SKINIT, but begins none. -/
theorem MoveEffect.midSkinit_of {s t : State} {m : Move} (h : MoveEffect s m t) (ht : t.skinit.isSome = true) :
    s.skinit.isSome = true := by
  cases h with
  | proc after q p p' cells n r => simpa using ht
  | reset q p =>
    simp only [State.resetAt, State.setProc_skinit, State.retire_skinit] at ht
    split at ht
    · cases ht
    · exact ht
  | retired | cleared | device => exact ht

theorem MoveEffect.skinitRunning {s t : State} {m : Move} (h : MoveEffect s m t)
    (hs : s.skinit.isSome = true → s.bsp.run = .running) (ht : t.skinit.isSome = true) : t.bsp.run = .running :=
  have hmid := h.midSkinit_of ht
  (h.procChange (q := .bsp) rfl rfl).running_of_midSkinit hmid (hs hmid)

theorem TransitionEffect.skinitRunning {s t : State} (h : TransitionEffect s t)
    (hs : s.skinit.isSome = true → s.bsp.run = .running) (ht : t.skinit.isSome = true) : t.bsp.run = .running := by
  have hchange := h.procChange (.inl rfl) (q := .bsp) rfl rfl
  cases h with
  | idle => exact hs ht
  | proc p p' cells n =>
    have hmid : s.skinit.isSome = true := by simpa using ht
    exact hchange.running_of_midSkinit hmid (hs hmid)
  | skinit _ hcur _ hr h =>
    have hrun : s.bsp.run = .running := by
      cases hk : s.skinit with
      | none => exact hr hk
      | some ph => exact hs (by simp [hk])
    exact (TransitionEffect.skinitOf hcur h).bsp.run.elim (·.trans hrun) id

theorem step_skinitRunning {s t : State} (h : step s = .next t) (hs : s.skinit.isSome = true → s.bsp.run = .running) :
    t.skinit.isSome = true → t.bsp.run = .running := by
  cases step_effect h with
  | move m rest _ _ he => exact he.skinitRunning hs
  | turn _ he => exact he.skinitRunning hs
  | named q p rest _ _ he => exact he.skinitRunning hs

/-- Settles O12, part by part. -/
theorem stepKeepsInvariant : Obligations.StepKeepsInvariant := by
  intro s t hs h
  have hconfig := step_sameConfig h
  have hchange : ∀ q p', t.proc? q = some p' → ∃ p, s.proc? q = some p ∧ ProcChange s s.nextMove q p p' := fun q p' hp' =>
    have ⟨p, hp⟩ := (hconfig.exists_proc?_iff q).1 ⟨p', hp'⟩
    ⟨p, hp, step_procChange h hp hp'⟩
  obtain ⟨cells, hcells, hmem⟩ := step_mem_eq h
  obtain ⟨hcontrollers, hphase, hverdict⟩ := step_platformInv h ⟨hs.slDevAligned, hs.skinitAligned, hs.verdictOfReceived⟩
  exact {
    memCanonical := hmem ▸ Memory.wf_writeCells cells hs.memCanonical
    memInSpace := fun c hc => by
      rw [hmem] at hc
      rw [hconfig.params]
      obtain hc | hc := Memory.mem_writeCells hc
      · obtain ⟨c', hc', e⟩ := List.mem_map.1 hc
        exact e ▸ (hcells c' hc').1
      · exact hs.memInSpace c hc
    curExists := (hconfig.exists_proc?_iff t.cur).2 (step_cur_exists h hs.curExists)
    pendingCanonical := fun q p' hp' =>
      have ⟨p, hp, hc⟩ := hchange q p' hp'
      hc.pending_wf hs.resetPendingCanonical (hs.pendingCanonical q p hp)
    resetPendingCanonical := hconfig.params ▸ hs.resetPendingCanonical
    slDevAligned := hcontrollers
    skinitAligned := hphase
    skinitRunning := step_skinitRunning h hs.skinitRunning
    memCtlNamed := by rw [hconfig.params, hconfig.aps, hconfig.mcs]; exact hs.memCtlNamed
    verdictOfReceived := hverdict
    eferWidth := fun q p' hp' => by
      obtain ⟨p, hp, hc⟩ := hchange q p' hp'
      rw [hconfig.params]
      exact hc.eferWidth_eq.elim (·.trans (hs.eferWidth q p hp)) (·.trans hs.resetEferWidth)
    resetEferWidth := hconfig.params ▸ hs.resetEferWidth }

/-! ### After reset -/

/-- Every processor is in `RESET_STATE` (R151), the BSP with another run state. -/
theorem State.proc?_resetOf {c : Params} {q : ProcId} {p : Proc} (h : (State.resetOf c).proc? q = some p) :
    p.pending = c.resetProc.pending ∧ p.msrs = c.resetProc.msrs := by
  cases q with
  | bsp => cases h; exact ⟨rfl, rfl⟩
  | ap i =>
    obtain ⟨_, -, rfl⟩ := List.mem_map.1 (List.mem_of_getElem? h)
    exact ⟨rfl, rfl⟩

/-- One controller for each number up to the greatest that `MEMCTL` gives is enough for all (R33). -/
theorem Params.memCtlOk_resetOf (c : Params) : c.memCtlOk (State.resetOf c).aps.length (State.resetOf c).mcs.length = true := by
  obtain ⟨hbsp, haps⟩ := le_foldl_max c.apCtls c.bspCtl
  simp only [Params.memCtlOk, State.resetOf, List.length_map, List.length_replicate, Bool.and_eq_true, decide_eq_true_eq,
    List.all_eq_true, true_and]
  exact ⟨Nat.lt_succ_of_le hbsp, fun m hm => Nat.lt_succ_of_le (haps m hm)⟩

theorem State.inv_resetOf {c : Params} (hpending : c.resetProc.pending.wf = true)
    (hefer : c.resetProc.msrs.efer.width = c.eferWidth) : (State.resetOf c).Inv where
  memCanonical := Memory.wf_nil
  memInSpace := nofun
  curExists := ⟨_, rfl⟩
  pendingCanonical _ _ hp := (State.proc?_resetOf hp).1 ▸ hpending
  resetPendingCanonical := hpending
  slDevAligned mc hmc := by
    obtain rfl := List.eq_of_mem_replicate hmc
    rfl
  skinitAligned := nofun
  skinitRunning := nofun
  memCtlNamed := c.memCtlOk_resetOf
  verdictOfReceived := nofun
  eferWidth _ _ hp := (congrArg (·.efer.width) (State.proc?_resetOf hp).2).trans hefer
  resetEferWidth := hefer

/-- Settles O11: the second part is the first for the parameters `State.reset` carries. -/
theorem resetSatisfiesInvariant : Obligations.ResetSatisfiesInvariant :=
  ⟨fun _ => State.inv_resetOf, State.inv_resetOf rfl rfl⟩

end Sys2Proof.Machine
end

section
/-! Device accesses (R52, R45, R141): what an access through a memory controller does, done or refused, and that under `SL_DEV` no
device, and during SKINIT with every AP halted nobody at all, changes a byte of the protected block (R55, R164). -/

namespace Sys2Proof.Machine

/-! ### One access -/

/-- A device access is refused exactly where protection is on and some byte lies in the block (R52). -/
theorem MemCtl.blocks_iff_inBlock {c : MemCtl} {a n : Nat} :
    c.blocks a n = true ↔ c.en = true ∧ ∃ k < n, inBlock c.base (a + k) := by
  rw [MemCtl.blocks_iff]
  refine and_congr_right fun _ => ⟨fun ⟨hn, htop, hbase⟩ => ?_, fun ⟨k, hk, hlow, hhigh⟩ => by omega⟩
  exact ⟨c.base.toNat - a, by omega, by omega, by omega⟩

theorem MemCtl.blocks_eq_false_iff {c : MemCtl} {a n : Nat} :
    c.blocks a n = false ↔ c.en = false ∨ ∀ k < n, ¬ inBlock c.base (a + k) := by
  rw [← Bool.not_eq_true, MemCtl.blocks_iff_inBlock]
  simp [or_iff_not_imp_left]

section
variable {s : State} {m a n : Nat} {c : MemCtl} (hc : s.mcs[m]? = some c) (hspace : a + n ≤ s.params.paSpace)
include hc hspace

theorem State.devRead_of_blocks (hb : c.blocks a n = true) :
    s.devRead m a n = .next { s with
      device := { bytes := (List.range n).map (Config.freeByte s.draws), refused := true }, draws := s.draws + 1 } := by
  simp [State.devRead, hc, Params.allExist_range hspace, hb]

theorem State.devRead_of_not_blocks (hb : c.blocks a n = false) :
    s.devRead m a n = .next { s with device := { bytes := s.mem.readBytes a n, refused := false } } := by
  simp [State.devRead, hc, Params.allExist_range hspace, hb]

theorem State.devWrite_of_blocks (hb : c.blocks a n = true) (v : Nat) :
    s.devWrite m a n v = .next { s with device := { bytes := [], refused := true } } := by
  simp [State.devWrite, hc, Params.allExist_range hspace, hb]

theorem State.devWrite_of_not_blocks (hb : c.blocks a n = false) (v : Nat) :
    s.devWrite m a n v = .next { s with
      mem := s.mem.writeCells (cellsFrom a (littleEndianBytes n v)), device := { bytes := [], refused := false } } := by
  simp [State.devWrite, hc, Params.allExist_range hspace, hb]

end

/-- Settles O50. -/
theorem slDevRefusesDeviceWrite : Obligations.SlDevRefusesDeviceWrite := by
  intro s m a n v k c rest ha hc hen hspace hk hin
  have hblocks := MemCtl.blocks_iff_inBlock.2 ⟨hen, k, hk, hin⟩
  rw [step_of_cons ha]
  exact State.devWrite_of_blocks (s := { s with agenda := rest }) hc hspace hblocks v

/-- Settles O52: neither what a refused read gives nor whether it is refused reads memory. -/
theorem refusedDeviceReadLeaksNothing : Obligations.RefusedDeviceReadLeaksNothing := by
  intro s other m a n k c rest ha hc hen hspace hk hin
  have hblocks := MemCtl.blocks_iff_inBlock.2 ⟨hen, k, hk, hin⟩
  have hread := State.devRead_of_blocks (s := { s with agenda := rest }) hc hspace hblocks
  have hread' := State.devRead_of_blocks (s := { s with mem := other, agenda := rest }) hc hspace hblocks
  exact ⟨_, _, (step_of_cons ha).trans hread, (step_of_cons (s := { s with mem := other }) ha).trans hread', rfl, rfl, rfl⟩

/-- Settles O51. -/
theorem deviceWriteOutsideRegionIsDone : Obligations.DeviceWriteOutsideRegionIsDone := by
  intro s m a n v c rest hc hout hspace
  have hblocks := MemCtl.blocks_eq_false_iff.2 hout
  refine ⟨fun hwf ha => ?_, fun ha => ?_⟩
  · have hstep := State.devWrite_of_not_blocks (s := { s with agenda := rest }) hc hspace hblocks v
    obtain ⟨hsame, hother⟩ := Memory.read_writeCells_cellsFrom a (littleEndianBytes n v) hwf
    rw [length_littleEndianBytes] at hother
    refine ⟨_, (step_of_cons ha).trans hstep, fun k hk => ?_, hother, rfl⟩
    have hk' : k < (littleEndianBytes n v).length := by simpa using hk
    exact (hsame k hk').trans (getElem_littleEndianBytes n v k hk')
  · have hstep := State.devRead_of_not_blocks (s := { s with agenda := rest }) hc hspace hblocks
    refine ⟨_, (step_of_cons ha).trans hstep, rfl, length_readBytes _ _ _, fun k hk => ?_, rfl⟩
    simp [Memory.readBytes]

/-! ### The bytes of a block, and the SL image in it -/

/-- The header words and the bytes they count lie in the block (R46, R48), so equal blocks hold equal images. -/
theorem Memory.slImage_congr {m m' : Memory} {slb : Word} (h : ∀ a, inBlock slb a → m'.read a = m.read a) :
    m'.slImage slb = m.slImage slb := by
  have hlength : m'.slLength slb = m.slLength slb := by
    unfold Memory.slLength Memory.read16 Memory.memRead
    rw [Memory.readBytes_congr fun i hi => h _ ⟨by omega, by omega⟩]
  have hlt := (m.slLength slb).isLt
  unfold Memory.slImage
  rw [hlength]
  exact Memory.readBytes_congr fun i hi => h _ ⟨by omega, by omega⟩

/-- A completed device access from `s` to `t`: the controllers and the agenda stay, and no byte changes that the controller it goes
through protects. -/
structure State.DeviceDone (s t : State) : Prop where
  mcs : t.mcs = s.mcs
  agenda : t.agenda = s.agenda
  kept : ∃ c ∈ s.mcs, c.en = true → ∀ x, inBlock c.base x → t.mem.read x = s.mem.read x

theorem State.deviceDone_of_devRead {s t : State} {m a n : Nat} (h : s.devRead m a n = .next t) : s.DeviceDone t := by
  unfold State.devRead at h
  split at h
  · cases h
  · rename_i c hc
    have hmem := List.mem_of_getElem? hc
    split at h
    · cases h
    · split at h
      · cases h; exact ⟨rfl, rfl, c, hmem, fun _ _ _ => rfl⟩
      · cases h; exact ⟨rfl, rfl, c, hmem, fun _ _ _ => rfl⟩

theorem State.deviceDone_of_devWrite {s t : State} {m a n v : Nat} (h : s.devWrite m a n v = .next t) : s.DeviceDone t := by
  unfold State.devWrite at h
  split at h
  · cases h
  · rename_i c hc
    have hmem := List.mem_of_getElem? hc
    split at h
    · cases h
    · split at h
      · cases h; exact ⟨rfl, rfl, c, hmem, fun _ _ _ => rfl⟩
      · rename_i hblocks
        cases h
        refine ⟨rfl, rfl, c, hmem, fun hen x hx => Memory.read_writeCells_other ?_⟩
        rw [map_fst_cellsFrom, length_littleEndianBytes]
        intro hcell
        obtain ⟨k, hk, rfl⟩ := List.mem_map.1 hcell
        exact hblocks (MemCtl.blocks_iff_inBlock.2 ⟨hen, k, List.mem_range.1 hk, hx⟩)

/-- A step whose next move is a device's. -/
theorem deviceDone_of_step {s t : State} {m : Move} {rest : List Move}
    (hm : (∃ c a n, m = .devRead c a n) ∨ ∃ c a n v, m = .devWrite c a n v) (ha : s.agenda = m :: rest) (h : step s = .next t) :
    State.DeviceDone { s with agenda := rest } t := by
  rw [step_of_cons ha] at h
  obtain ⟨_, _, _, rfl⟩ | ⟨_, _, _, _, rfl⟩ := hm
  · exact State.deviceDone_of_devRead h
  · exact State.deviceDone_of_devWrite h

/-- Devices alone change no byte of a block that every controller protects, however many accesses they make. -/
theorem protects_of_device_run {slb : Word} : ∀ (ms : List Move) (s t : State),
    (∀ m ∈ ms, (∃ c a n, m = .devRead c a n) ∨ ∃ c a n v, m = .devWrite c a n v) → s.protects slb → s.agenda = ms →
    Sys2Proof.core.run ms.length s = .next t → t.protects slb ∧ ∀ a, inBlock slb a → t.mem.read a = s.mem.read a := by
  intro ms
  induction ms with
  | nil =>
    intro s t _ hprot _ h
    cases h
    exact ⟨hprot, fun _ _ => rfl⟩
  | cons m rest ih =>
    intro s t hdev hprot ha h
    obtain ⟨u, hstep, hrun⟩ := core_run_succ_eq_next h
    obtain ⟨hmcs, hagenda, c, hc, hkept⟩ := deviceDone_of_step (hdev m List.mem_cons_self) ha hstep
    obtain ⟨hen, rfl⟩ := hprot c hc
    have hprot' : u.protects c.base := fun mc hmc => hprot mc (hmcs ▸ hmc)
    obtain ⟨ht, hread⟩ := ih u t (fun m' hm' => hdev m' (List.mem_cons_of_mem m hm')) hprot' hagenda hrun
    exact ⟨ht, fun x hx => (hread x hx).trans (hkept hen x hx)⟩

/-! ### In the middle of SKINIT, every AP halted -/

/-- Every controller protects the block at `slb`, and SKINIT is done or works on that block. -/
structure State.SkinitOn (s : State) (slb : Word) : Prop where
  protects : s.protects slb
  block : ∀ ph, s.skinit = some ph → ph.block = some slb

theorem State.SkinitOn.of_eq {s t : State} {slb : Word} (h : s.SkinitOn slb) (hmcs : t.mcs = s.mcs) (hskinit : t.skinit = s.skinit) :
    t.SkinitOn slb :=
  ⟨fun mc hmc => h.protects mc (hmcs ▸ hmc), hskinit ▸ h.block⟩

/-- Steps 3 to 8 work on the block they were handed and write no controller. -/
theorem State.SkinitOn.skinitStep {s : State} {slb : Word} {ph : SkinitPhase} (h : s.SkinitOn slb) (hph : s.skinit = some ph) :
    (s.skinitStep ph).SkinitOn slb := by
  have hblock := h.block ph hph
  cases ph with
  | step2 => cases hblock
  | step3 | step4 | step5 | step6 => exact ⟨h.protects, by rintro _ ⟨⟩; exact hblock⟩
  | step7 b =>
    simp only [State.skinitStep, State.skinitStep7]
    generalize b + 0x10000#32 = top
    exact ⟨h.protects, by rintro _ ⟨⟩; exact hblock⟩
  | step8 => exact ⟨h.protects, nofun⟩

/-- No processor is at an instruction boundary: no software runs (R85, R126, R133). -/
def State.noSoftware (s : State) : Prop := ∀ q p, s.proc? q = some p → s.atBoundary q p = false

theorem State.noSoftware_of_midSkinit {s : State} (hmid : s.skinit.isSome = true) (haps : s.apsHalted) : s.noSoftware := by
  intro q p hp
  cases q with
  | bsp => exact State.atBoundary_bsp_of_midSkinit hmid p
  | ap i => simp [State.atBoundary, Proc.isRunning, haps p (List.mem_of_getElem? hp)]

/-- Where no software runs nobody clears `SL_DEV_EN` (R141), and so only a RESET takes the protection away. -/
theorem MoveEffect.skinitOn {s t : State} {m : Move} {slb : Word} (h : MoveEffect s m t) (hs : s.SkinitOn slb)
    (hsoft : s.noSoftware) (hreset : ∀ q, m ≠ .reset q) : t.SkinitOn slb := by
  cases h with
  | proc => exact hs.of_eq (by simp) (by simp)
  | reset q p hm => exact absurd hm (hreset q)
  | cleared q p i c _ hp hb => exact absurd hb (Bool.eq_false_iff.1 (hsoft q p hp))
  | retired | device => exact hs.of_eq rfl rfl

theorem TransitionEffect.skinitOn {s t : State} {slb : Word} (h : TransitionEffect s t) (hs : s.SkinitOn slb)
    (hmid : s.skinit.isSome = true) : t.SkinitOn slb := by
  cases h with
  | idle => exact hs
  | proc => exact hs.of_eq (by simp) (by simp)
  | skinit _ _ _ _ h =>
    obtain ⟨hnone, -⟩ | ⟨ph, hph, rfl⟩ := h
    · simp [hnone] at hmid
    · exact State.skinitRun_induct (P := (·.SkinitOn slb)) (fun _ _ hu hph => hu.skinitStep hph) (hs.skinitStep hph) 7

theorem step_skinitOn {s t : State} {slb : Word} (h : step s = .next t) (hs : s.SkinitOn slb) (hmid : s.skinit.isSome = true)
    (hsoft : s.noSoftware) (hreset : ∀ q, ¬ s.nextMoveIs (.reset q)) : t.SkinitOn slb := by
  cases step_effect h with
  | move m rest _ ha he =>
    exact he.skinitOn (hs.of_eq rfl rfl) (fun q p hp => by simpa using hsoft q p (by simpa using hp))
      fun q hm => hreset q ⟨rest, hm ▸ ha⟩
  | turn _ he => exact he.skinitOn hs hmid
  | named q p rest _ _ he => exact he.skinitOn (hs.of_eq rfl rfl) hmid

/-- A halted AP stays so but for a RESET there and a Startup IPI (R133, R145). -/
theorem step_apsHalted {s t : State} (h : step s = .next t) (hs : s.apsHalted) (hreset : ∀ q, ¬ s.nextMoveIs (.reset q))
    (hstartup : ∀ q v, ¬ s.nextMoveIs (.startupIpi q v)) : t.apsHalted := by
  intro p' hp'
  obtain ⟨i, hi⟩ := List.getElem?_of_mem hp'
  obtain ⟨p, hp⟩ := ((step_sameConfig h).exists_proc?_iff (.ap i)).1 ⟨p', hi⟩
  have hrun : p.run = .initHalted := hs p (List.mem_of_getElem? hp)
  have hb : s.atBoundary (.ap i) p = false := by simp [State.atBoundary, Proc.isRunning, hrun]
  obtain e | ⟨hm, -⟩ | ⟨v, hm, -⟩ | ⟨hq, -⟩ := (step_procChange h hp hi).run_of_not_boundary hb
  · exact e.trans hrun
  · exact absurd (State.nextMoveIs_of_nextMove hm) (hreset _)
  · exact absurd (State.nextMoveIs_of_nextMove hm) (hstartup _ v)
  · cases hq

/-- Where no software runs, no byte of a block that every controller protects changes. -/
theorem step_read_of_protects {s t : State} {slb : Word} (h : step s = .next t) (hs : s.protects slb) (hsoft : s.noSoftware) {a : Nat}
    (ha : inBlock slb a) : t.mem.read a = s.mem.read a := by
  obtain ⟨cells, hcells, hmem⟩ := step_mem_eq h
  rw [hmem]
  refine Memory.read_writeCells_other fun hin => ?_
  obtain ⟨c, hc, rfl⟩ := List.mem_map.1 hin
  obtain ⟨-, ⟨q, p, hp, hb⟩ | ⟨mc, hmc, hout⟩⟩ := hcells c hc
  · exact absurd hb (Bool.eq_false_iff.1 (hsoft q p hp))
  · obtain ⟨hen, rfl⟩ := hs mc hmc
    obtain ⟨hlow, hhigh⟩ := ha
    have := hout hen
    rw [MemCtl.top] at this
    omega

/-- Settles O29: devices by induction on their accesses, the step of any agent by what may store a byte and write a controller. -/
theorem devicesCannotChangeProtectedImage : Obligations.DevicesCannotChangeProtectedImage := by
  refine ⟨fun ms s t slb hdev hprot ha h => ?_, fun s t ph slb hph hblock hprot haps hreset hstartup h => ?_⟩
  · obtain ⟨ht, hread⟩ := protects_of_device_run ms s t hdev hprot ha h
    exact ⟨ht, hread, Memory.slImage_congr hread⟩
  · have hmid : s.skinit.isSome = true := by simp [hph]
    have hon : s.SkinitOn slb := ⟨hprot, by rintro ph' hph'; cases hph.symm.trans hph'; exact hblock⟩
    have hsoft := State.noSoftware_of_midSkinit hmid haps
    have hread : ∀ a, inBlock slb a → t.mem.read a = s.mem.read a := fun a => step_read_of_protects h hprot hsoft
    have hont := step_skinitOn h hon hmid hsoft hreset
    refine ⟨hont.protects, step_apsHalted h haps hreset hstartup, hread, Memory.slImage_congr hread, ?_⟩
    cases hk : t.skinit with
    | none => exact .inl rfl
    | some ph' => exact .inr ⟨ph', rfl, hont.block ph' hk⟩

end Sys2Proof.Machine
end

section
/-! Addressing after SKINIT (R43, R89; D20): flat protected mode through `CS` and `SS`, which step 1 sets up and no later step
leaves. -/

namespace Sys2Proof.Machine

/-- Within its use SKINIT answers a next state (R82). -/
theorem exec_skinit_of_allowed {s : State} (h : s.skinitAllowed) : exec .skinit s = .next (s.skinitStep1.skinitRun 7) :=
  have ⟨hcur, hctx, hpe, hpriv⟩ := h
  execSkinit_eq_next.2 ⟨hcur, hctx, hpe, hpriv, rfl⟩

/-- What step 1 of SKINIT makes of all that decides a physical address (R89, R94, R152a). -/
structure Proc.FlatMode (p : Proc) : Prop where
  pe : p.pe = true
  pg : p.pg = false
  ctx : p.ctx = .host
  disA20m : p.msrs.vmcr.disA20m = true
  cs : p.segs.cs = .flatCode
  ss : p.segs.ss = .flatStack
  ds : p.segs.ds = .realMode p.segs.ds.sel

theorem State.flatMode_skinitStep1 (s : State) : s.skinitStep1.bsp.FlatMode := ⟨rfl, rfl, rfl, rfl, rfl, rfl, rfl⟩

/-- The later steps write EAX, ESP, `GIF`, `pc` and the run state alone. -/
theorem State.flatMode_skinitStep {s : State} (h : s.bsp.FlatMode) (ph : SkinitPhase) : (s.skinitStep ph).bsp.FlatMode := by
  cases ph with
  | step2 => exact ⟨h.pe, h.pg, h.ctx, h.disA20m, h.cs, h.ss, h.ds⟩
  | step3 | step4 | step5 => exact h
  | step6 | step8 => exact ⟨h.pe, h.pg, h.ctx, h.disA20m, h.cs, h.ss, h.ds⟩
  | step7 slb =>
    simp only [State.skinitStep, State.skinitStep7]
    generalize slb + 0x10000#32 = top
    exact ⟨h.pe, h.pg, h.ctx, h.disA20m, h.cs, h.ss, h.ds⟩

/-- No translation, and no A20 mask whatever `A20M` says (D20). -/
theorem Proc.FlatMode.physical_eq {p : Proc} (h : p.FlatMode) (c : Params) (m : Memory) (d : Nat) (a : Word) :
    p.physical c m d a = a.toNat := by
  have hu : p.untranslated = true := by simp [Proc.untranslated, h.pg, h.ctx, Context.isNested]
  have hmask : p.a20Masks = false := by simp [Proc.a20Masks, h.ctx, h.disA20m]
  simp [Proc.physical_of_untranslated hu, hmask]

theorem Proc.FlatMode.linear_eq {p : Proc} (h : p.FlatMode) (r : SegReg) (off : Word) :
    p.linear r off = (p.segs.get r).base + off := by
  simp [Proc.linear, Proc.offset, h.pe]

/-- Settles O18. -/
theorem skinitFlatAddressing : Obligations.SkinitFlatAddressing := by
  intro s hs _
  have hflat : (s.skinitStep1.skinitRun 7).bsp.FlatMode :=
    State.skinitRun_induct (P := (·.bsp.FlatMode)) (fun _ ph hu _ => State.flatMode_skinitStep hu ph) s.flatMode_skinitStep1 7
  refine ⟨_, exec_skinit_of_allowed hs, fun m d off => ?_⟩
  generalize s.skinitStep1.skinitRun 7 = t at hflat ⊢
  simp only [hflat.physical_eq, hflat.linear_eq, Segs.get]
  refine ⟨by simp [hflat.cs, Seg.flatCode], by simp [hflat.ss, Seg.flatStack], ?_⟩
  rw [BitVec.toNat_add, hflat.ds, toNat_realMode_base]
  rfl

end Sys2Proof.Machine
end

section
/-! A processor's stores and reads (R8, R43, R45, R52, R57, R69, R74): the addresses an access names, and what becomes of it. No rule
here looks at a memory controller. -/

namespace Sys2Proof.Machine

/-! ### The addresses of an access -/

/-- Outside nested paging a physical address is itself (R41). -/
theorem Proc.accessAddrs_phys {p : Proc} (h : p.ctx.isNested = false) (c : Params) (m : Memory) (d : Nat) (store : Bool) (a n : Nat) :
    p.accessAddrs c m d store (.phys a) n = .addrs ((List.range n).map (a + ·)) := by
  simp [Proc.accessAddrs, Proc.guestPhysical, h]

/-- The segment allows an access to the `n` bytes from `off` up: its attributes the kind, its limit every offset (R18, R57). -/
def Proc.segmentAllows (p : Proc) (store : Bool) (r : SegReg) (off : Word) (n : Nat) : Prop :=
  (p.segs.get r).attr.allows store = true ∧ ∀ k < n, (p.segs.get r).within (p.offset (off + BitVec.ofNat 32 k)) = true

/-- Where the segment allows it and no walk is made, the addresses are those of base plus offset, byte by byte (R43). -/
theorem Proc.accessAddrs_seg_of_untranslated {p : Proc} {store : Bool} {ov : Option SegReg} {off : Word} {n : Nat}
    (hu : p.untranslated = true) (h : p.segmentAllows store (dataSegment ov) off n) (c : Params) (m : Memory) (d : Nat) :
    p.accessAddrs c m d store (.seg ov off) n =
      .addrs ((List.range n).map fun k => p.physical c m d (p.linear (dataSegment ov) (off + BitVec.ofNat 32 k))) := by
  obtain ⟨hattr, hwithin⟩ := h
  have hoffs : ((offsets off n).all fun o => (p.segs.get (dataSegment ov)).within (p.offset o)) = true := by
    simpa [offsets_eq_map] using hwithin
  simp only [Proc.accessAddrs, hattr, hoffs, Bool.and_self, if_true, Proc.faultyWalk_of_not_walks (Proc.walks_of_untranslated hu)]
  simp [offsets_eq_map, Function.comp_def]

theorem Proc.accessAddrs_seg_of_not_allows {p : Proc} {store : Bool} {ov : Option SegReg} {off : Word} {n : Nat}
    (h : ¬ p.segmentAllows store (dataSegment ov) off n) (c : Params) (m : Memory) (d : Nat) :
    p.accessAddrs c m d store (.seg ov off) n = .violation := by
  have hno : ¬ ((p.segs.get (dataSegment ov)).attr.allows store &&
      (offsets off n).all fun o => (p.segs.get (dataSegment ov)).within (p.offset o)) = true := by
    simpa [offsets_eq_map, Proc.segmentAllows] using h
  simp only [Proc.accessAddrs, if_neg hno]

/-! ### What becomes of an access at an instruction boundary -/

section
variable {s : State} {q : ProcId} {p : Proc} {store : Bool} {r : DataRef} {n : Nat} {rest : List Move} {f : State → List Nat → State}
  (hstep : step s = ({ s with agenda := rest } : State).accessMove q store r n f) (hp : s.proc? q = some p)
  (hr : p.run = .running) (hm : s.midSkinit q = false) (hn : p.nestedUnsupported s.params = false)
include hstep hp hr hm hn

/-- One whose addresses exist is done, and a data breakpoint it hits trapped after it (log 15). -/
theorem step_access_of_addrs {l : List Nat} (h : p.accessAddrs s.params s.mem s.draws store r n = .addrs l)
    (hl : ∀ a ∈ l, a < s.params.paSpace) :
    step s = .next
      (if p.hitsDataBreakpoint l then
        (f (({ s with agenda := rest } : State).walked p) l).raise q p (Config.dataTrap p).notSx
      else f (({ s with agenda := rest } : State).walked p) l) := by
  rw [hstep, State.accessMove, State.bySoftware_agenda hp hr hm hn]
  simp only [h, if_pos (Params.allExist_iff.2 hl)]

theorem step_access_of_violation (h : p.accessAddrs s.params s.mem s.draws store r n = .violation) :
    step s = .refused .segmentViolation := by
  rw [hstep, State.accessMove, State.bySoftware_agenda hp hr hm hn]
  simp only [h]

theorem step_access_of_signalled {pdpe : Quad} (h : p.accessAddrs s.params s.mem s.draws store r n = .signalled pdpe) :
    step s = .next ((({ s with agenda := rest } : State).walked p).raise q p (p.pdpeRecord pdpe)) := by
  rw [hstep, State.accessMove, State.bySoftware_agenda hp hr hm hn]
  simp only [h]

end

theorem step_memWrite {s : State} {q : ProcId} {r : DataRef} {n v : Nat} {rest : List Move} (ha : s.agenda = .memWrite q r n v :: rest) :
    step s = ({ s with agenda := rest } : State).accessMove q true r n fun t l =>
      { t with mem := t.mem.writeCells (l.zip (littleEndianBytes n v)) } :=
  step_of_cons ha

theorem step_memRead {s : State} {q : ProcId} {r : DataRef} {n : Nat} {rest : List Move} (ha : s.agenda = .memRead q r n :: rest) :
    step s = ({ s with agenda := rest } : State).accessMove q false r n fun t l =>
      { t with lastRead := leValue (l.map t.mem.read) } :=
  step_of_cons ha

/-- What a store leaves at the addresses it names, and at every other (R45, R58). -/
theorem Memory.read_store {m : Memory} {l : List Nat} {n : Nat} (v : Nat) (hwf : m.wf = true) (hl : l.length = n) :
    (∀ k, (h : k < l.length) → (∀ j, (hj : j < l.length) → k < j → l[j] ≠ l[k]) →
      (m.writeCells (l.zip (littleEndianBytes n v))).read l[k] = BitVec.ofNat 8 (v / 256 ^ k)) ∧
    ∀ x, x ∉ l → (m.writeCells (l.zip (littleEndianBytes n v))).read x = m.read x := by
  refine ⟨fun k hk hlast => ?_, fun x hx => Memory.read_writeCells_other fun hin => hx ?_⟩
  · have hk' : k < (littleEndianBytes n v).length := by simpa [← hl] using hk
    rw [Memory.read_writeCells_zip l _ m hwf k hk hk' hlast, getElem_littleEndianBytes]
  · obtain ⟨c, hc, rfl⟩ := List.mem_map.1 hin
    exact (List.of_mem_zip (a := c.1) (b := c.2) hc).1

/-- Settles O53: a store, a read, and the forms of the addresses. -/
theorem processorStoresIgnoreSlDev : Obligations.ProcessorStoresIgnoreSlDev := by
  refine ⟨fun s q p r n v rest hwf ha hp hr hm hn => ?_, fun s q p r n rest ha hp hr hm hn => ?_,
    fun c p m d n store => ⟨fun a hnested => p.accessAddrs_phys hnested c m d store a n, fun ov off => ?_⟩⟩
  · have hstep := step_memWrite ha
    refine ⟨fun l h hl => ?_, step_access_of_violation hstep hp hr hm hn, fun _ => step_access_of_signalled hstep hp hr hm hn⟩
    have hdone := step_access_of_addrs hstep hp hr hm hn h hl
    have hlength := Proc.length_of_accessAddrs h
    obtain ⟨hnamed, hother⟩ := Memory.read_store v hwf hlength
    exact ⟨hlength, _, hdone, hnamed, hother, rfl, by cases q <;> exact hp⟩
  · have hstep := step_memRead ha
    refine ⟨fun l h hl => ?_, step_access_of_violation hstep hp hr hm hn, fun _ => step_access_of_signalled hstep hp hr hm hn⟩
    have hdone := step_access_of_addrs hstep hp hr hm hn h hl
    exact ⟨Proc.length_of_accessAddrs h, _, hdone, rfl, rfl, rfl, by cases q <;> exact hp⟩
  · refine ⟨fun hu hup hkind hwithin => ?_, fun h => ?_⟩
    · have hattr : (p.segs.get (dataSegment ov)).attr.allows store = true := by
        rw [SegAttr.allows, Bool.and_eq_true]
        exact ⟨hup, hkind⟩
      exact Proc.accessAddrs_seg_of_untranslated hu ⟨hattr, hwithin⟩ c m d
    · refine Proc.accessAddrs_seg_of_not_allows (fun ⟨hattr, hwithin⟩ => ?_) c m d
      rw [SegAttr.allows, Bool.and_eq_true] at hattr
      obtain ⟨hup', hkind'⟩ := hattr
      obtain hup | hkind | ⟨k, hk, hbeyond⟩ := h
      · exact absurd hup' (Bool.eq_false_iff.1 hup)
      · exact absurd hkind' (Bool.eq_false_iff.1 hkind)
      · exact absurd (hwithin k hk) (Bool.eq_false_iff.1 hbeyond)

end Sys2Proof.Machine
end

section
/-! Bytes and instructions (R65, R67 to R69): what each level of the decoder reads, so that nothing but the table's two rows, with one
SS override prefix or none, is an instruction; what the table's numbers decode to; and the refusal of every other byte sequence. -/

namespace Sys2Proof.Machine

/-! ### What the decoder reads -/

theorem decodeGroup01_eq_ok {bs rest : List Byte} {i : Instr} (h : decodeGroup01 bs = .ok (i, rest)) :
    i = .skinit ∧ bs = 0xDE#8 :: rest := by
  cases bs with
  | nil => cases h
  | cons b tail =>
    simp only [decodeGroup01] at h
    split at h
    · next hb => cases h; exact ⟨rfl, by rw [hb]⟩
    · cases h

/-- After `0F` stands the rest of one of the two encodings. -/
theorem decodeTwoByte_eq_ok {bs rest : List Byte} {i : Instr} (h : decodeTwoByte bs = .ok (i, rest)) :
    0x0F#8 :: bs = encode i ++ rest := by
  cases bs with
  | nil => cases h
  | cons b tail =>
    simp only [decodeTwoByte] at h
    split at h
    · next hb => cases h; rw [hb]; rfl
    · split at h
      · next hb =>
        obtain ⟨rfl, rfl⟩ := decodeGroup01_eq_ok h
        rw [hb]
        rfl
      · cases h

theorem decodeOpcode_eq_ok {bs rest : List Byte} {i : Instr} (h : decodeOpcode bs = .ok (i, rest)) : bs = encode i ++ rest := by
  cases bs with
  | nil => cases h
  | cons b tail =>
    simp only [decodeOpcode] at h
    split at h
    · next hb => rw [hb]; exact decodeTwoByte_eq_ok h
    · split at h <;> cases h

/-- Bytes that decode are an encoding after at most one prefix (R69, log 9). -/
theorem decode_eq_ok {bs rest : List Byte} {i : Instr} (h : decode bs = .ok (i, rest)) :
    ∃ pre, IsPrefix pre ∧ bs = pre ++ encode i ++ rest := by
  cases bs with
  | nil => cases h
  | cons b tail =>
    simp only [decode] at h
    split at h
    · next hb => exact ⟨[ssOverride], .inr rfl, by rw [hb, decodeOpcode_eq_ok h]; rfl⟩
    · exact ⟨[], .inl rfl, decodeOpcode_eq_ok h⟩

/-- Settles O2: the decoder's branches leave only the encodings (`decode_eq_ok`), and each encoding decodes to its instruction
(`IsPrefix.decode_encode`). -/
theorem decodeAgreesWithEncode : Obligations.DecodeAgreesWithEncode := by
  refine fun bs i rest => ⟨fun h => ?_, ?_⟩
  · obtain ⟨pre, rfl | rfl, rfl⟩ := decode_eq_ok h
    · exact .inl rfl
    · exact .inr rfl
  · rintro (rfl | rfl)
    · exact IsPrefix.decode_encode (.inl rfl) i rest
    · exact IsPrefix.decode_encode (.inr rfl) i rest

/-! ### The rows of the opcode table -/

/-- A row of the table whose bytes begin with an instruction's encoding decodes to that instruction. -/
theorem decodeTableWord_of_encode {nbits w : Nat} {i : Instr} {rest : List Byte} (h : tableBytes nbits w = encode i ++ rest) :
    decodeTableWord nbits w = some i := by
  have hdecode : decode (tableBytes nbits w) = .ok (i, rest) := h ▸ IsPrefix.decode_encode (.inl rfl) i rest
  simp only [decodeTableWord, hdecode]

theorem tableBytes_skinit : tableBytes 24 0x0F01DE = encode .skinit ++ [0#8] := by decide

theorem tableBytes_cpuid : tableBytes 16 0x0FA2 = encode .cpuid ++ [0#8, 0#8] := by decide

/-- Settles O1: the listed bytes are the encodings, with the prefix or without. -/
theorem tableWordsDecode : Obligations.TableWordsDecode :=
  ⟨IsPrefix.decode_encode (.inl rfl) .skinit [], IsPrefix.decode_encode (.inl rfl) .cpuid [],
    IsPrefix.decode_encode (.inr rfl) .skinit [], IsPrefix.decode_encode (.inr rfl) .cpuid [],
    decodeTableWord_of_encode tableBytes_skinit, decodeTableWord_of_encode tableBytes_cpuid⟩

/-! ### Bytes that are no instruction -/

/-- Settles O7: the step of a running processor is its fetch's answer, and an undecodable one is a refusal. -/
theorem otherBytesAreRefused : Obligations.OtherBytesAreRefused := by
  intro s p e ha hm hp hr hn hf
  rw [step_of_nil ha, State.procStep_of_running hm hp hr]
  simp [State.runInstr, hn, hf]

end Sys2Proof.Machine
end

section
/-! `CPUID` (R79): where its answer comes from, register by register and bit by bit, and what it leaves unchanged. -/

namespace Sys2Proof.Machine

@[simp] theorem State.proc?_draws (s : State) (n : Nat) (q : ProcId) : ({ s with draws := n } : State).proc? q = s.proc? q := by
  cases q <;> rfl

/-- On a processor that exists `CPUID` completes. -/
theorem exec_cpuid_of_some {s : State} {p : Proc} (hp : s.proc? s.cur = some p) :
    exec .cpuid s = .next (({ s with draws := s.draws + 1 } : State).setProc s.cur (p.cpuid s.params s.draws)) :=
  execCpuid_eq_next.2 ⟨p, hp, rfl⟩

/-! ### The general registers -/

/-- The registers with the four outputs of `CPUID` free (R68, R79), before `NP_BIT` is put in (`Regs.cpuid_eq`). -/
def Regs.cpuidFree (x : Regs) (d : Nat) : Regs :=
  { x with
    eax := Config.freeWord d 0, ebx := Config.freeWord d 1, ecx := Config.freeWord d 2, edx := Config.freeWord d 3 }

theorem Regs.cpuid_eq (c : Params) (d : Nat) (x : Regs) :
    x.cpuid c d = if x.eax = c.npFn then
      (x.cpuidFree d).set c.npReg.gpr (setBit ((x.cpuidFree d).get c.npReg.gpr) c.npBit.val c.npSupported)
    else x.cpuidFree d := rfl

/-- For `NP_FN` the reported bit is `NP_SUPPORTED`. -/
theorem Regs.getLsbD_cpuid_npBit {c : Params} {x : Regs} (h : x.eax = c.npFn) (d : Nat) :
    ((x.cpuid c d).get c.npReg.gpr).getLsbD c.npBit.val = c.npSupported := by
  rw [Regs.cpuid_eq, if_pos h, Regs.get_set_same, getLsbD_setBit_same]

/-- Every bit but the reported one is free. -/
theorem Regs.getLsbD_cpuid_free {c : Params} {x : Regs} {r : CpuidReg} {k : Nat}
    (h : x.eax ≠ c.npFn ∨ r ≠ c.npReg ∨ k ≠ c.npBit.val) (d : Nat) :
    ((x.cpuid c d).get r.gpr).getLsbD k = ((x.cpuidFree d).get r.gpr).getLsbD k := by
  rw [Regs.cpuid_eq]
  split
  · next hfn =>
    obtain rfl | hr := eq_or_ne r c.npReg
    · have hk : k ≠ c.npBit.val := (h.resolve_left (not_not_intro hfn)).resolve_left (not_not_intro rfl)
      rw [Regs.get_set_same, getLsbD_setBit_other _ _ hk]
    · rw [Regs.get_set_other _ _ fun e => hr (CpuidReg.gpr_injective e)]
  · rfl

/-- A register that is no output of `CPUID` is kept. -/
theorem Regs.get_cpuid_of_not_output {g : Gpr} (h : ∀ r : CpuidReg, g ≠ r.gpr) (c : Params) (d : Nat) (x : Regs) :
    (x.cpuid c d).get g = x.get g := by
  have hfree : (x.cpuidFree d).get g = x.get g := by
    cases g with
    | eax => exact absurd rfl (h .eax)
    | ebx => exact absurd rfl (h .ebx)
    | ecx => exact absurd rfl (h .ecx)
    | edx => exact absurd rfl (h .edx)
    | esp | ebp | esi | edi => rfl
  rw [Regs.cpuid_eq]
  split
  · rw [Regs.get_set_other _ _ (h c.npReg), hfree]
  · exact hfree

/-- Settles O33: the bit reported and the free ones. -/
theorem cpuidReportsNestedPaging : Obligations.CpuidReportsNestedPaging := by
  intro s p hp
  refine ⟨_, p.cpuid s.params s.draws, exec_cpuid_of_some hp, State.proc?_setProc_of_some (by simpa using hp) _, rfl, rfl,
    fun hfn => Regs.getLsbD_cpuid_npBit hfn s.draws, fun r k h => (Regs.getLsbD_cpuid_free h s.draws).trans ?_⟩
  cases r <;> rfl

/-- Settles O34: the answer is `s` with one processor put in (`exec_cpuid_of_some`), which keeps every register that is no output. -/
theorem cpuidFrame : Obligations.CpuidFrame := by
  intro s t p hp h
  obtain rfl := Host.Outcome.next.inj ((exec_cpuid_of_some hp).symm.trans h)
  have kept : ∀ g : Gpr, (∀ r : CpuidReg, g ≠ r.gpr) → (p.x.cpuid s.params s.draws).get g = p.x.get g :=
    fun g hg => Regs.get_cpuid_of_not_output hg s.params s.draws p.x
  refine ⟨⟨p.cpuid s.params s.draws, State.proc?_setProc_of_some (by simpa using hp) _, rfl, kept .esp nofun, kept .ebp nofun,
    kept .esi nofun, kept .edi nofun, rfl, rfl, rfl, rfl, rfl⟩, fun q hq => ?_, ?_⟩
  · rw [State.proc?_setProc_other _ _ hq, State.proc?_draws]
  · simp

end Sys2Proof.Machine
end

section
/-! Nested paging (R73 to R76, R78): which PDPE a walk uses and what becomes of a faulty one, the write of `CR3`, the refusal where
the implementation has none, and the physical addresses of a guest. -/

namespace Sys2Proof.Machine

@[simp] theorem Context.isNested_host : Context.host.isNested = false := rfl
@[simp] theorem Context.isNested_guest (nested : Bool) : (Context.guest nested).isNested = nested := rfl

/-! ### The PDPE of a walk (R73, R75) -/

/-- In a guest under nested paging no copy is looked at. -/
theorem Proc.walkedPdpe_of_nested {p : Proc} (h : p.ctx.isNested = true) (c : Params) (m : Memory) (d : Nat) (i : Fin 4) :
    p.walkedPdpe c m d i = p.pdpeInMemory c m p.cr3 i := by
  simp [Proc.walkedPdpe, h]

theorem Proc.walkedPdpe_of_no_copy {p : Proc} (h : p.pdpeCopy = none) (c : Params) (m : Memory) (d : Nat) (i : Fin 4) :
    p.walkedPdpe c m d i = p.pdpeInMemory c m p.cr3 i := by
  simp [Proc.walkedPdpe, h]

theorem Proc.walkedPdpe_of_copy {p : Proc} {copies : List Quad} (h : p.pdpeCopy = some copies) (c : Params) (m : Memory) (d : Nat)
    (i : Fin 4) :
    p.walkedPdpe c m d i = p.pdpeInMemory c m p.cr3 i ∨
      p.walkedPdpe c m d i = copies.getD i.val (p.pdpeInMemory c m p.cr3 i) := by
  simp only [Proc.walkedPdpe, h]
  split_ifs <;> simp

/-! ### Faulty PDPEs (R74) -/

@[simp] theorem State.walked_proc? (s : State) (p : Proc) (q : ProcId) : (s.walked p).proc? q = s.proc? q :=
  s.proc?_draws _ q

/-- Who takes an exception has its record first. -/
theorem State.proc?_raise {s : State} {q : ProcId} {p : Proc} (hp : s.proc? q = some p) (e : ExcRecord) :
    ∃ p', (s.raise q p e).proc? q = some p' ∧ p'.excs = e :: p.excs := by
  obtain ⟨d, cells, -, h⟩ := s.raise_eq q p e
  exact ⟨{ p.delivered d with excs := e :: p.excs }, by rw [h, State.withProc_proc?, State.proc?_setProc_of_some hp], rfl⟩

/-- A walk as software's action makes it: signalled where its PDPE is illegal. -/
theorem step_walkPdpe {s : State} {q : ProcId} {p : Proc} {i : Fin 4} {rest : List Move} (ha : s.agenda = .walkPdpe q i :: rest)
    (hp : s.proc? q = some p) (hr : p.run = .running) (hm : s.midSkinit q = false) (hn : p.nestedUnsupported s.params = false)
    (hw : p.walks = true) :
    step s = .next (if Config.pdpeIllegal (p.walkedPdpe s.params s.mem s.draws i) then
        (({ s with agenda := rest } : State).walked p).raise q p (p.pdpeRecord (p.walkedPdpe s.params s.mem s.draws i))
      else ({ s with agenda := rest } : State).walked p) := by
  rw [step_of_cons ha, State.doMove, State.walkPdpe, State.bySoftware_agenda hp hr hm hn, if_neg (by simp [hw])]

/-- A fetch that is signalled met the PDPE in its window. -/
theorem Proc.fetchWindow_of_fetch_signalled {c : Params} {p : Proc} {m : Memory} {d : Nat} {pdpe : Quad}
    (h : p.fetch c m d = .error (.signalled pdpe)) : (p.fetchWindow c m d p.pc maxInstrBytes).2 = some pdpe := by
  simp only [Proc.fetch] at h
  split at h
  · cases h
  · split at h
    · cases h
    · next hwin =>
      split at h
      · cases h; exact hwin
      · cases h

/-- Settles O58: the two kinds of walk, software's (`step_walkPdpe`) and the fetch's (`Proc.illegal_of_fetchWindow`). -/
theorem walkSignalsFaultyPdpe : Obligations.WalkSignalsFaultyPdpe := by
  refine ⟨fun s q p i rest ha hp hr hm hn hw => ?_, fun s p pdpe ha hm hp hr hn hf => ⟨?_, ?_⟩⟩
  · have hstep := step_walkPdpe ha hp hr hm hn hw
    have hwalked : (({ s with agenda := rest } : State).walked p).proc? q = some p := by simpa using hp
    refine ⟨p.walkedPdpe s.params s.mem s.draws i, fun hctx => Proc.walkedPdpe_of_nested (by simp [hctx]) ..,
      fun hcopy => Proc.walkedPdpe_of_no_copy hcopy .., fun _ hcopy => Proc.walkedPdpe_of_copy hcopy .., fun hill => ?_,
      fun hleg => ?_⟩
    · obtain ⟨p', hp', hexcs⟩ := State.proc?_raise hwalked (p.pdpeRecord (p.walkedPdpe s.params s.mem s.draws i))
      exact ⟨_, p', _, hstep.trans (by rw [if_pos hill]), hp', hexcs, rfl, ExcRecord.notSx_vector_ne _⟩
    · exact ⟨_, hstep.trans (by rw [if_neg (by simp [hleg])]), hwalked, rfl⟩
  · exact Proc.illegal_of_fetchWindow _ _ _ (Proc.fetchWindow_of_fetch_signalled hf)
  · rw [step_of_nil ha, State.procStep_of_running hm hp hr]
    simp [State.runInstr, hn, hf]

/-! ### A write of `CR3` under nested paging (R73, R74) -/

/-- Settles O57: no PDPE is read. -/
theorem nestedCr3WriteSignalsNothing : Obligations.NestedCr3WriteSignalsNothing := by
  intro s q p v rest ha hp hr hm hctx hnp
  have hn : p.nestedUnsupported s.params = false := by simp [Proc.nestedUnsupported, hnp]
  have hstep : step s = .next (({ s with agenda := rest } : State).setProc q { p with cr3 := v }) := by
    rw [step_of_cons ha, State.doMove, State.writeCr3, State.bySoftware_agenda hp hr hm hn, if_pos (by simp [hctx])]
  refine ⟨_, hstep, State.proc?_setProc_of_some (by simpa using hp) _, by simp, fun q' hq' => ?_⟩
  rw [State.proc?_setProc_other _ _ hq', State.proc?_agenda]

/-! ### Nested paging on an implementation without it (R78) -/

/-- A move of software's is some action of the processor it names. -/
theorem State.doMove_of_softwareOf {m : Move} {q : ProcId} (h : m.softwareOf = some q) (s : State) :
    ∃ f, s.doMove m = s.bySoftware q f := by
  cases m with
  | setGif | writeVmcr | memWrite | memRead | loadSeg | loadGdtr | setMode | clearSlDevEn | setPrivilege | writeGpr | writeFlags
  | writeEfer | writeCr3 | walkPdpe | setBreakpoints | returnExc | wait | sendInitIpi =>
    obtain rfl := Option.some.inj h
    exact ⟨_, rfl⟩
  | proc | assertEvent | deliver | reset | shutdown | acceptInitIpi | startupIpi | driveA20m | devRead | devWrite => cases h

section
variable {s : State} {q : ProcId} {p : Proc} (hp : s.proc? q = some p) (hr : p.run = .running) (hm : s.midSkinit q = false)
  (hn : p.nestedUnsupported s.params = true)
include hp hr hm hn

theorem State.procStep_of_nestedUnsupported (hcur : s.cur = q) : s.procStep = .refused .nestedPagingUnsupported := by
  subst hcur
  rw [State.procStep_of_running hm hp hr, State.runInstr, if_pos hn]

theorem State.bySoftware_of_nestedUnsupported (f : Proc → Result) : s.bySoftware q f = .refused .nestedPagingUnsupported := by
  rw [State.bySoftware, State.onProc_of_some hp, if_pos (State.atBoundary_iff.2 ⟨hr, hm⟩), if_pos hn]

/-- A gated event that may be delivered; a due INIT is R130's. -/
theorem State.deliver_of_nestedUnsupported {e : Event} (hhas : p.pending.has e = true) (hgate : p.gateOpen e = true)
    (hinit : ∀ src, e ≠ .init src) : s.deliver q e = .refused .nestedPagingUnsupported := by
  have hdue : s.deliverable q p e = true := by
    simp [State.deliverable, State.atBoundary_iff.2 ⟨hr, hm⟩, hhas, hgate]
  rw [State.deliver, State.onProc_of_some hp, if_pos hdue]
  cases e with
  | device | nmi | smi => exact if_pos hn
  | init src => exact absurd rfl (hinit src)

end

/-- Settles O59: a transition, a software action and a delivery each ask first. -/
theorem nestedPagingUnsupportedIsRefused : Obligations.NestedPagingUnsupportedIsRefused := by
  intro s q p hp hr hm hctx hnp
  have hn : p.nestedUnsupported s.params = true := by simp [Proc.nestedUnsupported, hctx, hnp]
  have hp' : ∀ rest, ({ s with agenda := rest } : State).proc? q = some p := fun rest => by simpa using hp
  have hm' : ∀ rest, ({ s with agenda := rest } : State).midSkinit q = false := fun rest => by simpa using hm
  refine ⟨fun ha hcur => ?_, fun rest ha => ?_, fun m rest ha hsoft => ?_, fun e rest ha hhas hgate hinit => ?_⟩
  · rw [step_of_nil ha, State.procStep_of_nestedUnsupported hp hr hm hn hcur]
  · rw [step_of_cons ha, State.doMove, State.onProc_of_some (hp' rest)]
    refine State.procStep_of_nestedUnsupported (q := q) (by simpa using hp) hr ?_ hn rfl
    cases q <;> exact hm
  · obtain ⟨f, hf⟩ := State.doMove_of_softwareOf hsoft { s with agenda := rest }
    rw [step_of_cons ha, hf]
    exact State.bySoftware_of_nestedUnsupported (hp' rest) hr (hm' rest) hn f
  · rw [step_of_cons ha, State.doMove]
    exact State.deliver_of_nestedUnsupported (hp' rest) hr (hm' rest) hn hhas hgate hinit

/-! ### Physical addresses and A20 masking (R27, R41, R76; D20, log 18) -/

/-- The processor with other values of what governs A20 masking. -/
def Proc.withA20 (p : Proc) (a20m dis : Bool) : Proc :=
  { p with a20m := a20m, msrs := { p.msrs with vmcr := { p.msrs.vmcr with disA20m := dis } } }

@[simp] theorem Proc.a20Blind_withA20 (p : Proc) (a20m dis : Bool) : (p.withA20 a20m dis).a20Blind = p.a20Blind := rfl

/-- No address that the nested mappings give depends on what governs A20 masking (R76). -/
theorem Proc.guestPhysical_withA20 (p : Proc) (a20m dis : Bool) (c : Params) (m : Memory) (a : Nat) :
    (p.withA20 a20m dis).guestPhysical c m a = p.guestPhysical c m a := by
  simp only [Proc.guestPhysical, Proc.a20Blind_withA20]
  rfl

/-- Nor does the PDPE of a walk. -/
theorem Proc.walkOf_withA20 (p : Proc) (a20m dis : Bool) (c : Params) (m : Memory) (d : Nat) (a : Word) :
    (p.withA20 a20m dis).walkOf c m d a = p.walkOf c m d a := by
  have hpdpe : ∀ cr3 i, (p.withA20 a20m dis).pdpeInMemory c m cr3 i = p.pdpeInMemory c m cr3 i := fun cr3 i => by
    simp only [Proc.pdpeInMemory, Proc.guestPhysical_withA20]
  simp only [Proc.walkOf, Proc.walkedPdpe, hpdpe]
  rfl

/-- Under nested paging a physical address is what the nested mappings give, and no mask is applied. -/
theorem Proc.physical_of_nested {p : Proc} (h : p.ctx.isNested = true) (c : Params) (m : Memory) (d : Nat) (a : Word) :
    p.physical c m d a =
      p.guestPhysical c m (if p.pg then Config.pageMap p.a20Blind m (p.walkOf c m d a) a else a.toNat) := by
  simp [Proc.physical, Proc.untranslated, h]

theorem Proc.physical_withA20_of_nested {p : Proc} (h : p.ctx.isNested = true) (a20m dis : Bool) (c : Params) (m : Memory) (d : Nat)
    (a : Word) : (p.withA20 a20m dis).physical c m d a = p.physical c m d a := by
  rw [Proc.physical_of_nested (p := p.withA20 a20m dis) h, Proc.physical_of_nested h, Proc.guestPhysical_withA20,
    Proc.walkOf_withA20, Proc.a20Blind_withA20]
  rfl

/-- Masking takes bit 20 away where it is set (item GK5). -/
theorem maskA20_toNat (a : Word) : maskA20 a.toNat = a.toNat - if a.getLsbD 20 then 2 ^ 20 else 0 := by
  have hbit : a.getLsbD 20 = decide (a.toNat / 2 ^ 20 % 2 = 1) := Nat.testBit_eq_decide_div_mod_eq
  simp only [hbit, decide_eq_true_eq, maskA20]
  split_ifs <;> omega

/-- Settles O60: under nested paging by `Proc.physical_of_nested`, elsewhere by whether the mask applies. -/
theorem guestAddressesKeepBit20 : Obligations.GuestAddressesKeepBit20 := by
  intro c p m d a
  have untranslated : p.ctx.isNested = false → p.pg = false → p.untranslated = true := fun hctx hpg => by
    simp [Proc.untranslated, hctx, hpg]
  have unmasked : p.ctx.isNested = false → p.pg = false → p.a20Masks = false → p.physical c m d a = a.toNat :=
    fun hctx hpg hmask => by simp [Proc.physical_of_untranslated (untranslated hctx hpg), hmask]
  refine ⟨fun hctx a20m dis => ?_, fun hctx hpg => ?_, fun hctx hpg => ?_, fun hctx hpg hoff => ?_, fun hctx hpg hon hdis => ?_⟩
  · exact Proc.physical_withA20_of_nested (by simp [hctx]) a20m dis c m d a
  · have hnested : p.ctx.isNested = true := by simp [hctx]
    simp [Proc.physical_of_nested hnested, Proc.guestPhysical, hnested, hpg]
  · exact unmasked (by simp [hctx]) hpg (by simp [Proc.a20Masks, hctx])
  · exact unmasked (by simp [hctx]) hpg (by rcases hoff with h | h <;> simp [Proc.a20Masks, hctx, h])
  · have hmask : p.a20Masks = true := by simp [Proc.a20Masks, hctx, hon, hdis]
    rw [Proc.physical_of_untranslated (untranslated (by simp [hctx]) hpg), if_pos hmask, maskA20_toNat]

end Sys2Proof.Machine
end

section
/-! SKINIT's steps (R84, R85, R87; D16). Alone they follow one another in one transition; with a turn of the BSP in the agenda for each
of them they are a transition each, and end in the same state. Between two of them nothing is delivered; outside its use SKINIT takes
none (R82). -/

namespace Sys2Proof.Machine

/-! ### How the steps run on -/

/-- After step 8 no further step runs. -/
theorem State.skinitRun_of_done {s : State} (h : s.skinit = none) (n : Nat) : s.skinitRun n = s := by
  cases n with
  | zero => rfl
  | succ n => simp only [State.skinitRun, h]

/-- With nobody else moving the next step runs. -/
theorem State.skinitRun_succ {s : State} {ph : SkinitPhase} (hph : s.skinit = some ph) (ha : s.agenda = []) (n : Nat) :
    s.skinitRun (n + 1) = (s.skinitStep ph).skinitRun n := by
  simp only [State.skinitRun, hph, ha, List.isEmpty_nil, if_true]

/-- How many steps SKINIT has still to take. -/
def SkinitPhase.left : SkinitPhase → Nat
  | .step2 _ => 7
  | .step3 _ _ => 6
  | .step4 _ _ => 5
  | .step5 _ _ => 4
  | .step6 _ => 3
  | .step7 _ => 2
  | .step8 _ => 1

/-- The same of a state: none outside SKINIT. -/
def State.skinitLeft (s : State) : Nat := s.skinit.elim 0 SkinitPhase.left

/-- Each step leaves one less. -/
theorem State.skinitLeft_skinitStep (s : State) (ph : SkinitPhase) : (s.skinitStep ph).skinitLeft + 1 = ph.left := by
  cases ph <;> rfl

theorem State.skinitLeft_of_phase {s : State} {ph : SkinitPhase} (h : s.skinit = some ph) : s.skinitLeft = ph.left := by
  simp [State.skinitLeft, h]

theorem State.skinit_of_left_zero {s : State} (h : s.skinitLeft = 0) : s.skinit = none := by
  cases hk : s.skinit with
  | none => rfl
  | some ph =>
    rw [State.skinitLeft_of_phase hk, ← s.skinitLeft_skinitStep ph] at h
    cases h

theorem State.skinit_of_left_succ {s : State} {n : Nat} (h : s.skinitLeft = n + 1) :
    ∃ ph, s.skinit = some ph ∧ (s.skinitStep ph).skinitLeft = n := by
  cases hk : s.skinit with
  | none => simp [State.skinitLeft, hk] at h
  | some ph =>
    rw [State.skinitLeft_of_phase hk, ← s.skinitLeft_skinitStep ph] at h
    exact ⟨ph, rfl, Nat.succ.inj h⟩

/-- A step of SKINIT reads no move to come. -/
theorem State.skinitStep_agenda (s : State) (ph : SkinitPhase) (l : List Move) :
    ({ s with agenda := l } : State).skinitStep ph = { s.skinitStep ph with agenda := l } := by
  cases ph <;> rfl

/-- In the middle of SKINIT the BSP's transition is its next step. -/
theorem State.procStep_of_skinit {s : State} {ph : SkinitPhase} (hcur : s.cur = .bsp) (hph : s.skinit = some ph) :
    s.procStep = .next (s.skinitResume ph) := by
  simp [State.procStep, hcur, State.onProc, State.proc?, State.midSkinit, hph]

/-- A turn of the BSP is one step of SKINIT alone, where another move waits or no step is left. -/
theorem step_of_skinit_turn {s : State} {ph : SkinitPhase} {rest : List Move} (hcur : s.cur = .bsp) (hph : s.skinit = some ph)
    (h : rest ≠ [] ∨ (s.skinitStep ph).skinit = none) :
    step { s with agenda := .proc .bsp :: rest } = .next { s.skinitStep ph with agenda := rest } := by
  have hnamed : ({ s with agenda := rest, cur := .bsp } : State) = { s with agenda := rest } := by rw [← hcur]
  have hturn : step { s with agenda := .proc .bsp :: rest } = ({ s with agenda := rest, cur := .bsp } : State).procStep := rfl
  rw [hturn, hnamed, State.procStep_of_skinit (s := { s with agenda := rest }) hcur hph, State.skinitResume, State.skinitStep_agenda]
  rcases h with h | h
  · rw [State.skinitRun_of_agenda (s := { s.skinitStep ph with agenda := rest }) h]
  · rw [State.skinitRun_of_done (s := { s.skinitStep ph with agenda := rest }) h]

/-- As many turns of the BSP as steps are left end where those steps end that follow one another. -/
theorem core_run_skinit_turns (n : Nat) : ∀ s : State, s.cur = .bsp → s.agenda = [] → s.skinitLeft = n →
    Sys2Proof.core.run n { s with agenda := List.replicate n (.proc .bsp) } = .next (s.skinitRun n) := by
  induction n with
  | zero =>
    intro s _ ha _
    rw [List.replicate_zero, ← ha]
    rfl
  | succ n ih =>
    intro s hcur ha hleft
    obtain ⟨ph, hph, hleft'⟩ := State.skinit_of_left_succ hleft
    have hkept := s.skinitStep_of ph
    have hlast : List.replicate n (Move.proc .bsp) ≠ [] ∨ (s.skinitStep ph).skinit = none := by
      cases n with
      | zero => exact .inr (State.skinit_of_left_zero hleft')
      | succ n => exact .inl (by simp)
    rw [List.replicate_succ, core_run_succ (step_of_skinit_turn hcur hph hlast), State.skinitRun_succ hph ha]
    exact ih (s.skinitStep ph) (hkept.cur.trans hcur) (hkept.agenda.trans ha) hleft'

/-- Settles O27: step 1 leaves seven steps, and yields to the agenda. -/
theorem skinitStepwiseEqualsWhole : Obligations.SkinitStepwiseEqualsWhole := by
  intro s t u hs ha ht hu
  obtain ⟨-, -, -, -, rfl⟩ := execSkinit_eq_next.1 ht
  obtain ⟨-, -, -, -, rfl⟩ := execSkinit_eq_next.1 hu
  rw [State.skinitRun_of_agenda (s := State.skinitStep1 { s with agenda := _ }) (by simp [State.skinitStep1])]
  exact ⟨rfl, core_run_skinit_turns 7 s.skinitStep1 hs.1 ha rfl⟩

/-- A delivery of an event that may not be delivered changes nothing (R118). -/
theorem State.deliver_of_not_deliverable {s : State} {q : ProcId} {p : Proc} {e : Event} (hp : s.proc? q = some p)
    (h : s.deliverable q p e = false) : s.deliver q e = .next s := by
  simp [State.deliver, State.onProc_of_some hp, h]

/-- Settles O28: an assertion only adds to the held set, and between two steps there is no instruction boundary. -/
theorem nothingDeliveredDuringSkinit : Obligations.NothingDeliveredDuringSkinit := by
  intro s ph e rest hph
  refine ⟨fun ha => step_of_cons ha, fun ha => ?_⟩
  have hb : ({ s with agenda := rest } : State).atBoundary .bsp s.bsp = false :=
    State.atBoundary_bsp_of_midSkinit (s := { s with agenda := rest }) (by simp [hph]) s.bsp
  exact (step_of_cons ha).trans (State.deliver_of_not_deliverable rfl (State.not_deliverable_of_boundary e hb))

/-- Settles O26: the tests of SKINIT, in their order (R82, D7). -/
theorem skinitRefusedOutsideItsUse : Obligations.SkinitRefusedOutsideItsUse := by
  refine ⟨fun s i hcur => ?_, fun s n hcur hctx => ?_, fun s hcur hctx hpe => ?_, fun s hcur hctx hpe hpriv => ?_⟩
  · simp [exec, execSkinit, hcur]
  · simp [exec, execSkinit, hcur, hctx, Context.isGuest]
  · simp [exec, execSkinit, hcur, hctx, Context.isGuest, hpe]
  · simp [exec, execSkinit, hcur, hctx, Context.isGuest, hpe, hpriv]

end Sys2Proof.Machine
end

section
/-! The state SKINIT ends in (R84, R88 to R108), nobody else moving: computed once from its eight steps, and read field by field. -/

namespace Sys2Proof.Machine

/-- Settles O15: step 1 and the seven that follow it (`State.skinitRun_whole`), one after the other. -/
theorem skinitCompletesInEndState : Obligations.SkinitCompletesInEndState := by
  intro s hs ha
  rw [exec_skinit_of_allowed hs, State.skinitRun_whole ha]
  simp only [State.skinitStep1, State.skinitStep2, State.skinitStep3, State.skinitStep4, State.skinitStep5, State.skinitStep6,
    State.skinitStep7, State.skinitStep8, Proc.skinit1, Regs.skinit1]
  rfl

/-! ### Processor -/

theorem toNat_slbBase_le (a : Word) : (slbBase a).toNat ≤ 0xFFFF0000 := by
  have := a.isLt
  rw [toNat_slbBase]
  omega

/-- A 16-bit word added to the base carries nothing out of 32 bits. -/
theorem toNat_slbBase_add (a : Word) (w : Half) : (slbBase a + w.setWidth 32).toNat = (slbBase a).toNat + w.toNat := by
  have := toNat_slbBase_le a
  have := w.isLt
  rw [BitVec.toNat_add, BitVec.toNat_setWidth]
  omega

/-- Bits 31:16 are the operand's, bits 15:0 are zero (R95). -/
theorem slbBase_halves (a : Word) :
    (slbBase a).extractLsb' 16 16 = a.extractLsb' 16 16 ∧ (slbBase a).extractLsb' 0 16 = 0#16 := by
  have := a.isLt
  constructor <;> apply BitVec.eq_of_toNat_eq <;>
    simp only [BitVec.extractLsb'_toNat, toNat_slbBase, Nat.shiftRight_eq_div_pow, BitVec.toNat_ofNat] <;> omega

/-- Settles O16. -/
theorem skinitGeneralRegisters : Obligations.SkinitGeneralRegisters := by
  intro s hs ha
  obtain ⟨hhigh, hlow⟩ := slbBase_halves s.bsp.x.eax
  exact ⟨_, skinitCompletesInEndState s hs ha, rfl, rfl, rfl, rfl, rfl, rfl, hhigh, hlow, toNat_slbBase_le _⟩

/-- Settles O17. -/
theorem skinitEntersFlatProtectedMode : Obligations.SkinitEntersFlatProtectedMode := fun s hs ha =>
  ⟨_, skinitCompletesInEndState s hs ha, rfl, rfl, rfl, rfl, rfl, rfl, rfl, rfl, rfl, rfl, rfl, rfl, rfl, rfl⟩

/-- Settles O19. -/
theorem skinitWritesEferAndVmCr : Obligations.SkinitWritesEferAndVmCr := fun s hs ha =>
  ⟨_, skinitCompletesInEndState s hs ha, by simp [Efer.clear], rfl, rfl, rfl, rfl, rfl⟩

/-- Settles O23. -/
theorem skinitSetsStackAndEntryPoint : Obligations.SkinitSetsStackAndEntryPoint := fun s hs ha =>
  ⟨_, skinitCompletesInEndState s hs ha, rfl, BitVec.toNat_add _ _,
    (toNat_slbBase_add _ _).trans (congrArg (_ + ·) (s.mem.toNat_read16 _))⟩

/-- Settles O24. -/
theorem skinitClearsGifKeepsPending : Obligations.SkinitClearsGifKeepsPending := fun s hs ha =>
  ⟨_, skinitCompletesInEndState s hs ha, rfl, rfl, rfl, fun e _ =>
    State.deliver_of_not_deliverable rfl (State.not_deliverable_of_gif _ .bsp e rfl)⟩

/-! ### Platform -/

/-- Settles O20. -/
theorem skinitProtectsSlbEverywhere : Obligations.SkinitProtectsSlbEverywhere := by
  intro s hs ha
  refine ⟨_, skinitCompletesInEndState s hs ha, List.length_map _, fun m hm => ?_, rfl⟩
  obtain ⟨_, _, rfl⟩ := List.mem_map.1 hm
  exact ⟨rfl, rfl⟩

/-- Settles O22. -/
theorem skinitTransmitsImage : Obligations.SkinitTransmitsImage := by
  intro s hs ha
  refine ⟨_, skinitCompletesInEndState s hs ha, ?_, fun k hk => ?_⟩
  · exact (length_readBytes ..).trans (s.mem.toNat_read16 _)
  · simp [Memory.readBytes]

/-! ### The handshake (R97; log 13) -/

section
variable {s : State} {kept : Bool}

theorem State.handshake_of_alone (h : s.aps = []) : s.handshake kept = true := by
  simp [State.handshake, h]

theorem State.handshake_iff_of_kept (h : s.aps ≠ []) (hk : kept = true) : s.handshake kept = true ↔ s.apsHalted := by
  simp [State.handshake, h, hk, State.apsHalted, Proc.isInitHalted]

theorem State.handshake_of_not_kept (h : s.aps ≠ []) (hk : kept = false) : s.handshake kept = Config.freeBool s.draws := by
  simp [State.handshake, h, hk]

end

/-- Settles O21: what the TPM is told is the handshake after step 2. -/
theorem skinitHandshakeReachesTpm : Obligations.SkinitHandshakeReachesTpm := by
  intro s hs ha
  let kept := s.bsp.delayKept s.params
  let s2 := s.skinitStep1.skinitStep2 kept
  exact ⟨_, skinitCompletesInEndState s hs ha, rfl, rfl, State.handshake_of_alone (s := s2) (kept := kept),
    State.handshake_iff_of_kept (s := s2), State.handshake_of_not_kept (s := s2),
    congrArg (Config.tpmVerdict · _), congrArg (Config.tpmVerdict · _)⟩

end Sys2Proof.Machine
end

section
/-! What SKINIT leaves as it was (R91, R108), and that it honours no debug trap (R86, R173). -/

namespace Sys2Proof.Machine

/-! ### Frame -/

/-- Settles O25: what every step keeps (`execSkinit_of`), and of the APIC what step 1 makes of it (`State.skinitRun_timer`). -/
theorem skinitFrame : Obligations.SkinitFrame := by
  intro s t h
  have hof := execSkinit_of h
  obtain ⟨-, hctx, -, -, rfl⟩ := execSkinit_eq_next.1 h
  obtain ⟨hbusy, hsince⟩ := s.skinitStep1.skinitRun_timer 7
  generalize s.skinitStep1.skinitRun 7 = t at hof hbusy hsince
  have hhost : t.bsp.ctx = s.bsp.ctx := hof.bsp.ctx.elim id fun e => e.trans hctx.symm
  refine ⟨fun a => by rw [hof.mem], hof.aps, hof.params, hof.cur, hof.ipis, hof.device, hof.lastRead, hof.agenda, hof.bsp.fpctl,
    hof.bsp.pending, hof.bsp.other, hof.bsp.eferWidth, hbusy, ?_, hhost, hof.bsp.a20m, hof.bsp.excs⟩
  rw [hsince, hbusy]
  rfl

/-! ### Debug traps (R86, R173) -/

/-- The fetch leaves SKINIT within its use. -/
theorem State.skinitAllowed_fetched {s : State} (h : s.skinitAllowed) (n : Nat) : (s.fetched s.bsp n).skinitAllowed := by
  obtain ⟨hcur, hctx, hpe, hpriv⟩ := h
  obtain ⟨pc, d, he⟩ := State.fetched_eq (s := s) (p := s.bsp) (by rw [hcur]; rfl) n
  rw [he, hcur]
  exact ⟨rfl, hctx, hpe, hpriv⟩

/-- Settles O6: the step is `exec` after the fetch (`State.execTraced_skinit`), and ends as `skinitCompletesInEndState` says. -/
theorem skinitHonoursNoDebugTrap : Obligations.SkinitHonoursNoDebugTrap := by
  intro s n hs ha hk hr hf
  have ⟨hcur, hctx, _, _⟩ := hs
  have hp : s.proc? s.cur = some s.bsp := by rw [hcur]; rfl
  have hm : s.midSkinit s.cur = false := by simp [hcur, State.midSkinit, hk]
  have hn : s.bsp.nestedUnsupported s.params = false := by simp [Proc.nestedUnsupported, hctx]
  have hof := State.fetched_of hcur n
  have hexec := skinitCompletesInEndState _ (State.skinitAllowed_fetched hs n) (hof.agenda.trans ha)
  exact ⟨_, (step_of_fetch ha hm hp hr hn hf).trans hexec, hexec, hof.bsp.excs, hof.mem, rfl, rfl⟩

end Sys2Proof.Machine
end

section
/-! The TPM (R35, R42, R99, R101; D24): SKINIT alone reaches it, and nothing depends on what it holds, for every operation of the machine
commutes with putting other contents in it, but that SKINIT's own steps write it. -/

namespace Sys2Proof.Machine

/-! ### Who reaches the TPM -/

theorem MoveEffect.tpm_eq {s t : State} {m : Move} (h : MoveEffect s m t) : t.tpm = s.tpm := by
  cases h with
  | proc => simp
  | reset => simp [State.resetAt]
  | retired | cleared | device => rfl

theorem TransitionEffect.tpm_eq_or_skinit {s t : State} (h : TransitionEffect s t) :
    t.tpm = s.tpm ∨ s.cur = .bsp ∧ s.skinitNext := by
  cases h with
  | idle => exact .inl rfl
  | proc => exact .inl (by simp)
  | skinit _ hcur hs => exact .inr ⟨hcur, hs⟩

/-- Settles O31: of the effects of a step, SKINIT alone writes the TPM. -/
theorem onlySkinitReachesTpm : Obligations.OnlySkinitReachesTpm := by
  intro s t h hne
  cases step_effect h with
  | move m rest _ _ he => exact absurd he.tpm_eq hne
  | turn ha he =>
    obtain ⟨hcur, hs⟩ := he.tpm_eq_or_skinit.resolve_left hne
    exact ⟨.inl ⟨ha, hcur⟩, hs⟩
  | named q p rest ha _ he =>
    obtain ⟨hcur, hs⟩ := he.tpm_eq_or_skinit.resolve_left hne
    exact ⟨.inr ⟨rest, hcur ▸ ha⟩, hs⟩

/-! ### Other contents in the TPM -/

/-- The state with other contents in the TPM: what `Obligations.NothingDependsOnTpm` compares a state with. -/
def State.withTpm (s : State) (u : Tpm) : State := { s with tpm := u }

/-! ### What reads the state does not see the TPM -/

section
variable (s : State) (u : Tpm)

@[simp] theorem State.withTpm_params : (s.withTpm u).params = s.params := rfl
@[simp] theorem State.withTpm_cur : (s.withTpm u).cur = s.cur := rfl
@[simp] theorem State.withTpm_mem : (s.withTpm u).mem = s.mem := rfl
@[simp] theorem State.withTpm_mcs : (s.withTpm u).mcs = s.mcs := rfl
@[simp] theorem State.withTpm_skinit : (s.withTpm u).skinit = s.skinit := rfl
@[simp] theorem State.withTpm_ipis : (s.withTpm u).ipis = s.ipis := rfl
@[simp] theorem State.withTpm_draws : (s.withTpm u).draws = s.draws := rfl

@[simp] theorem State.proc?_withTpm (q : ProcId) : (s.withTpm u).proc? q = s.proc? q := by
  cases q <;> rfl

@[simp] theorem State.midSkinit_withTpm (q : ProcId) : (s.withTpm u).midSkinit q = s.midSkinit q := by
  cases q <;> rfl

@[simp] theorem State.atBoundary_withTpm (q : ProcId) (p : Proc) : (s.withTpm u).atBoundary q p = s.atBoundary q p := by
  cases q <;> rfl

@[simp] theorem State.deliverable_withTpm (q : ProcId) (p : Proc) (e : Event) :
    (s.withTpm u).deliverable q p e = s.deliverable q p e := by
  simp [State.deliverable]

@[simp] theorem State.withoutHeldAt_withTpm (q : ProcId) : (s.withTpm u).withoutHeldAt q = s.withoutHeldAt q := rfl

/-! ### What writes the state keeps it -/

@[simp] theorem State.setProc_withTpm (q : ProcId) (p : Proc) : (s.withTpm u).setProc q p = (s.setProc q p).withTpm u := by
  cases q <;> rfl

@[simp] theorem State.retire_withTpm (l : List Ipi) : (s.withTpm u).retire l = (s.retire l).withTpm u := rfl

@[simp] theorem State.push_withTpm (l : List Host.Cell) : (s.withTpm u).push l = (s.push l).withTpm u := rfl

@[simp] theorem State.walked_withTpm (p : Proc) : (s.withTpm u).walked p = (s.walked p).withTpm u := rfl

@[simp] theorem State.raise_withTpm (q : ProcId) (p : Proc) (e : ExcRecord) :
    (s.withTpm u).raise q p e = (s.raise q p e).withTpm u := by
  simp [State.raise]

@[simp] theorem State.deliverEvent_withTpm (q : ProcId) (p : Proc) (e : Event) :
    (s.withTpm u).deliverEvent q p e = (s.deliverEvent q p e).withTpm u := by
  simp [State.deliverEvent]

@[simp] theorem State.returnFromExc_withTpm (q : ProcId) (p : Proc) :
    (s.withTpm u).returnFromExc q p = (s.returnFromExc q p).withTpm u := by
  cases h : p.excs <;> simp [State.returnFromExc, h]

@[simp] theorem State.resetAt_withTpm (q : ProcId) (p : Proc) : (s.withTpm u).resetAt q p = (s.resetAt q p).withTpm u := by
  cases q <;> rfl

@[simp] theorem State.pastPrefix_withTpm (p : Proc) (n : Nat) :
    (s.withTpm u).pastPrefix p n = (s.pastPrefix p n).withTpm u := by
  unfold State.pastPrefix
  split
  · rfl
  · simp

end

/-! ### Outcomes that differ in the TPM alone -/

/-- `r'` is `r` in everything but what the TPM holds, fault and refusal included. -/
def SameButTpm (r r' : Result) : Prop := ∃ v : Tpm, r' = mapNext (·.withTpm v) r

theorem SameButTpm.next (t : State) (v : Tpm) : SameButTpm (.next t) (.next (t.withTpm v)) := ⟨v, rfl⟩

theorem SameButTpm.fault (e : Fault) : SameButTpm (.fault e) (.fault e) := ⟨default, rfl⟩

theorem SameButTpm.refused (e : Refusal) : SameButTpm (.refused e) (.refused e) := ⟨default, rfl⟩

/-- A test that does not see the TPM. -/
theorem SameButTpm.ite {c c' : Bool} {r₁ r₁' r₂ r₂' : Result} (hc : c' = c) (h₁ : SameButTpm r₁ r₁') (h₂ : SameButTpm r₂ r₂') :
    SameButTpm (if c then r₁ else r₂) (if c' then r₁' else r₂') := by
  subst hc
  cases c'
  · exact h₂
  · exact h₁

/-- Two next states are equal but for the TPM where the second is the first with other contents in it. -/
theorem SameButTpm.of_eq {t t' : State} {v : Tpm} (h : t' = t.withTpm v) : SameButTpm (.next t) (.next t') := h ▸ .next t v

section
variable {s : State} {u : Tpm}

theorem State.onProc_sameButTpm {q : ProcId} {f f' : Proc → Result} (h : ∀ p, SameButTpm (f p) (f' p)) :
    SameButTpm (s.onProc q f) ((s.withTpm u).onProc q f') := by
  simp only [State.onProc, State.proc?_withTpm]
  cases s.proc? q with
  | none => exact .fault _
  | some p => exact h p

theorem State.bySoftware_sameButTpm {q : ProcId} {f f' : Proc → Result} (h : ∀ p, SameButTpm (f p) (f' p)) :
    SameButTpm (s.bySoftware q f) ((s.withTpm u).bySoftware q f') :=
  State.onProc_sameButTpm fun p => .ite (s.atBoundary_withTpm u q p) (.ite rfl (.refused _) (h p)) (.next s u)

/-- A test between two next states. -/
theorem SameButTpm.next_ite {c : Bool} {t₁ t₁' t₂ t₂' : State} (h₁ : t₁' = t₁.withTpm u) (h₂ : t₂' = t₂.withTpm u) :
    SameButTpm (.next (if c then t₁ else t₂)) (.next (if c then t₁' else t₂')) := by
  cases c
  · exact .of_eq h₂
  · exact .of_eq h₁

/-! ### Moves -/

theorem State.takeInit_sameButTpm (q : ProcId) (p : Proc) (src : InitSource) (after : List Ipi) :
    SameButTpm (s.takeInit q p src after) ((s.withTpm u).takeInit q p src after) := by
  refine .ite rfl (.refused _) (.ite rfl (.of_eq (State.raise_withTpm (s.retire after) u ..)) ?_)
  cases src with
  | signal | ipi => exact .of_eq (State.setProc_withTpm (s.retire after) u ..)

theorem State.deliverGated_sameButTpm (q : ProcId) (p : Proc) (e : Event) :
    SameButTpm (s.deliverGated q p e) ((s.withTpm u).deliverGated q p e) :=
  .ite rfl (.refused _) (.of_eq (State.deliverEvent_withTpm ..))

theorem State.deliver_sameButTpm (q : ProcId) (e : Event) : SameButTpm (s.deliver q e) ((s.withTpm u).deliver q e) := by
  refine State.onProc_sameButTpm fun p => .ite (s.deliverable_withTpm u q p e) ?_ (.next s u)
  cases e with
  | device | nmi | smi => exact State.deliverGated_sameButTpm q p _
  | init src => exact State.takeInit_sameButTpm q p src _

theorem State.accessMove_sameButTpm (q : ProcId) (store : Bool) (r : DataRef) (n : Nat) {f : State → List Nat → State}
    (hf : ∀ t l, f (t.withTpm u) l = (f t l).withTpm u) :
    SameButTpm (s.accessMove q store r n f) ((s.withTpm u).accessMove q store r n f) := by
  refine State.bySoftware_sameButTpm fun p => ?_
  simp only [State.withTpm_params, State.withTpm_mem, State.withTpm_draws, State.walked_withTpm, State.raise_withTpm, hf]
  cases p.accessAddrs s.params s.mem s.draws store r n with
  | violation => exact .refused _
  | signalled pdpe => exact .next _ u
  | addrs l => exact .ite rfl (.next_ite rfl rfl) (.fault _)

theorem State.memWriteMove_sameButTpm (q : ProcId) (r : DataRef) (n v : Nat) :
    SameButTpm (s.memWriteMove q r n v) ((s.withTpm u).memWriteMove q r n v) :=
  State.accessMove_sameButTpm q true r n fun _ _ => rfl

theorem State.memReadMove_sameButTpm (q : ProcId) (r : DataRef) (n : Nat) :
    SameButTpm (s.memReadMove q r n) ((s.withTpm u).memReadMove q r n) :=
  State.accessMove_sameButTpm q false r n fun _ _ => rfl

theorem State.acceptInitIpi_sameButTpm (k : Nat) : SameButTpm (s.acceptInitIpi k) ((s.withTpm u).acceptInitIpi k) := by
  simp only [State.acceptInitIpi, State.withTpm_ipis, State.proc?_withTpm]
  cases s.ipis[k]? with
  | none => exact .next s u
  | some i =>
    cases hp : s.proc? i.target with
    | none => simpa only [hp] using .next (s.retire _) u
    | some p =>
      simp only [hp]
      exact .ite (by rw [State.atBoundary_withTpm]) (State.takeInit_sameButTpm i.target p .ipi _)
        (.of_eq (State.setProc_withTpm { s with ipis := holdAt k i s.ipis } u _ _))

theorem State.devRead_sameButTpm (m a n : Nat) : SameButTpm (s.devRead m a n) ((s.withTpm u).devRead m a n) := by
  simp only [State.devRead, State.withTpm_mcs]
  cases s.mcs[m]? with
  | none => exact .fault _
  | some c => exact .ite rfl (.fault _) (.ite rfl (.next _ u) (.next _ u))

theorem State.devWrite_sameButTpm (m a n v : Nat) : SameButTpm (s.devWrite m a n v) ((s.withTpm u).devWrite m a n v) := by
  simp only [State.devWrite, State.withTpm_mcs]
  cases s.mcs[m]? with
  | none => exact .fault _
  | some c => exact .ite rfl (.fault _) (.ite rfl (.next _ u) (.next _ u))

/-! ### A processor's own transition -/

theorem execCpuid_sameButTpm : SameButTpm (execCpuid s) (execCpuid (s.withTpm u)) :=
  State.onProc_sameButTpm (q := s.cur) fun _ => .of_eq (State.setProc_withTpm { s with draws := s.draws + 1 } u _ _)

/-- Steps 4 and 5 alone write the TPM, and no other step reads it. -/
theorem State.skinitStep_withTpm (s : State) (u : Tpm) (ph : SkinitPhase) :
    ∃ v, (s.withTpm u).skinitStep ph = (s.skinitStep ph).withTpm v := by
  cases ph with
  | step4 | step5 => exact ⟨_, rfl⟩
  | step2 | step3 | step6 | step7 | step8 => exact ⟨u, rfl⟩

theorem State.skinitRun_withTpm (n : Nat) : ∀ (s : State) (u : Tpm), ∃ v, (s.withTpm u).skinitRun n = (s.skinitRun n).withTpm v := by
  induction n with
  | zero => exact fun _ u => ⟨u, rfl⟩
  | succ n ih =>
    intro s u
    by_cases ha : s.agenda = []
    · cases hph : s.skinit with
      | none => exact ⟨u, by rw [State.skinitRun_of_done hph, State.skinitRun_of_done (s := s.withTpm u) hph]⟩
      | some ph =>
        obtain ⟨v, hv⟩ := s.skinitStep_withTpm u ph
        obtain ⟨w, hw⟩ := ih (s.skinitStep ph) v
        exact ⟨w, by rw [State.skinitRun_succ hph ha, State.skinitRun_succ (s := s.withTpm u) hph ha, hv, hw]⟩
    · exact ⟨u, by rw [State.skinitRun_of_agenda ha, State.skinitRun_of_agenda (s := s.withTpm u) ha]⟩

theorem execSkinit_sameButTpm : SameButTpm (execSkinit s) (execSkinit (s.withTpm u)) := by
  obtain ⟨v, hv⟩ := State.skinitRun_withTpm 7 s.skinitStep1 u
  simp only [execSkinit, State.withTpm_cur]
  cases s.cur with
  | ap => exact .refused _
  | bsp => exact .ite rfl (.refused _) (.ite rfl (.refused _) (.ite rfl (.refused _) (.of_eq hv)))

theorem exec_sameButTpm (i : Instr) : SameButTpm (exec i s) (exec i (s.withTpm u)) :=
  match i with
  | .skinit => execSkinit_sameButTpm
  | .cpuid => execCpuid_sameButTpm

theorem State.skinitResume_sameButTpm (ph : SkinitPhase) :
    SameButTpm (.next (s.skinitResume ph)) (.next ((s.withTpm u).skinitResume ph)) := by
  obtain ⟨v, hv⟩ := s.skinitStep_withTpm u ph
  obtain ⟨w, hw⟩ := State.skinitRun_withTpm 7 (s.skinitStep ph) v
  exact .of_eq (by rw [State.skinitResume, hv, hw, State.skinitResume])

theorem State.execTraced_sameButTpm (p : Proc) (i : Instr) (n : Nat) :
    SameButTpm (s.execTraced p i n) ((s.withTpm u).execTraced p i n) := by
  obtain ⟨v, hv⟩ := exec_sameButTpm (s := s.pastPrefix p n) (u := u) i
  simp only [State.execTraced, State.pastPrefix_withTpm, State.withTpm_cur, hv]
  refine .ite rfl ⟨v, rfl⟩ (.ite rfl (.of_eq (State.raise_withTpm ..)) ?_)
  cases exec i (s.pastPrefix p n) with
  | fault e => exact .fault e
  | refused e => exact .refused e
  | next t => exact .ite rfl (State.onProc_sameButTpm fun _ => .of_eq (State.raise_withTpm ..)) (.next t v)

theorem State.runInstr_sameButTpm (p : Proc) : SameButTpm (s.runInstr p) ((s.withTpm u).runInstr p) := by
  refine .ite rfl (.refused _) ?_
  simp only [State.withTpm_params, State.withTpm_mem, State.withTpm_draws]
  split
  · exact State.execTraced_sameButTpm (s := s.walked p) p _ _
  · exact .of_eq (State.raise_withTpm (s.walked p) u _ _ _)
  · exact .refused _

theorem State.procStep_sameButTpm : SameButTpm s.procStep (s.withTpm u).procStep := by
  refine State.onProc_sameButTpm fun p => ?_
  simp only [State.withTpm_cur, State.withTpm_skinit, State.midSkinit_withTpm]
  split
  · exact State.skinitResume_sameButTpm _
  · exact .ite rfl (State.runInstr_sameButTpm p) (.next s u)

/-! ### Every move -/

theorem State.doMove_sameButTpm (m : Move) : SameButTpm (s.doMove m) ((s.withTpm u).doMove m) := by
  cases m with
  | proc q => exact State.onProc_sameButTpm fun _ => State.procStep_sameButTpm (s := { s with cur := q })
  | deliver q e => exact State.deliver_sameButTpm q e
  | acceptInitIpi k => exact State.acceptInitIpi_sameButTpm k
  | memWrite q r n v => exact State.memWriteMove_sameButTpm q r n v
  | memRead q r n => exact State.memReadMove_sameButTpm q r n
  | devRead m a n => exact State.devRead_sameButTpm m a n
  | devWrite m a n v => exact State.devWrite_sameButTpm m a n v
  | reset q => exact State.onProc_sameButTpm fun _ => .of_eq (State.resetAt_withTpm ..)
  | assertEvent | driveA20m => exact State.onProc_sameButTpm fun _ => .of_eq (State.setProc_withTpm ..)
  | startupIpi q v =>
    exact State.onProc_sameButTpm fun _ => .ite (by rw [State.midSkinit_withTpm])
      (.of_eq (State.setProc_withTpm { s with draws := s.draws + 1 } u q _)) (.next s u)
  | shutdown | setGif | writeVmcr | loadGdtr | setPrivilege | writeGpr | writeFlags | writeEfer | setBreakpoints =>
    exact State.bySoftware_sameButTpm fun _ => .of_eq (State.setProc_withTpm ..)
  | setMode => exact State.bySoftware_sameButTpm fun _ => .ite rfl (.refused _) (.of_eq (State.setProc_withTpm ..))
  | returnExc => exact State.bySoftware_sameButTpm fun _ => .of_eq (State.returnFromExc_withTpm ..)
  | sendInitIpi q ts =>
    exact State.bySoftware_sameButTpm fun _ => .of_eq (State.setProc_withTpm { s with ipis := s.ipis ++ _ } u q _)
  | wait q n =>
    exact State.bySoftware_sameButTpm fun p => .next_ite rfl (State.setProc_withTpm ..)
  | clearSlDevEn q m =>
    refine State.bySoftware_sameButTpm fun p => ?_
    simp only [State.withTpm_mcs]
    cases s.mcs[m]? with
    | none => exact .fault _
    | some c => exact .next _ u
  | loadSeg q r sel =>
    refine State.bySoftware_sameButTpm fun p => ?_
    simp only [State.withTpm_mem]
    cases p.loadedSeg s.mem r sel with
    | none => exact .refused _
    | some g => exact .of_eq (State.setProc_withTpm ..)
  | writeCr3 q v =>
    refine State.bySoftware_sameButTpm fun p => .ite rfl (.of_eq (State.setProc_withTpm ..)) ?_
    simp only [State.withTpm_params, State.withTpm_mem]
    cases (p.pdpes s.params s.mem v).find? Config.pdpeIllegal with
    | none => exact .of_eq (State.setProc_withTpm ..)
    | some bad => exact .of_eq (State.raise_withTpm ..)
  | walkPdpe q i =>
    exact State.bySoftware_sameButTpm fun p => .ite rfl (.next s u) (.next_ite (State.raise_withTpm (s.walked p) u ..) rfl)

end

/-- Settles O30: a step is its first move or the executing processor's transition, and neither reads the TPM but to write it. -/
theorem nothingDependsOnTpm : Obligations.NothingDependsOnTpm := by
  intro s u
  show SameButTpm (step s) (step (s.withTpm u))
  cases ha : s.agenda with
  | nil =>
    rw [step_of_nil ha, step_of_nil (s := s.withTpm u) ha]
    exact State.procStep_sameButTpm
  | cons m rest =>
    rw [step_of_cons ha, step_of_cons (s := s.withTpm u) ha]
    exact State.doMove_sameButTpm (s := { s with agenda := rest }) m

end Sys2Proof.Machine
end

section
/-! What no step does (R30, R118 to R121, R123, R126, R133, R145), by the changes a step can make of a processor, as
`step_procChange` lists them: hardware sets no `GIF`, a held event is lost by no step with `GIF` clear, and away from an instruction
boundary a processor changes but for what it holds, its APIC's indication and its input `A20M` by three transitions alone. -/

namespace Sys2Proof.Machine

theorem Proc.Settled.gif_eq {p p0 : Proc} (h : p.Settled p0) : p0.gif = p.gif := by
  obtain rfl | rfl := h <;> rfl

/-- `GIF` gates every event (R118). -/
theorem Proc.gif_of_gateOpen {p : Proc} {e : Event} (h : p.gateOpen e = true) : p.gif = true := by
  cases e with
  | device v => exact (Bool.and_eq_true_iff.1 h).1
  | nmi | smi | init src => exact h

theorem State.nextMove_ne_of_not_nextMoveIs {s : State} {m : Move} (h : ¬ s.nextMoveIs m) : s.nextMove ≠ some m :=
  mt State.nextMoveIs_of_nextMove h

/-! ### Who sets `GIF` -/

theorem ProcChange.setter_of_gif {s : State} {m : Option Move} {q : ProcId} {p p' : Proc} (h : ProcChange s m q p p')
    (hoff : p.gif = false) (hon : p'.gif = true) : m = some (.setGif q) ∨ m = some (.reset q) := by
  have kept : p'.gif ≠ p.gif := by simp [hoff, hon]
  cases h with
  | gif hm => exact .inl hm
  | reset hm => exact .inr hm
  | startup v => simp [hoff] at hon
  | skinit _ _ _ _ hof => exact absurd (hof.gif hon) (by simp [hoff])
  | settled p0 hp0 | redirected _ _ p0 _ hp0 | initSignal p0 _ hp0 | initIpi p0 _ hp0 => exact absurd hp0.gif_eq kept
  | hold | a20m | event | raised | returned | shutdown | vmcr | busy | waited | segment | gdtr | mode | privilege | gpr | flags
  | efer | cr3 | breakpoints | cpuid | cpuidTraced => exact absurd rfl kept

/-- Settles O42, by the setters among the changes a step can make of a processor. -/
theorem gifSetOnlyBySoftwareOrReset : Obligations.GifSetOnlyBySoftwareOrReset := by
  intro s t q p p' h hp hp' hoff hon
  exact ((step_procChange h hp hp').setter_of_gif hoff hon).imp State.nextMoveIs_of_nextMove State.nextMoveIs_of_nextMove

/-! ### Who takes an event out of the held set -/

/-- With `GIF` clear no event is delivered and no INIT taken, so that RESET alone takes one out. -/
theorem ProcChange.has_of_gif_clear {s : State} {m : Option Move} {q : ProcId} {p p' : Proc} (h : ProcChange s m q p p')
    (hoff : p.gif = false) (hreset : m ≠ some (.reset q)) {e : Event} (he : p.pending.has e = true) : p'.pending.has e = true := by
  cases h with
  | reset hm => exact absurd hm hreset
  | event _ _ _ _ _ hg => exact absurd (Proc.gif_of_gateOpen hg) (by simp [hoff])
  | redirected _ _ _ _ _ _ hg | initSignal _ _ _ _ hg | initIpi _ _ _ _ hg => exact absurd hg (by simp [hoff])
  | hold e' => exact Pending.has_hold_of_has e' he
  | settled p0 hp0 => exact hp0.pending_eq ▸ he
  | startup v => simpa using he
  | skinit _ _ _ _ hof => exact hof.pending ▸ he
  | a20m | raised | returned | shutdown | gif | vmcr | busy | waited | segment | gdtr | mode | privilege | gpr | flags | efer
  | cr3 | breakpoints | cpuid | cpuidTraced => exact he

/-- Settles O36. -/
theorem heldEventsAreNotLost : Obligations.HeldEventsAreNotLost := by
  intro s t q p p' e h hp hp' hoff he hreset
  exact (step_procChange h hp hp').has_of_gif_clear hoff (State.nextMove_ne_of_not_nextMoveIs hreset) he

/-! ### A processor that is not running -/

/-- What a processor outside `Running` keeps whatever other agents do. -/
structure Proc.Undisturbed (p p' : Proc) : Prop where
  run : p'.run = p.run
  gif : p'.gif = p.gif
  x : p'.x = p.x
  pc : p'.pc = p.pc
  segs : p'.segs = p.segs
  msrs : p'.msrs = p.msrs
  held : ∀ e, p.pending.has e = true → p'.pending.has e = true

theorem Proc.Settled.undisturbed {p p0 : Proc} (h : p.Settled p0) : p.Undisturbed p0 := by
  obtain rfl | rfl := h <;> exact ⟨rfl, rfl, rfl, rfl, rfl, rfl, fun _ => id⟩

/-- Away from an instruction boundary three transitions alone make anything of a processor: RESET, a Startup IPI taken in the INIT
state, and SKINIT. -/
theorem ProcChange.undisturbed {s : State} {m : Option Move} {q : ProcId} {p p' : Proc} (h : ProcChange s m q p p')
    (hb : s.atBoundary q p = false) (hreset : m ≠ some (.reset q))
    (hstartup : p.run = .initHalted → ∀ v, m ≠ some (.startupIpi q v)) (hskinit : q = .bsp → ¬ s.skinitNext) :
    p.Undisturbed p' := by
  cases h with
  | settled p0 hp0 => exact hp0.undisturbed
  | hold e => exact ⟨rfl, rfl, rfl, rfl, rfl, rfl, fun _ => Pending.has_hold_of_has e⟩
  | a20m => exact ⟨rfl, rfl, rfl, rfl, rfl, rfl, fun _ => id⟩
  | reset hm => exact absurd hm hreset
  | startup v hm hr => exact absurd hm (hstartup hr v)
  | skinit _ hq _ hs => exact absurd hs (hskinit hq)
  | event _ _ _ hb' | redirected _ _ _ _ _ hb' | initSignal _ _ _ hb' | initIpi _ _ _ hb' | raised _ _ hb'
  | returned _ _ _ _ hb' | shutdown hb' | gif _ hb' | vmcr _ _ hb' | busy _ _ hb' | waited _ hb' | segment _ hb' | gdtr _ hb'
  | mode _ _ _ hb' | privilege _ hb' | gpr _ _ hb' | flags _ _ hb' | efer _ hb' | cr3 _ _ hb' | breakpoints _ hb' | cpuid _ _ hb'
  | cpuidTraced _ _ _ _ hb' => exact absurd hb' (Bool.eq_false_iff.1 hb)

/-- A BSP that is not running is neither in the middle of SKINIT (R85, log 27) nor about to execute it. -/
theorem State.Inv.not_skinitNext {s : State} (hs : s.Inv) (h : s.bsp.run ≠ .running) : ¬ s.skinitNext := by
  rintro (hmid | ⟨hrun, -⟩)
  · exact h (hs.skinitRunning hmid)
  · exact h (of_decide_eq_true hrun)

theorem State.not_atBoundary_of_not_running {p : Proc} (h : p.run ≠ .running) (s : State) (q : ProcId) :
    s.atBoundary q p = false := by
  simp [State.atBoundary, Proc.isRunning, h]

theorem step_undisturbed {s t : State} {q : ProcId} {p p' : Proc} (hs : s.Inv) (h : step s = .next t) (hp : s.proc? q = some p)
    (hp' : t.proc? q = some p') (hstop : p.run ≠ .running) (hreset : ¬ s.nextMoveIs (.reset q))
    (hstartup : p.run = .initHalted → ∀ v, ¬ s.nextMoveIs (.startupIpi q v)) : p.Undisturbed p' := by
  refine (step_procChange h hp hp').undisturbed (State.not_atBoundary_of_not_running hstop s q)
    (State.nextMove_ne_of_not_nextMoveIs hreset) (fun hr v => State.nextMove_ne_of_not_nextMoveIs (hstartup hr v)) ?_
  rintro rfl
  cases hp
  exact hs.not_skinitNext hstop

/-- Settles O44. -/
theorem shutdownLeftOnlyByReset : Obligations.ShutdownLeftOnlyByReset := by
  intro s t q p p' hs h hp hp' hrun hoff hreset
  have hkept := step_undisturbed hs h hp hp' (by simp [hrun]) hreset (by simp [hrun])
  exact ⟨hkept.run.trans hrun, hkept.gif.trans hoff, hkept.x, hkept.pc, hkept.segs, hkept.msrs⟩

/-- Settles O45. -/
theorem initStateLeftOnlyByStartupIpi : Obligations.InitStateLeftOnlyByStartupIpi := by
  intro s t q p p' hs h hp hp' hrun hstartup hreset
  have hkept := step_undisturbed hs h hp hp' (by simp [hrun]) hreset fun _ => hstartup
  exact ⟨hkept.run.trans hrun, hkept.x, hkept.pc, hkept.segs, hkept.msrs, hkept.held⟩

/-- Settles O8. -/
theorem haltedProcessorExecutesNothing : Obligations.HaltedProcessorExecutesNothing := by
  intro s p ha hm hp hstop
  rw [step_of_nil ha]
  simp [State.procStep, State.onProc_of_some hp, hm, Proc.isRunning, hstop]

end Sys2Proof.Machine
end

section
/-! Events and INIT (R110 to R115, R118, R119, R121, R130, R132; log 10, log 11, log 30): when a held event is delivered, what an INIT
that is due becomes, and what becomes of the INIT IPIs in flight and of their senders' busy indications. -/

namespace Sys2Proof.Machine

/-! ### Holding and delivering -/

/-- Settles O35: with `GIF` clear nothing is deliverable, and an assertion only adds to the held set. -/
theorem clearGifHoldsEvents : Obligations.ClearGifHoldsEvents := by
  intro s q p e rest hp hoff
  have hp' : ({ s with agenda := rest } : State).proc? q = some p := by simpa using hp
  refine ⟨fun ha => ?_, fun ha => ?_⟩
  · exact (step_of_cons ha).trans (State.deliver_of_not_deliverable hp' (State.not_deliverable_of_gif _ q e hoff))
  · have hstep : step s = .next (({ s with agenda := rest } : State).setProc q (p.hold e)) :=
      (step_of_cons ha).trans (State.onProc_of_some hp' _)
    exact ⟨_, p.hold e, hstep, State.proc?_setProc_of_some hp' _, Pending.has_hold_same _ e,
      fun _ => Pending.has_hold_of_has e, rfl, State.setProc_mem _ q _⟩

section
variable {s : State} {q : ProcId} {p : Proc} {rest : List Move} (hp : s.proc? q = some p) (hr : p.run = .running)
  (hm : s.midSkinit q = false)
include hr hm

theorem State.deliverable_agenda_of_due {e : Event} (hhas : p.pending.has e = true) (hgate : p.gateOpen e = true) :
    ({ s with agenda := rest } : State).deliverable q p e = true := by
  have hb : s.atBoundary q p = true := State.atBoundary_iff.2 ⟨hr, hm⟩
  simp [State.deliverable, hb, hhas, hgate]

include hp

/-- A delivery of a held event that is no INIT, behind an open gate, where nested paging, if it is used, is there (R119, R78). -/
theorem step_deliver_gated {e : Event} (ha : s.agenda = .deliver q e :: rest) (hhas : p.pending.has e = true)
    (hgate : p.gateOpen e = true) (hinit : ∀ src, e ≠ .init src) (hn : p.nestedUnsupported s.params = false) :
    step s = .next (({ s with agenda := rest } : State).deliverEvent q (p.drop e) e) := by
  rw [step_of_cons ha, State.doMove, State.deliver, State.onProc_agenda hp,
    if_pos (State.deliverable_agenda_of_due hr hm hhas hgate)]
  cases e with
  | device | nmi | smi => exact if_neg (by simp [hn])
  | init src => exact absurd rfl (hinit src)

/-- A delivery of a held INIT: it is taken, and with it the INIT IPIs held there are accepted (R115; log 30). -/
theorem step_deliver_init {src : InitSource} (ha : s.agenda = .deliver q (.init src) :: rest) (hg : p.gif = true)
    (hhas : p.pending.has (.init src) = true) :
    step s = ({ s with agenda := rest } : State).takeInit q p src (s.withoutHeldAt q) := by
  rw [step_of_cons ha, State.doMove, State.deliver, State.onProc_agenda hp,
    if_pos (State.deliverable_agenda_of_due hr hm hhas hg)]
  rfl

end

/-- Settles O37. -/
theorem deviceInterruptsGatedByIf : Obligations.DeviceInterruptsGatedByIf := by
  intro s q p rest hp hr hm hgif
  refine ⟨fun v ha hif => ?_, fun v ha hif hhas hn => ?_, fun ha hhas hn => ?_, fun ha hhas hn => ?_⟩
  · have hgate : ({ s with agenda := rest } : State).deliverable q p (.device v) = false := by
      simp [State.deliverable, Proc.gateOpen, hif]
    exact (step_of_cons ha).trans (State.deliver_of_not_deliverable (by simpa using hp) hgate)
  · exact step_deliver_gated hp hr hm ha hhas (by simp [Proc.gateOpen, hgif, hif]) nofun hn
  · exact step_deliver_gated hp hr hm ha hhas hgif nofun hn
  · exact step_deliver_gated hp hr hm ha hhas hgif nofun hn

/-! ### Taking an exception -/

@[simp] theorem State.raise_ipis (s : State) (q : ProcId) (p : Proc) (e : ExcRecord) : (s.raise q p e).ipis = s.ipis := by
  simp [State.raise]

theorem State.proc?_raise_other (s : State) {q q' : ProcId} (p : Proc) (e : ExcRecord) (h : q' ≠ q) :
    (s.raise q p e).proc? q' = s.proc? q' := by
  simp [State.raise, State.proc?_setProc_other _ _ h]

/-- Who takes an exception is delivered an image, and has its record first. -/
theorem State.proc?_raise_eq {s : State} {q : ProcId} {p : Proc} (hp : s.proc? q = some p) (p0 : Proc) (e : ExcRecord) :
    ∃ d, (s.raise q p0 e).proc? q = some { p0.delivered d with excs := e :: p0.excs } := by
  obtain ⟨d, cells, -, h⟩ := s.raise_eq q p0 e
  exact ⟨d, by rw [h, State.withProc_proc?, State.proc?_setProc_of_some hp]⟩

/-! ### A due INIT -/

theorem Proc.Settled.ctx_eq {p p0 : Proc} (h : p.Settled p0) : p0.ctx = p.ctx := by
  obtain rfl | rfl := h <;> rfl

theorem Proc.Settled.sxRecord_eq {p p0 : Proc} (h : p.Settled p0) : p0.sxRecord = p.sxRecord := by
  obtain rfl | rfl := h <;> rfl

theorem Proc.Settled.excs_eq {p p0 : Proc} (h : p.Settled p0) : p0.excs = p.excs := by
  obtain rfl | rfl := h <;> rfl

@[simp] theorem Proc.settle_gif (p : Proc) (before after : List Ipi) (q : ProcId) : (p.settle before after q).gif = p.gif :=
  (p.settled_settle before after q).gif_eq

@[simp] theorem Proc.settle_pending (p : Proc) (before after : List Ipi) (q : ProcId) :
    (p.settle before after q).pending = p.pending :=
  (p.settled_settle before after q).pending_eq

@[simp] theorem Proc.settle_msrs (p : Proc) (before after : List Ipi) (q : ProcId) : (p.settle before after q).msrs = p.msrs :=
  (p.settled_settle before after q).msrs_eq

@[simp] theorem Proc.settle_ctx (p : Proc) (before after : List Ipi) (q : ProcId) : (p.settle before after q).ctx = p.ctx :=
  (p.settled_settle before after q).ctx_eq

@[simp] theorem Proc.settle_excs (p : Proc) (before after : List Ipi) (q : ProcId) : (p.settle before after q).excs = p.excs :=
  (p.settled_settle before after q).excs_eq

@[simp] theorem Proc.settle_sxRecord (p : Proc) (before after : List Ipi) (q : ProcId) :
    (p.settle before after q).sxRecord = p.sxRecord :=
  (p.settled_settle before after q).sxRecord_eq

/-- A sender whose last INIT IPI in flight is accepted is no longer busy, and the wait of R166 starts (R132). -/
theorem Proc.settle_of_last {before after : List Ipi} {i : Ipi} (hi : i ∈ before) (h : ∀ j ∈ after, j.sender ≠ i.sender)
    (p : Proc) : p.settle before after i.sender = { p with apicBusy := false, sinceClear := some 0 } := by
  have hbefore : (before.any fun j => decide (j.sender = i.sender)) = true := List.any_eq_true.2 ⟨i, hi, by simp⟩
  have hafter : (after.any fun j => decide (j.sender = i.sender)) = false := by
    rw [List.any_eq_false]
    intro j hj
    simp [h j hj]
  simp [Proc.settle, hbefore, hafter]

/-- The processor that takes an INIT as such: re-initialised, and for the IPI form halted (R132, R152). -/
def Proc.takenAsInit (p : Proc) : InitSource → Proc
  | .signal => p.initState
  | .ipi => p.initHalt

section
variable {p : Proc} {src : InitSource}

theorem State.takeInit_of_guest {nested : Bool} (hctx : p.ctx = .guest nested) (s : State) (q : ProcId) (after : List Ipi) :
    s.takeInit q p src after = .refused .initInGuest := by
  simp [State.takeInit, State.deliverInit, hctx, Context.isGuest]

/-- With `R_INIT` set an INIT becomes `#SX` (R111 to R115). -/
theorem State.takeInit_of_redirected (hctx : p.ctx = .host) (hredirect : p.msrs.vmcr.rInit = true) (s : State) (q : ProcId)
    (after : List Ipi) :
    s.takeInit q p src after =
      .next ((s.retire after).raise q ((p.settle s.ipis after q).drop (.init src)) p.sxRecord) := by
  simp [State.takeInit, State.deliverInit, hctx, hredirect, Context.isGuest]

theorem State.takeInit_of_not_redirected (hctx : p.ctx = .host) (hredirect : p.msrs.vmcr.rInit = false) (s : State) (q : ProcId)
    (after : List Ipi) :
    s.takeInit q p src after =
      .next ((s.retire after).setProc q (((p.settle s.ipis after q).drop (.init src)).takenAsInit src)) := by
  cases src <;> simp [State.takeInit, State.deliverInit, hctx, hredirect, Context.isGuest, Proc.takenAsInit]

end

theorem State.retire_proc?_of_some {s : State} {q : ProcId} {p : Proc} (hp : s.proc? q = some p) (after : List Ipi) :
    (s.retire after).proc? q = some (p.settle s.ipis after q) := by
  simp [hp]

/-- Of an INIT outside a guest: its processor's change, the INIT IPIs still in flight, and that everybody else settles. -/
theorem State.takeInit_completes {s : State} {q : ProcId} {p : Proc} {src : InitSource} (hp : s.proc? q = some p)
    (hctx : p.ctx = .host) (after : List Ipi) :
    ∃ t p', s.takeInit q p src after = .next t ∧ t.proc? q = some p' ∧ t.ipis = after ∧
      (∀ q', q' ≠ q → t.proc? q' = (s.proc? q').map fun p1 => p1.settle s.ipis after q') ∧
      (p.msrs.vmcr.rInit = false → p' = ((p.settle s.ipis after q).drop (.init src)).takenAsInit src) ∧
      (p.msrs.vmcr.rInit = true → p'.excs = p.sxRecord :: p.excs) := by
  have hp0 := State.retire_proc?_of_some hp after
  cases hredirect : p.msrs.vmcr.rInit with
  | false =>
    exact ⟨_, _, State.takeInit_of_not_redirected hctx hredirect .., State.proc?_setProc_of_some hp0 _, State.setProc_ipis ..,
      fun q' hq' => (State.proc?_setProc_other _ _ hq').trans (s.retire_proc? after q'), fun _ => rfl, nofun⟩
  | true =>
    obtain ⟨d, hd⟩ := State.proc?_raise_eq hp0 ((p.settle s.ipis after q).drop (.init src)) p.sxRecord
    exact ⟨_, _, State.takeInit_of_redirected hctx hredirect .., hd, State.raise_ipis ..,
      fun q' hq' => (State.proc?_raise_other _ _ _ hq').trans (s.retire_proc? after q'), nofun, fun _ => by simp⟩

/-! ### An INIT IPI that reaches its target -/

section
variable {s : State} {k : Nat} {i : Ipi} {p : Proc} {rest : List Move} (ha : s.agenda = .acceptInitIpi k :: rest)
  (hi : s.ipis[k]? = some i) (hp : s.proc? i.target = some p)
include ha hi hp

theorem step_acceptInitIpi :
    step s =
      if ({ s with agenda := rest } : State).atBoundary i.target p && p.gif then
        ({ s with agenda := rest } : State).takeInit i.target p .ipi
          ((s.ipis.eraseIdx k).filter fun j => !(j.held && decide (j.target = i.target)))
      else .next (({ s with agenda := rest, ipis := holdAt k i s.ipis } : State).setProc i.target (p.hold (.init .ipi))) := by
  rw [step_of_cons ha]
  simp [State.doMove, State.acceptInitIpi, hi, hp, State.withoutHeldAt]

/-- Where an INIT is due it is taken, and the INIT IPIs held there are accepted with this one (R132; log 30). -/
theorem step_acceptInitIpi_of_due (hr : p.run = .running) (hm : s.midSkinit i.target = false) (hg : p.gif = true) :
    step s = ({ s with agenda := rest } : State).takeInit i.target p .ipi
      ((s.ipis.eraseIdx k).filter fun j => !(j.held && decide (j.target = i.target))) := by
  have hb : s.atBoundary i.target p = true := State.atBoundary_iff.2 ⟨hr, hm⟩
  rw [step_acceptInitIpi ha hi hp, if_pos (by simp [hb, hg])]

/-- Where none is due it is held there (R118, R121). -/
theorem step_acceptInitIpi_of_not_due (hstop : p.run ≠ .running ∨ s.midSkinit i.target = true ∨ p.gif = false) :
    step s = .next
      (({ s with agenda := rest, ipis := holdAt k i s.ipis } : State).setProc i.target (p.hold (.init .ipi))) := by
  rw [step_acceptInitIpi ha hi hp, if_neg]
  rw [State.atBoundary_agenda, Bool.and_eq_true, State.atBoundary_iff]
  rintro ⟨⟨hr, hm⟩, hg⟩
  simp [hr, hm, hg] at hstop

end

/-- Settles O39: `INIT_STATE` is what `State.takeInit_of_not_redirected` puts in, and every other processor settles (log 30). -/
theorem unredirectedInitReinitialises : Obligations.UnredirectedInitReinitialises := by
  intro s q p src rest ha hp hr hm hg hctx hhas hredirect p0
  have hstep := (step_deliver_init hp hr hm ha hg hhas).trans (State.takeInit_of_not_redirected hctx hredirect ..)
  have hp0 := State.retire_proc?_of_some (s := { s with agenda := rest }) (by simpa using hp) (s.withoutHeldAt q)
  refine ⟨_, _, hstep, State.proc?_setProc_of_some hp0 _, ?_, ?_, ?_, fun hnone => Proc.settle_of_forall_not_mem hnone p _,
    fun q' hq' => ?_, ?_, ?_⟩
  · cases src <;> simp [Proc.takenAsInit]
  · rintro rfl; rfl
  · rintro rfl; rfl
  · simp [State.proc?_setProc_other _ _ hq']
  · simp
  · simp

/-- Settles O40: a held INIT and one that arrives are taken in one place, which refuses a guest (`State.takeInit_of_guest`). -/
theorem initInGuestIsRefused : Obligations.InitInGuestIsRefused := by
  intro s q p n hp hr hm hg hctx
  refine ⟨fun src rest ha hhas => ?_, fun k i rest ha hi htarget => ?_⟩
  · exact (step_deliver_init hp hr hm ha hg hhas).trans (State.takeInit_of_guest hctx ..)
  · subst htarget
    exact (step_acceptInitIpi_of_due ha hi hp hr hm hg).trans (State.takeInit_of_guest hctx ..)

/-! ### `#SX` -/

@[simp] theorem Proc.startup_excs (p : Proc) (l : Bool) (v : Byte) (d : Nat) : (p.startup l v d).excs = p.excs := by
  cases l <;> rfl

/-- Of the changes a step can make of a processor, a redirected INIT alone records a vector 30 (R111). -/
theorem ProcChange.redirected_of_sx {s : State} {m : Option Move} {q : ProcId} {p p' : Proc} {e : ExcRecord}
    (h : ProcChange s m q p p') (hreset : m ≠ some (.reset q)) (hexcs : p'.excs = e :: p.excs) (hv : e.vector = 30) :
    s.takesInitBy m q p ∧ e = p.sxRecord ∧ p.msrs.vmcr.rInit = true ∧ p.gif = true ∧ s.atBoundary q p = true := by
  have kept : p'.excs ≠ p.excs := fun h => List.cons_ne_self e p.excs (hexcs.symm.trans h)
  cases h with
  | redirected src d p0 ht _ hb hg hr =>
    obtain ⟨rfl, -⟩ := List.cons.inj hexcs
    exact ⟨ht, rfl, hr, hg, hb⟩
  | raised _ _ _ he | cpuidTraced _ _ _ _ _ he =>
    obtain ⟨rfl, -⟩ := List.cons.inj hexcs
    exact absurd hv he
  | returned d e' l hl =>
    have hlength : l.length = (e :: p.excs).length := congrArg List.length hexcs
    rw [hl, List.length_cons, List.length_cons] at hlength
    omega
  | reset hm => exact absurd hm hreset
  | settled p0 hp0 | initSignal p0 _ hp0 | initIpi p0 _ hp0 => exact absurd hp0.excs_eq kept
  | startup v => exact absurd (p.startup_excs ..) kept
  | skinit _ _ _ _ hof => exact absurd hof.excs kept
  | hold | a20m | event | shutdown | gif | vmcr | busy | waited | segment | gdtr | mode | privilege | gpr | flags | efer | cr3
  | breakpoints | cpuid => exact absurd rfl kept

/-- Settles O38: what a due INIT becomes where `R_INIT` is set, and that no other change of a step is a `#SX`. -/
theorem redirectedInitRaisesSx : Obligations.RedirectedInitRaisesSx := by
  refine ⟨fun s q p src rest ha hp hr hm hg hctx hhas hredirect => ?_, fun s t q p p' e h hp hp' hexcs hv hreset => ?_⟩
  · have hstep := (step_deliver_init hp hr hm ha hg hhas).trans (State.takeInit_of_redirected hctx hredirect ..)
    have hp0 := State.retire_proc?_of_some (s := { s with agenda := rest }) (by simpa using hp) (s.withoutHeldAt q)
    obtain ⟨d, hd⟩ := State.proc?_raise_eq hp0 ((p.settle s.ipis (s.withoutHeldAt q) q).drop (.init src)) p.sxRecord
    refine ⟨_, _, hstep, hd, ?_, ?_, ?_, ?_, ?_⟩
    · simp [Proc.drop, Proc.sxRecord, sxVector]
    · simp [Proc.sxRecord, sxVector]
    · simp [Pending.has_drop_init]
    · simp [hg]
    · simp
  · obtain ⟨ht, he, hredirect, hg, hb⟩ :=
      (step_procChange h hp hp').redirected_of_sx (State.nextMove_ne_of_not_nextMoveIs hreset) hexcs hv
    exact ⟨State.takesInit_of_takesInitBy ht, he, hredirect, hg, (State.atBoundary_iff.1 hb).1⟩

/-! ### INIT IPIs and the busy indication -/

theorem State.proc?_agenda_ipis (s : State) (l : List Move) (l' : List Ipi) (q : ProcId) :
    ({ s with agenda := l, ipis := l' } : State).proc? q = s.proc? q := by
  cases q <;> rfl

/-- Settles O46, clause by clause: issue, acceptance, holding, and the count of R166 (`ProcChange.started`). -/
theorem initIpiAndBusyIndication : Obligations.InitIpiAndBusyIndication := by
  refine ⟨fun s q targets p rest ha hp hr hm hn htargets => ?_, fun s k i p p1 rest ha hi hp hp1 hr hm hg hctx => ?_,
    fun s k i p p1 rest ha hi hp hp1 hstop => ?_, fun s t q p p' h hp hp' => (step_procChange h hp hp').started⟩
  · have hstep := (step_of_cons ha).trans (State.bySoftware_agenda hp hr hm hn rest _)
    exact ⟨_, _, hstep, State.proc?_setProc_of_some ((s.proc?_agenda_ipis rest _ q).trans hp) _, by simp [htargets],
      State.setProc_ipis ..⟩
  · have hp1' : ({ s with agenda := rest } : State).proc? i.target = some p1 := by simpa using hp1
    obtain ⟨t, p1', ht, htarget, hipis, hothers, hinit, hsx⟩ := State.takeInit_completes (src := .ipi) hp1' hctx
      ((s.ipis.eraseIdx k).filter fun j => !(j.held && decide (j.target = i.target)))
    have hstep : step s = .next t := (step_acceptInitIpi_of_due ha hi hp1 hr hm hg).trans ht
    rw [← hipis] at hothers hinit
    by_cases hself : i.sender = i.target
    · exact ⟨t, p1', p1', hstep, hself ▸ htarget, htarget, hipis, hinit, hsx, fun hne => absurd hself hne,
        fun hne => absurd hself hne⟩
    · have hsender : t.proc? i.sender = some (p.settle s.ipis t.ipis i.sender) := by
        rw [hothers i.sender hself, State.proc?_agenda, hp]
        rfl
      exact ⟨t, _, p1', hstep, hsender, htarget, hipis, hinit, hsx,
        fun _ ⟨j, hj, hlast⟩ => Proc.settle_of_mem hj hlast p s.ipis,
        fun _ hlast => Proc.settle_of_last (List.mem_of_getElem? hi) hlast p⟩
  · have hstep := step_acceptInitIpi_of_not_due ha hi hp1 hstop
    have hproc := s.proc?_agenda_ipis rest (holdAt k i s.ipis)
    have htarget := State.proc?_setProc_of_some ((hproc i.target).trans hp1) (p1.hold (.init .ipi))
    have hheld := Pending.has_hold_same p1.pending (.init .ipi)
    by_cases hself : i.sender = i.target
    · obtain rfl : p = p1 := Option.some.inj (hp.symm.trans (hself ▸ hp1))
      exact ⟨_, p.hold _, p.hold _, hstep, by rw [hself]; exact htarget, htarget, State.setProc_ipis .., rfl, rfl, rfl, hheld⟩
    · have hsender := (State.proc?_setProc_other _ (p1.hold (.init .ipi)) hself).trans ((hproc i.sender).trans hp)
      exact ⟨_, _, _, hstep, hsender, htarget, State.setProc_ipis .., rfl, rfl, rfl, hheld⟩

end Sys2Proof.Machine
end

section
/-! The Startup IPI (R134 to R138; D17, D18): taken in the INIT state alone, it starts a processor at its page in real mode, and
secures it where the BSP has executed SKINIT. -/

namespace Sys2Proof.Machine

/-- The secure part of the answer touches `GIF` and `VM_CR` alone (R136). -/
theorem Proc.startup_eq (p : Proc) (latch : Bool) (v : Byte) (d : Nat) :
    p.startup latch v d =
      { p.ordinaryStartup v d with
        gif := p.gif && !latch
        msrs := { p.msrs with vmcr := if latch then p.msrs.vmcr.secured else p.msrs.vmcr } } := by
  cases latch
  · simp [Proc.startup, Proc.ordinaryStartup]
  · simp [Proc.startup, Proc.secureStartup, Proc.ordinaryStartup]

@[simp] theorem State.proc?_agenda_draws (s : State) (l : List Move) (d : Nat) (q : ProcId) :
    ({ s with agenda := l, draws := d } : State).proc? q = s.proc? q := by
  cases q <;> rfl

section
variable {s : State} {q : ProcId} {p : Proc} {v : Byte} {rest : List Move} (ha : s.agenda = .startupIpi q v :: rest)
  (hp : s.proc? q = some p)
include ha hp

/-- One that is taken: the processor answers it, on the next draw. -/
theorem step_startupIpi_of_initHalted (hr : p.run = .initHalted) (hm : s.midSkinit q = false) :
    step s = .next (({ s with agenda := rest, draws := s.draws + 1 } : State).setProc q (p.startup s.skinitLatch v s.draws)) := by
  rw [step_of_cons ha, State.doMove, State.startupIpi, State.onProc_agenda hp, if_pos (by simp [Proc.isInitHalted, hr, hm])]

theorem step_startupIpi_of_not_initHalted (hr : p.run ≠ .initHalted) : step s = .next { s with agenda := rest } := by
  rw [step_of_cons ha, State.doMove, State.startupIpi, State.onProc_agenda hp, if_neg (by simp [Proc.isInitHalted, hr])]

end

/-- Settles O49. -/
theorem startupIpiIgnoredElsewhere : Obligations.StartupIpiIgnoredElsewhere := fun _ _ _ _ _ ha hp hr =>
  step_startupIpi_of_not_initHalted ha hp hr

/-! ### The first fetch (R135, R57) -/

/-- A start page lies below 1 Mbyte, so A20 masking leaves its address as it is. -/
theorem maskA20_of_lt {a : Nat} (h : a < 2 ^ 20) : maskA20 a = a := by
  unfold maskA20
  omega

/-- In real mode, outside a guest, offset 0 of the start page is at the page's physical address whatever `A20M` says. -/
theorem Proc.physical_startPage {p : Proc} {v : Byte} (hpg : p.pg = false) (hctx : p.ctx = .host)
    (hcs : p.segs.cs = .startPage v) (hpc : p.pc = 0#32) (c : Params) (m : Memory) (d : Nat) :
    p.physical c m d (p.linear .cs p.pc) = v.toNat * 0x1000 := by
  have hu : p.untranslated = true := by simp [Proc.untranslated, hpg, hctx]
  have hlinear : p.linear .cs p.pc = startPhys v := by simp [Proc.linear, Proc.offset, Segs.get, hcs, hpc, Seg.startPage]
  have := v.isLt
  rw [Proc.physical_of_untranslated hu, hlinear, toNat_startPhys, maskA20_of_lt (by omega), ite_self]

/-- Settles O47. -/
theorem startupIpiStartsHaltedProcessor : Obligations.StartupIpiStartsHaltedProcessor := by
  intro s q p v rest ha hp hr hm
  have hp' : ({ s with agenda := rest, draws := s.draws + 1 } : State).proc? q = some p := by simpa using hp
  refine ⟨_, _, step_startupIpi_of_initHalted ha hp hr hm, State.proc?_setProc_of_some hp' _, ?_⟩
  rw [Proc.startup_eq]
  refine ⟨rfl, rfl, rfl, rfl, toNat_startPhys v, fun m d => Proc.physical_startPage rfl rfl rfl rfl _ m d, rfl, rfl, rfl, rfl, rfl,
    rfl, rfl, rfl, rfl, fun q' hq' => ?_, State.setProc_mem ..⟩
  rw [State.proc?_setProc_other _ _ hq', State.proc?_agenda_draws]

/-- Settles O48. -/
theorem startupIpiSecuresIffLatched : Obligations.StartupIpiSecuresIffLatched := by
  intro s q p v rest ha hp hr hm
  have hp' : ({ s with agenda := rest, draws := s.draws + 1 } : State).proc? q = some p := by simpa using hp
  refine ⟨_, _, step_startupIpi_of_initHalted ha hp hr hm, State.proc?_setProc_of_some hp' _, fun hlatch => ?_, fun hlatch => ?_, ?_,
    ?_, State.setProc_mcs .., State.setProc_tpm ..⟩
  · simp [hlatch, VmCr.secured]
  · simp [hlatch]
  · rw [Proc.startup_eq]
    rfl
  · rw [Proc.startup_eq]
    rfl

end Sys2Proof.Machine
end

section
/-! Software's actions on the events' state (R123, R127, R142, R143): `SetGIF`, a write of `VM_CR`, and the return from a handler. -/

namespace Sys2Proof.Machine

/-! ### `SetGIF` (R123) -/

/-- Settles O54. -/
theorem setGifSetsOnlyGif : Obligations.SetGifSetsOnlyGif := by
  intro s q p rest ha hp hr hm hn
  have hp' : ({ s with agenda := rest } : State).proc? q = some p := by simpa using hp
  have hstep := (step_of_cons ha).trans (State.bySoftware_agenda hp hr hm hn rest _)
  refine ⟨_, hstep, rfl, State.proc?_setProc_of_some hp' _, fun q' hq' => ?_⟩
  rw [State.proc?_setProc_other _ _ hq', State.proc?_agenda]

/-! ### A write of `VM_CR` (R24, R142, R143) -/

theorem VmCr.ofBits_zero (c : Params) : VmCr.ofBits c 0#64 = .clear := by
  simp [VmCr.ofBits, VmCr.clear]

theorem Proc.activeDebugFeatures_of_dpd {p : Proc} (h : p.msrs.vmcr.dpd = true) (c : Params) : p.activeDebugFeatures c = [] := by
  simp [Proc.activeDebugFeatures, Proc.debugEnabled, h]

theorem Proc.activeDebugFeatures_of_not_dpd {p : Proc} (h : p.msrs.vmcr.dpd = false) (c : Params) :
    p.activeDebugFeatures c = c.debugFeatures := by
  simp [Proc.activeDebugFeatures, Proc.debugEnabled, h]

/-- Where no flag stands in `other`, none of its bits is a flag's. -/
theorem VmCr.getLsbD_other_of_flag {c : Params} {r : VmCr} (h : r.other &&& c.vmCrFlagMask = 0#64) {k : Nat}
    (hk : c.vmCrFlagMask.getLsbD k = true) : r.other.getLsbD k = false := by
  have hbit := congrArg (·.getLsbD k) h
  simpa [BitVec.getLsbD_and, hk] using hbit

theorem VmCr.other_flags_clear {c : Params} {r : VmCr} (h : r.other &&& c.vmCrFlagMask = 0#64) :
    r.other.getLsbD c.dpdBit.val = false ∧ r.other.getLsbD c.rInitBit.val = false ∧ r.other.getLsbD c.disA20mBit.val = false := by
  refine ⟨?_, ?_, ?_⟩ <;> exact VmCr.getLsbD_other_of_flag h (by simp [Params.getLsbD_vmCrFlagMask])

section
variable {c : Params} {r : VmCr} (hdistinct : c.bitsDistinct = true) (hother : r.other &&& c.vmCrFlagMask = 0#64)
include hdistinct hother

/-- Fields put together as the register's contents read back as they were, where the flags stand at different bits and outside
`other`. -/
theorem VmCr.ofBits_toBits : VmCr.ofBits c (r.toBits c) = r := by
  simp only [Params.bitsDistinct, Bool.and_eq_true, decide_eq_true_eq, ne_eq, Fin.ext_iff] at hdistinct
  obtain ⟨⟨hdr, hda⟩, hra⟩ := hdistinct
  obtain ⟨hclearD, hclearR, hclearA⟩ := VmCr.other_flags_clear hother
  have hdpd : (r.toBits c).getLsbD c.dpdBit.val = r.dpd := by
    rw [VmCr.getLsbD_toBits, hclearD]
    simp [hdr, hda]
  have hrInit : (r.toBits c).getLsbD c.rInitBit.val = r.rInit := by
    rw [VmCr.getLsbD_toBits, hclearR]
    simp [Ne.symm hdr, hra]
  have hdisA20m : (r.toBits c).getLsbD c.disA20mBit.val = r.disA20m := by
    rw [VmCr.getLsbD_toBits, hclearA]
    simp [Ne.symm hda, Ne.symm hra]
  have hrest : r.toBits c &&& ~~~ c.vmCrFlagMask = r.other := by
    apply BitVec.eq_of_getLsbD_eq
    intro k hk
    rw [BitVec.getLsbD_and, BitVec.getLsbD_not, VmCr.getLsbD_toBits]
    cases hmask : c.vmCrFlagMask.getLsbD k with
    | true => simp only [VmCr.getLsbD_other_of_flag hother hmask, Bool.not_true, Bool.and_false]
    | false =>
      simp only [Params.getLsbD_vmCrFlagMask, Bool.or_eq_false_iff] at hmask
      simp [hmask, hk]
  simp only [VmCr.ofBits, hdpd, hrInit, hdisA20m, hrest]

/-- The `DPD` bit cleared in the contents is the flag cleared. -/
theorem VmCr.toBits_clear_dpd : r.toBits c &&& ~~~ bitMask c.dpdBit = ({ r with dpd := false } : VmCr).toBits c := by
  simp only [Params.bitsDistinct, Bool.and_eq_true, decide_eq_true_eq, ne_eq, Fin.ext_iff] at hdistinct
  obtain ⟨⟨hdr, hda⟩, -⟩ := hdistinct
  apply BitVec.eq_of_getLsbD_eq
  intro k hk
  rw [BitVec.getLsbD_and, BitVec.getLsbD_not, getLsbD_bitMask, VmCr.getLsbD_toBits, VmCr.getLsbD_toBits]
  by_cases hkd : k = c.dpdBit.val
  · rw [hkd, (VmCr.other_flags_clear hother).1]
    simp [hdr, hda]
  · simp [hkd, hk]

end

/-- Settles O55. -/
theorem writeVmCrWritesFields : Obligations.WriteVmCrWritesFields := by
  intro s q p v rest ha hp hr hm hn
  have hp' : ({ s with agenda := rest } : State).proc? q = some p := by simpa using hp
  have hstep := (step_of_cons ha).trans (State.bySoftware_agenda hp hr hm hn rest _)
  refine ⟨_, _, hstep, State.proc?_setProc_of_some hp' _, rfl, rfl, rfl, fun hzero => ?_, fun hdpd => ?_,
    fun hdistinct hother hv => ?_⟩
  · subst hzero
    have hclear := VmCr.ofBits_zero s.params
    refine ⟨hclear, ?_⟩
    rw [Proc.activeDebugFeatures_of_not_dpd (congrArg VmCr.dpd hclear), State.setProc_params]
  · exact Proc.activeDebugFeatures_of_dpd hdpd _
  · show VmCr.ofBits s.params v = _
    rw [hv, VmCr.toBits_clear_dpd hdistinct hother]
    exact VmCr.ofBits_toBits hdistinct hother

/-! ### The return from a handler (R127) -/

/-- Settles O41. -/
theorem returnResumesAtSavedPc : Obligations.ReturnResumesAtSavedPc := by
  intro s q p e rest ha hp hr hm hn he
  obtain ⟨earlier, hexcs⟩ := List.head?_eq_some_iff.1 he
  have hp' : ({ s with agenda := rest } : State).proc? q = some p := by simpa using hp
  have hstep := (step_of_cons ha).trans (State.bySoftware_agenda hp hr hm hn rest _)
  simp only [State.returnFromExc, hexcs] at hstep
  exact ⟨_, _, hstep, State.proc?_setProc_of_some hp' _, rfl, rfl, rfl, rfl, by rw [hexcs]; rfl, State.setProc_mem ..⟩

end Sys2Proof.Machine
end

section
/-! Reset and INIT (R151, R152; D6, D9): what RESET makes of the latch and the BSP, and what `INIT_STATE` leaves alone. -/

namespace Sys2Proof.Machine

/-! ### RESET (R151, D9; log 22) -/

@[simp] theorem State.resetAt_skinitLatch (s : State) (q : ProcId) (p : Proc) : (s.resetAt q p).skinitLatch = false := rfl

@[simp] theorem State.resetAt_bsp_run (s : State) (p : Proc) : (s.resetAt .bsp p).bsp.run = .running := rfl

/-- Where the BSP was in the middle of SKINIT that is abandoned, and elsewhere there was none. -/
@[simp] theorem State.resetAt_bsp_skinit (s : State) (p : Proc) : (s.resetAt .bsp p).skinit = none := by
  cases h : s.skinit <;> simp [State.resetAt, State.midSkinit, h]

/-- Settles O9. -/
theorem resetClearsLatchAndRunsBsp : Obligations.ResetClearsLatchAndRunsBsp := by
  refine ⟨fun _ => ⟨rfl, rfl⟩, fun s q p rest ha hp => ?_⟩
  have hstep := (step_of_cons ha).trans (State.onProc_agenda hp rest _)
  refine ⟨_, hstep, State.resetAt_skinitLatch .., fun hq => ?_⟩
  subst hq
  exact ⟨State.resetAt_bsp_run .., State.resetAt_bsp_skinit ..⟩

/-! ### INIT (R152, D6; log 20) -/

/-- An entry whose number is kept is found as before. -/
theorem lookup_filter_of_keep {β : Type} {keep : Nat → Bool} {n : Nat} (hn : keep n = true) (l : List (Nat × β)) :
    (l.filter fun c => keep c.1).lookup n = l.lookup n := by
  induction l with
  | nil => rfl
  | cons c l ih =>
    obtain ⟨k, v⟩ := c
    by_cases hk : n = k
    · subst hk
      simp [hn]
    · have hne : (n == k) = false := beq_false_of_ne hk
      cases hkeep : keep k <;> simp [hkeep, List.lookup_cons, hne, ih]

/-- An MSR outside the finite list is kept (R152c): what INIT takes from the image is within the list. -/
theorem lookup_initOtherMsrs_of_notMem {n : Nat} (h : n ∉ Config.initMsrs) (old image : List (Nat × Quad)) :
    (initOtherMsrs old image).lookup n = old.lookup n := by
  have himage : (image.filter fun c => Config.initMsrs.contains c.1).lookup n = none := by
    rw [List.lookup_eq_none_iff]
    rintro ⟨k, v⟩ hc
    have hk : k ∈ Config.initMsrs := by simpa using (List.mem_filter.1 hc).2
    simpa using fun hkn : n = k => h (hkn ▸ hk)
  have hold : (old.filter fun c => !Config.initMsrs.contains c.1).lookup n = old.lookup n :=
    lookup_filter_of_keep (keep := fun k => !Config.initMsrs.contains k) (by simpa using h) old
  rw [initOtherMsrs, List.lookup_append, himage, hold, Option.none_or]

/-- The data segments are those of real mode, whatever their selectors (R152a). -/
theorem Proc.exists_initState_segs_eq_realMode (p : Proc) {r : SegReg} (hcs : r ≠ .cs) (hss : r ≠ .ss) :
    ∃ sel, p.initState.segs.get r = .realMode sel := by
  cases r with
  | cs => exact absurd rfl hcs
  | ss => exact absurd rfl hss
  | ds | es | fs | gs => exact ⟨_, rfl⟩

/-- Settles O14. -/
theorem initStateKeeps : Obligations.InitStateKeeps := by
  refine fun p => ⟨p.initState_pending, p.initState_fpctl, p.initState_gif, p.initState_vmcr, p.initState_eferWidth,
    p.initState_breakpoints, p.initState_trap, p.initHalt_run, p.initHalt_pending,
    fun n hn => lookup_initOtherMsrs_of_notMem hn _ _, fun r hcs hss => ?_⟩
  obtain ⟨sel, hseg⟩ := p.exists_initState_segs_eq_realMode hcs hss
  rw [hseg]
  exact ⟨toNat_realMode_base sel, rfl, rfl⟩

end Sys2Proof.Machine
end

section
/-! The clean-up of an abort (R170, R171, R141; log 33). Each of its actions brings about one part of normal operation and undoes no
other, so they may come in any order: an induction over the actions still to do. -/

namespace Sys2Proof.Machine

/-! ### The controller of a processor (R5, R33) -/

theorem Params.memCtl_lt {c : Params} {nAps nCtls : Nat} (h : c.memCtlOk nAps nCtls = true) (q : ProcId) : c.memCtl q < nCtls := by
  simp only [Params.memCtlOk, Bool.and_eq_true, decide_eq_true_eq, List.all_eq_true] at h
  obtain ⟨⟨-, hbsp⟩, haps⟩ := h
  cases q with
  | bsp => exact hbsp
  | ap i =>
    simp only [Params.memCtl, List.getD_eq_getElem?_getD]
    cases hi : c.apCtls[i]? with
    | none => exact hbsp
    | some m => exact haps m (List.mem_of_getElem? hi)

@[simp] theorem State.proc?_agenda_mcs (s : State) (l : List Move) (mcs : List MemCtl) (q : ProcId) :
    ({ s with agenda := l, mcs := mcs } : State).proc? q = s.proc? q := by
  cases q <;> rfl

@[simp] theorem State.midSkinit_agenda_mcs (s : State) (l : List Move) (mcs : List MemCtl) (q : ProcId) :
    ({ s with agenda := l, mcs := mcs } : State).midSkinit q = s.midSkinit q := by
  cases q <;> rfl

/-! ### The actions one by one -/

/-- What a clean-up action is to bring about of the processor and of its controller; nothing for another move. -/
def Move.AchievedIn (p : Proc) (c : MemCtl) : Move → Prop
  | .setGif _ => p.gif = true
  | .writeVmcr _ _ => p.msrs.vmcr = .clear
  | .clearSlDevEn _ _ => c.en = false
  | _ => True

/-- What is achieved stays so where neither `GIF` nor `VM_CR` nor the controller's protection goes back. -/
theorem Move.AchievedIn.mono {p p' : Proc} {c c' : MemCtl} (hgif : p.gif = true → p'.gif = true)
    (hvmcr : p.msrs.vmcr = .clear → p'.msrs.vmcr = .clear) (hen : c.en = false → c'.en = false) {m : Move}
    (h : m.AchievedIn p c) : m.AchievedIn p' c' := by
  cases m with
  | setGif => exact hgif h
  | writeVmcr => exact hvmcr h
  | clearSlDevEn => exact hen h
  | _ => trivial

/-- In the middle of a clean-up on `q` that began in `s₀`, with `todo` still to do: software runs on `q`, memory is as it was, and
what is not still to do is achieved. -/
structure State.CleanupAt (s₀ : State) (q : ProcId) (todo : List Move) (s : State) (p : Proc) (c : MemCtl) : Prop where
  agenda : s.agenda = todo
  params : s.params = s₀.params
  mem : s.mem = s₀.mem
  proc : s.proc? q = some p
  running : p.run = .running
  outsideSkinit : s.midSkinit q = false
  supported : p.nestedUnsupported s.params = false
  controller : s.mcs[s.params.memCtl q]? = some c
  achieved : ∀ m ∈ s₀.abortMoves q, m ∈ todo ∨ m.AchievedIn p c

section
variable {s₀ s : State} {q : ProcId} {m : Move} {rest : List Move} {p : Proc} {c : MemCtl}
  (h : s₀.CleanupAt q (m :: rest) s p c)
include h

/-- One action less to do, its aim reached and what was reached before kept. -/
theorem State.CleanupAt.achieved_of_step {p' : Proc} {c' : MemCtl} (hm : m.AchievedIn p' c')
    (hgif : p.gif = true → p'.gif = true) (hvmcr : p.msrs.vmcr = .clear → p'.msrs.vmcr = .clear)
    (hen : c.en = false → c'.en = false) :
    ∀ m' ∈ s₀.abortMoves q, m' ∈ rest ∨ m'.AchievedIn p' c' := by
  intro m' hm'
  rcases h.achieved m' hm' with htodo | hdone
  · rcases List.mem_cons.1 htodo with rfl | hrest
    · exact .inr hm
    · exact .inl hrest
  · exact .inr (hdone.mono hgif hvmcr hen)

/-- After an action that changes the processor alone. -/
theorem State.CleanupAt.setProc {p' : Proc} (hrun : p'.run = p.run) (hctx : p'.ctx = p.ctx) (hm : m.AchievedIn p' c)
    (hgif : p.gif = true → p'.gif = true) (hvmcr : p.msrs.vmcr = .clear → p'.msrs.vmcr = .clear) :
    s₀.CleanupAt q rest (({ s with agenda := rest } : State).setProc q p') p' c where
  agenda := by simp
  params := by simp [h.params]
  mem := by simp [h.mem]
  proc := State.proc?_setProc_of_some (by simpa using h.proc) p'
  running := hrun.trans h.running
  outsideSkinit := by simp [h.outsideSkinit]
  supported := by simpa [Proc.nestedUnsupported, hctx] using h.supported
  controller := by simpa using h.controller
  achieved := h.achieved_of_step hm hgif hvmcr id

/-- After the action that opens the controller. -/
theorem State.CleanupAt.openController (hm : m.AchievedIn p { c with en := false }) :
    s₀.CleanupAt q rest
      { s with agenda := rest, mcs := s.mcs.set (s.params.memCtl q) { c with en := false } } p { c with en := false } where
  agenda := rfl
  params := h.params
  mem := h.mem
  proc := by simpa using h.proc
  running := h.running
  outsideSkinit := by simpa using h.outsideSkinit
  supported := h.supported
  controller := by
    obtain ⟨hlt, -⟩ := List.getElem?_eq_some_iff.1 h.controller
    exact List.getElem?_set_self hlt
  achieved := h.achieved_of_step hm id id fun _ => rfl

/-- A clean-up action completes, whatever is already done. -/
theorem State.CleanupAt.step_completes (hm : m ∈ s₀.abortMoves q) : ∃ t p' c', step s = .next t ∧ s₀.CleanupAt q rest t p' c' := by
  have hsoft := State.bySoftware_agenda h.proc h.running h.outsideSkinit h.supported rest
  have hstep := step_of_cons h.agenda
  simp only [State.abortMoves, List.mem_cons, List.not_mem_nil, or_false, ← h.params] at hm
  rcases hm with rfl | rfl | rfl
  · exact ⟨_, _, _, hstep.trans (hsoft _), h.setProc rfl rfl rfl (fun _ => rfl) id⟩
  · have hclear := VmCr.ofBits_zero s.params
    exact ⟨_, _, _, hstep.trans (hsoft _), h.setProc rfl rfl hclear id fun _ => hclear⟩
  · refine ⟨_, _, _, hstep.trans ((hsoft _).trans ?_), h.openController rfl⟩
    simp only [h.controller]

end

/-! ### All of them -/

/-- Any list of clean-up actions is worked off, in as many steps. -/
theorem State.CleanupAt.run_completes {s₀ : State} {q : ProcId} {todo : List Move} (hmem : ∀ m ∈ todo, m ∈ s₀.abortMoves q) :
    ∀ {s : State} {p : Proc} {c : MemCtl}, s₀.CleanupAt q todo s p c →
      ∃ t p' c', Sys2Proof.core.run todo.length s = .next t ∧ s₀.CleanupAt q [] t p' c' := by
  induction todo with
  | nil => exact fun h => ⟨_, _, _, rfl, h⟩
  | cons m rest ih =>
    intro s p c h
    obtain ⟨hm, hrest⟩ := List.forall_mem_cons.1 hmem
    obtain ⟨u, p₁, c₁, hstep, hu⟩ := h.step_completes hm
    obtain ⟨t, p', c', hrun, ht⟩ := ih hrest hu
    exact ⟨t, p', c', (core_run_succ hstep _).trans hrun, ht⟩

/-- With nothing left to do normal operation is restored. -/
theorem State.CleanupAt.restored {s₀ t : State} {q : ProcId} {p : Proc} {c : MemCtl} (h : s₀.CleanupAt q [] t p c) :
    t.restored q := by
  have hdone : ∀ m ∈ s₀.abortMoves q, m.AchievedIn p c := fun m hm => (h.achieved m hm).resolve_left List.not_mem_nil
  simp only [State.abortMoves, List.forall_mem_cons] at hdone
  obtain ⟨hgif, hvmcr, hen, -⟩ := hdone
  exact ⟨⟨p, h.proc, hgif, hvmcr⟩, c, h.controller, hen⟩

/-- Settles O56, by induction over the actions still to do, which are those of the list in another order. -/
theorem abortRestoresNormalOperation : Obligations.AbortRestoresNormalOperation := by
  intro s q p hinv hp hr hm hn hperm
  obtain ⟨c, hc⟩ : ∃ c, s.mcs[s.params.memCtl q]? = some c :=
    ⟨_, List.getElem?_eq_getElem (Params.memCtl_lt hinv.memCtlNamed q)⟩
  have hstart : s.CleanupAt q s.agenda s p c :=
    ⟨rfl, rfl, rfl, hp, hr, hm, hn, hc, fun m hm => .inl (hperm.mem_iff.2 hm)⟩
  obtain ⟨t, p', c', hrun, ht⟩ := State.CleanupAt.run_completes (fun m => hperm.mem_iff.1) hstart
  rw [hperm.length_eq] at hrun
  exact ⟨t, hrun, ht.restored, ht.agenda, ht.mem⟩

end Sys2Proof.Machine
end

section
/-! The values `State.reset` holds, the model's choice where the spec gives none (R151, N16; log 4, log 5). -/

namespace Sys2Proof.Machine

/-- The BSP right after RESET is in the `RESET_STATE` of the parameters, and running (R151). -/
theorem State.resetOf_bsp (c : Params) : (State.resetOf c).bsp = { c.resetProc with run := .running } := rfl

/-- In `State.reset` that is the family's state of item GK9 (log 4, log 5). -/
theorem State.reset_bsp :
    State.reset.bsp =
      { Proc.familyReset State.reset.params.cpuSignature State.reset.params.eferWidth with run := .running } :=
  State.resetOf_bsp .ofReset

/-- Settles O10: the BSP's values are those of `Proc.familyReset`; memory and the TPM are as `State.resetOf` leaves them. -/
theorem resetHasFamilyValues : Obligations.ResetHasFamilyValues := by
  unfold Obligations.ResetHasFamilyValues
  rw [State.reset_bsp]
  exact ⟨rfl, rfl, rfl, rfl, rfl, rfl, rfl, rfl, rfl, rfl, rfl, rfl⟩

end Sys2Proof.Machine
end
